-- ==== Sys2Proof/Word.lean ====
section
/-! DEFINITION. The bit-vector widths of the block (R10): bytes, 32-bit words, 12-bit chip addresses. -/

namespace Sys2Proof

/-- One byte: the unit of the serial link and of the chip address space (R26, R50). -/
abbrev Byte := BitVec 8

/-- A register value or a header word, 32 bits (R5 `REG_WIDTH`). -/
abbrev Word := BitVec 32

/-- A chip address, 12 bits (R5 `ADDR_WIDTH`, R50). -/
abbrev Addr := BitVec 12

end Sys2Proof
end

