-- ==== Sys2Proof/Config.lean ====
section
/-! DEFINITION. What an integrator fixes at construction: the constants of R5 and R6, the capability record CAP (R7),
the SCHEMA parameters with their defaults (R8), admissibility (R9), IRQ_WAIT (R206), and the model's free values. -/

namespace Sys2Proof

/-! ### Fixed parameters (R5, R6) -/

def ramBase : Nat := 0x400
def ramSize : Nat := 2048
def nFifo : Nat := 31
def nFilter : Nat := 32
/-- R6: the base of the FIFO address formula, so that index 1 lands on `FIFO_FIRST` = 0x05C. -/
def fifoBase : Nat := 0x050
def fifoStride : Nat := 0x0C
def fltObjBase : Nat := 0x1F0
def maskBase : Nat := 0x1F4
def filterStride : Nat := 0x08
def maxPayload : Nat := 64
def depthMin : Nat := 1
def depthMax : Nat := 32
def priMax : Nat := 31
def hdrBytes : Nat := 8
/-- R50: the chip address space has 12-bit addresses. -/
def chipSpace : Nat := 0x1000

def opReset : BitVec 4 := 0x0
def opWrite : BitVec 4 := 0x2
def opRead : BitVec 4 := 0x3
def opWriteCrc : BitVec 4 := 0xA
def opReadCrc : BitVec 4 := 0xB
def opWriteSafe : BitVec 4 := 0xC

/-! ### The capability descriptor (R7) -/

inductive Variant | fd | legacy
deriving DecidableEq, Repr

structure Capability where
  variant       : Variant
  hasRts        : Bool
  hasReadStatus : Bool
  /-- The registers MODIFY_REG accepts, as a list of addresses (R7, R9, R127). -/
  modifiable    : List Addr
deriving DecidableEq, Repr

/-- R7: the spec defines the block only for this value; any other refuses every operation (R246, `Variant`). -/
def Capability.supported (c : Capability) : Bool :=
  c.variant == .fd && !c.hasRts && !c.hasReadStatus

/-! ### The schema parameters (R8) -/

structure Schema where
  addrInt           : Addr
  intRxBit          : Nat
  intBusErrBit      : Nat
  addrRxif          : Addr
  staNotFullBit     : Nat
  conNotEmptyIeBit  : Nat
  conRxtsBit        : Nat
  conTxenBit        : Nat
  conUincBit        : Nat
  conTxreqBit       : Nat
  conFresetBit      : Nat
  conTxpriLsb       : Nat
  conTxatLsb        : Nat
  conFsizeLsb       : Nat
  conPlsizeLsb      : Nat
  txatDisabled      : Nat
  txatThree         : Nat
  txatUnlimited     : Nat
  addrFltconBase    : Addr
  fltconSlotsPerReg : Nat
  fltconSlotBits    : Nat
  fltconBpLsb       : Nat
  fltconEnBit       : Nat
  objSidLsb         : Nat
  objEidLsb         : Nat
  fltExideBit       : Nat
  hdrDlcLsb         : Nat
  hdrIdeBit         : Nat
  hdrRtrBit         : Nat
  hdrBrsBit         : Nat
  hdrFdfBit         : Nat
  hdrEsiBit         : Nat
  hdrSeqLsb         : Nat
  hdrFilhitLsb      : Nat
  rxPayloadOffset   : Nat
deriving DecidableEq, Repr

/-- The defaults of R8 (93_implementation_defined.md G2 to G8: PRESUMED by the spec, log entry 10). -/
def Schema.default : Schema where
  addrInt           := 0x01C
  intRxBit          := 1
  intBusErrBit      := 13
  addrRxif          := 0x020
  staNotFullBit     := 0
  conNotEmptyIeBit  := 0
  conRxtsBit        := 5
  conTxenBit        := 7
  conUincBit        := 8
  conTxreqBit       := 9
  conFresetBit      := 10
  conTxpriLsb       := 16
  conTxatLsb        := 21
  conFsizeLsb       := 24
  conPlsizeLsb      := 29
  txatDisabled      := 0
  txatThree         := 1
  txatUnlimited     := 2
  addrFltconBase    := 0x1D0
  fltconSlotsPerReg := 4
  fltconSlotBits    := 8
  fltconBpLsb       := 0
  fltconEnBit       := 7
  objSidLsb         := 0
  objEidLsb         := 11
  fltExideBit       := 30
  hdrDlcLsb         := 0
  hdrIdeBit         := 4
  hdrRtrBit         := 5
  hdrBrsBit         := 6
  hdrFdfBit         := 7
  hdrEsiBit         := 8
  hdrSeqLsb         := 9
  hdrFilhitLsb      := 11
  rxPayloadOffset   := 8

/-- R206: how the interrupt wait reads the line. -/
inductive IrqWait | level | edge
deriving DecidableEq, Repr

/-- The level of the interrupt line (R27). -/
inductive IrqLevel | high | low
deriving DecidableEq, Repr, Inhabited

/-- Everything fixed at construction (R25, R280). -/
structure Config where
  cap     : Capability
  schema  : Schema
  irqWait : IrqWait
deriving DecidableEq, Repr

/-! ### Admissibility (R9) -/

/-- Two fields, each given as (least significant bit, width), share no bit. -/
def fieldsApart (f g : Nat × Nat) : Bool := f.1 + f.2 ≤ g.1 || g.1 + g.2 ≤ f.1

/-- R9: every field lies inside a word of `size` bits and no two overlap. -/
def fieldsFit (size : Nat) : List (Nat × Nat) → Bool
  | [] => true
  | f :: fs => decide (f.1 + f.2 ≤ size) && fs.all (fieldsApart f) && fieldsFit size fs

/-- The registers the composite operations update with MODIFY_REG at a filter-control base (R9). -/
def composedTargets (addrInt fltconBase : Addr) : List Addr :=
  addrInt :: ((List.range 31).map fun i => BitVec.ofNat 12 (fifoBase + (i + 1) * fifoStride))
    ++ (List.range 8).map fun k => BitVec.ofNat 12 (fltconBase.toNat + 4 * k)

/-- An `ADDR_*` parameter is a multiple of 4 below 0x400 (R9). -/
def addrFits (a : Addr) : Bool := a.toNat % 4 == 0 && decide (a.toNat < 0x400)

def Schema.intFields (s : Schema) : List (Nat × Nat) := [(s.intRxBit, 1), (s.intBusErrBit, 1)]
def Schema.conFields (s : Schema) : List (Nat × Nat) :=
  [(s.conNotEmptyIeBit, 1), (s.conRxtsBit, 1), (s.conTxenBit, 1), (s.conUincBit, 1), (s.conTxreqBit, 1),
   (s.conFresetBit, 1), (s.conTxpriLsb, 5), (s.conTxatLsb, 2), (s.conFsizeLsb, 5), (s.conPlsizeLsb, 3)]
def Schema.slotFields (s : Schema) : List (Nat × Nat) := [(s.fltconBpLsb, 5), (s.fltconEnBit, 1)]
def Schema.objectFields (s : Schema) : List (Nat × Nat) :=
  [(s.objSidLsb, 11), (s.objEidLsb, 18), (s.fltExideBit, 1)]
def Schema.headerFlagFields (s : Schema) : List (Nat × Nat) :=
  [(s.hdrDlcLsb, 4), (s.hdrIdeBit, 1), (s.hdrRtrBit, 1), (s.hdrBrsBit, 1), (s.hdrFdfBit, 1), (s.hdrEsiBit, 1)]

/-- R9, with the conditions its formulas need (log entry 11): the retransmission codes fit their two bits, the slots
of one filter-control register fit its 32 bits and 32 filters need at most 8 such registers. -/
def Config.wf (c : Config) : Bool :=
  let s := c.schema
  fieldsFit 32 s.intFields && fieldsFit 32 [(s.staNotFullBit, 1)] && fieldsFit 32 s.conFields
    && fieldsFit s.fltconSlotBits s.slotFields && decide (s.fltconSlotsPerReg * s.fltconSlotBits ≤ 32)
    && decide (nFilter ≤ 8 * s.fltconSlotsPerReg)
    && fieldsFit 32 s.objectFields
    && fieldsFit 32 (s.headerFlagFields ++ [(s.hdrSeqLsb, 23)])
    && fieldsFit 32 (s.headerFlagFields ++ [(s.hdrFilhitLsb, 5)])
    && decide (s.txatDisabled < 4) && decide (s.txatThree < 4) && decide (s.txatUnlimited < 4)
    && addrFits s.addrInt && addrFits s.addrRxif && addrFits s.addrFltconBase
    && (composedTargets s.addrInt s.addrFltconBase).all (c.cap.modifiable.contains ·)

/-- R7 and R9: the FD variant whose modifiable set is exactly the composite operations' targets. -/
def Capability.default : Capability where
  variant       := .fd
  hasRts        := false
  hasReadStatus := false
  modifiable    := composedTargets Schema.default.addrInt Schema.default.addrFltconBase

def Config.default : Config where
  cap     := Capability.default
  schema  := Schema.default
  irqWait := .level

/-! ### Free values -/

/-- FREE VALUE (R62, log entry 4): the `k`-th byte the oracle supplies beyond the bytes listed in State. -/
opaque Config.oracleByte : Nat → Byte

/-- FREE VALUE (R27, R283, log entry 9): the level of the interrupt line at reset. -/
opaque Config.irqAtReset : IrqLevel

end Sys2Proof
end

