-- ==== Sys2Proof/Syntax.lean ====
section
/-! DEFINITION. The operand records of the host operations, one constructor of `Instr` per row of
spec/opcode_table.json, and the two forms in which a request reaches the block. -/

namespace Sys2Proof

/-- R150: an identifier, tagged by kind. -/
inductive Id
  | std (s : BitVec 11)
  | ext (x : BitVec 29)
deriving DecidableEq, Repr

/-- R150. `data` is the 64-byte buffer (its length is checked by `WellFormed`). -/
structure Frame where
  id   : Id
  dlc  : BitVec 4
  data : List Byte
  seq  : Option (BitVec 23)
deriving DecidableEq, Repr

/-- R90: the decoded form of the 64-bit message-object header. -/
structure Header where
  sid  : BitVec 11
  eid  : BitVec 18
  dlc  : BitVec 4
  ide  : Bool
  rtr  : Bool
  brs  : Bool
  fdf  : Bool
  esi  : Bool
  tail : BitVec 23
deriving DecidableEq, Repr

/-- R220: the retransmission-attempts policy. -/
inductive Retransmit | disabled | three | unlimited
deriving DecidableEq, Repr

/-- R220: the operand record of CONFIGURE_FIFO. -/
inductive FifoSpec
  | tx (depth payloadSize priority : Byte) (retransmit : Retransmit)
  | rx (depth payloadSize : Byte) (timestamps : Bool)
deriving DecidableEq, Repr

/-- R224. -/
structure FilterSpec where
  id   : Id
  fifo : Byte
deriving DecidableEq, Repr

/-- R224. -/
structure MaskSpec where
  bits      : Id
  matchKind : Bool
deriving DecidableEq, Repr

/-- One constructor per row of spec/opcode_table.json: six wire commands (R81 to R86) and the twenty-four host
operations of R100. -/
inductive Instr
  /-- W-RESET, R81. -/
  | wReset
  /-- W-READ, R82: the address and the number of placeholder bytes. -/
  | wRead (a : Addr) (n : Nat)
  /-- W-WRITE, R83: the address and the data bytes. -/
  | wWrite (a : Addr) (data : List Byte)
  /-- W-WRITE-CRC, reserved (R86); `rest` is whatever follows the command, whose layout the spec does not give. -/
  | wWriteCrc (a : Addr) (rest : List Byte)
  /-- W-READ-CRC, reserved (R86). -/
  | wReadCrc (a : Addr) (rest : List Byte)
  /-- W-WRITE-SAFE, reserved (R86). -/
  | wWriteSafe (a : Addr) (rest : List Byte)
  /-- RESET, opc 0x00, R124. -/
  | reset
  /-- READ_REG, opc 0x01, R125. -/
  | readReg (addr : Addr)
  /-- WRITE_REG, opc 0x02, R126. -/
  | writeReg (addr : Addr) (value : Word)
  /-- MODIFY_REG, opc 0x03, R127. -/
  | modifyReg (addr : Addr) (mask value : Word)
  /-- READ_BYTES, opc 0x04, R128. -/
  | readBytes (off n : Word)
  /-- WRITE_BYTES, opc 0x05, R129. -/
  | writeBytes (off : Word) (data : List Byte)
  /-- REQUEST_TO_TRANSMIT, opc 0x06, R132. -/
  | requestToTransmit (queue : Byte)
  /-- READ_STATUS, opc 0x07, R133. -/
  | readStatus
  /-- DLC_TO_LEN, opc 0x10, R151. -/
  | dlcToLen (dlc : BitVec 4)
  /-- LEN_TO_DLC, opc 0x11, R152. -/
  | lenToDlc (len : Word)
  /-- FRAME_NEW, opc 0x12, R153. -/
  | frameNew (id : Id) (data : List Byte) (seq : Option (BitVec 23))
  /-- ENCODE, opc 0x13, R154. -/
  | encode (frame : Frame)
  /-- DECODE, opc 0x14, R155. -/
  | decode (header : Header) (payload : List Byte)
  /-- HDR_TO_BYTES, opc 0x15, R156. -/
  | hdrToBytes (header : Header)
  /-- BYTES_TO_HDR, opc 0x16, R157; `b` has exactly 8 bytes (checked by `WellFormed`). -/
  | bytesToHdr (b : List Byte)
  /-- FIFO_ADDR, opc 0x20, R180. -/
  | fifoAddr (i : Byte)
  /-- FILTER_ADDR, opc 0x21, R182. -/
  | filterAddr (n : Byte)
  /-- ARBITRATE, opc 0x22, R183. -/
  | arbitrate (intStatus : Word)
  /-- SCAN, opc 0x23, R184. -/
  | scan (bitmap : Word)
  /-- TRANSMIT, opc 0x30, R200. -/
  | transmit (i : Byte) (frame : Frame)
  /-- RECEIVE, opc 0x31, R202. -/
  | receive
  /-- RECEIVE_WAIT, opc 0x32, R205. -/
  | receiveWait
  /-- CONFIGURE_FIFO, opc 0x40, R221. -/
  | configureFifo (i : Byte) (spec : FifoSpec)
  /-- CONFIGURE_FILTER, opc 0x41, R225. -/
  | configureFilter (n : Byte) (filter : FilterSpec) (mask : MaskSpec)
deriving DecidableEq, Repr

/-- How a request reaches the block: a host operation at the command port, as its opc and operand record (R100; the
record's layout is log entry 1), or one framed transaction at the sequencer's port, as its bytes (log entry 2). -/
inductive Request
  | host (bytes : List Byte)
  | wire (frame : List Byte)
deriving DecidableEq, Repr

/-- Why bytes decode to no instruction. -/
inductive DecodeError
  /-- No byte at all. -/
  | empty
  /-- R103: a host code the table of R100 does not list. -/
  | reservedOpc (opc : Byte)
  /-- The operand record ends early. -/
  | truncated
  /-- A field holds a value its type cannot hold (R150: "cannot be written down"). -/
  | operandRange
  /-- R87: an instruction nibble the document does not assign, or a reset byte with another low nibble. -/
  | unassigned (b : Byte)
  /-- R81 to R83: a frame whose length is not one of its wire command's. -/
  | frameLength
  /-- R82: a placeholder byte that is not 0x00. -/
  | placeholder
deriving DecidableEq, Repr

end Sys2Proof
end

