-- ==== Sys2Proof/WellFormed.lean ====
section
/-! DEFINITION. What an instruction must satisfy beyond its types: buffer lengths (R150, R157), wire-command lengths
(R82, R83) and byte sequences short enough for the request record's 32-bit length (log entry 1). -/

namespace Sys2Proof

/-- R150: the payload buffer has 64 bytes. -/
def Frame.wf (f : Frame) : Bool := f.data.length == maxPayload

/-- R82, R83: at least 4 bytes, and a multiple of 4. -/
def burstLengthOk (n : Nat) : Bool := decide (4 ≤ n) && n % 4 == 0

/-- A byte sequence whose length the request record can carry. -/
def recordable (data : List Byte) : Bool := decide (data.length < 2 ^ 32)

def Instr.wellFormed : Instr → Bool
  | .wReset => true
  | .wRead _ n => burstLengthOk n
  | .wWrite _ data => burstLengthOk data.length
  | .wWriteCrc _ _ => true
  | .wReadCrc _ _ => true
  | .wWriteSafe _ _ => true
  | .reset => true
  | .readReg _ => true
  | .writeReg _ _ => true
  | .modifyReg _ _ _ => true
  | .readBytes _ _ => true
  | .writeBytes _ data => recordable data
  | .requestToTransmit _ => true
  | .readStatus => true
  | .dlcToLen _ => true
  | .lenToDlc _ => true
  | .frameNew _ data _ => recordable data
  | .encode frame => frame.wf
  | .decode _ payload => recordable payload
  | .hdrToBytes _ => true
  | .bytesToHdr b => b.length == hdrBytes
  | .fifoAddr _ => true
  | .filterAddr _ => true
  | .arbitrate _ => true
  | .scan _ => true
  | .transmit _ frame => frame.wf
  | .receive => true
  | .receiveWait => true
  | .configureFifo _ _ => true
  | .configureFilter _ _ _ => true

end Sys2Proof
end

