-- ==== Sys2Proof/Decode.lean ====
section
/-! DEFINITION. From bits to instructions and back: the wire commands (R80 to R88), the host operation codes (R100,
R103) with the operand record after them (its layout is log entry 1), and `decodeTableWord` for the opcode table. -/

namespace Sys2Proof

/-! ### Wire command bytes (R84) -/

/-- R84: `byte0 = (C << 4) | A[11:8]`, `byte1 = A[7:0]`. -/
def wireCommand (c : BitVec 4) (a : Addr) : List Byte :=
  [(c.setWidth 8 <<< 4) ||| (a.extractLsb' 8 4).setWidth 8, a.extractLsb' 0 8]

/-- R84, the inverse: `C = byte0[7:4]`. -/
def wireNibble (b0 : Byte) : BitVec 4 := b0.extractLsb' 4 4

/-- R84, the inverse: `A = (byte0[3:0] << 8) | byte1`. -/
def wireAddress (b0 b1 : Byte) : Addr :=
  ((b0.extractLsb' 0 4).setWidth 12 <<< 8) ||| b1.setWidth 12

/-- R81. -/
def resetByte : Byte := 0x00

/-- R82: the placeholder value (92_eei_decisions.md D6). -/
def placeholderByte : Byte := 0x00

/-- R10 `zeros(n)`. -/
def zeros (n : Nat) : List Byte := List.replicate n 0x00

/-! ### Reading and writing fields of a request record (log entry 1) -/

/-- A reader consumes a front part of the bytes, or says why it cannot. -/
abbrev Reader (α : Type) := List Byte → Except DecodeError (α × List Byte)

def Reader.pure {α : Type} (a : α) : Reader α := fun bs => .ok (a, bs)

def Reader.bind {α β : Type} (r : Reader α) (k : α → Reader β) : Reader β := fun bs =>
  match r bs with
  | .ok (a, rest) => k a rest
  | .error e => .error e

def Reader.map {α β : Type} (f : α → β) (r : Reader α) : Reader β := r.bind fun a => .pure (f a)

/-- Refuse a value the field's type cannot hold. -/
def Reader.guard {α : Type} (ok : Bool) (a : α) : Reader α := fun bs =>
  if ok then .ok (a, bs) else .error .operandRange

/-- `v` in `k` bytes, least significant byte first. -/
def natBytes : Nat → Nat → List Byte
  | 0, _ => []
  | k + 1, v => BitVec.ofNat 8 v :: natBytes k (v / 256)

/-- An unsigned integer of `k` bytes, least significant byte first. -/
def readNat : Nat → Reader Nat
  | 0 => .pure 0
  | k + 1 => fun bs =>
    match bs with
    | [] => .error .truncated
    | b :: rest => (readNat k).map (fun hi => b.toNat + 256 * hi) rest

/-- An unsigned integer of width `w` held in `k` bytes; the unused upper bits must be 0. -/
def readBits (k w : Nat) : Reader (BitVec w) :=
  (readNat k).bind fun v => .guard (decide (v < 2 ^ w)) (BitVec.ofNat w v)

def bitsBytes (k : Nat) {w : Nat} (v : BitVec w) : List Byte := natBytes k v.toNat

def readBool : Reader Bool :=
  (readNat 1).bind fun v => .guard (decide (v < 2)) (v == 1)

def boolBytes (b : Bool) : List Byte := natBytes 1 b.toNat

/-- Exactly `n` bytes. -/
def readRaw (n : Nat) : Reader (List Byte) := fun bs =>
  if bs.length < n then .error .truncated else .ok (bs.take n, bs.drop n)

/-- A byte sequence: its length in 4 bytes, then the bytes. -/
def readSeq : Reader (List Byte) := (readNat 4).bind readRaw

def seqBytes (data : List Byte) : List Byte := natBytes 4 data.length ++ data

/-- An identifier: a kind byte (0 standard, 1 extended), then the value in 4 bytes. -/
def readId : Reader Id :=
  readBool.bind fun e => if e then (readBits 4 29).map .ext else (readBits 4 11).map .std

def idBytes : Id → List Byte
  | .std s => boolBytes false ++ bitsBytes 4 s
  | .ext x => boolBytes true ++ bitsBytes 4 x

/-- An optional sequence number: a presence byte, then the value in 3 bytes, 0 when absent. -/
def readSeqNo : Reader (Option (BitVec 23)) :=
  readBool.bind fun present =>
    if present then (readBits 3 23).map some
    else (readNat 3).bind fun v => .guard (v == 0) none

def seqNoBytes : Option (BitVec 23) → List Byte
  | some q => boolBytes true ++ bitsBytes 3 q
  | none => boolBytes false ++ natBytes 3 0

def readFrame : Reader Frame :=
  readId.bind fun id => (readBits 1 4).bind fun dlc => (readRaw maxPayload).bind fun data =>
    readSeqNo.map fun seq => { id, dlc, data, seq }

def frameBytes (f : Frame) : List Byte :=
  idBytes f.id ++ (bitsBytes 1 f.dlc ++ (f.data ++ seqNoBytes f.seq))

def readHeader : Reader Header :=
  (readBits 2 11).bind fun sid => (readBits 3 18).bind fun eid => (readBits 1 4).bind fun dlc =>
    readBool.bind fun ide => readBool.bind fun rtr => readBool.bind fun brs => readBool.bind fun fdf =>
      readBool.bind fun esi => (readBits 3 23).map fun tail => { sid, eid, dlc, ide, rtr, brs, fdf, esi, tail }

def headerBytes (h : Header) : List Byte :=
  bitsBytes 2 h.sid ++ (bitsBytes 3 h.eid ++ (bitsBytes 1 h.dlc ++ (boolBytes h.ide ++ (boolBytes h.rtr ++
    (boolBytes h.brs ++ (boolBytes h.fdf ++ (boolBytes h.esi ++ bitsBytes 3 h.tail)))))))

def readRetransmit : Reader Retransmit :=
  (readNat 1).bind fun v =>
    if v = 0 then .pure .disabled else if v = 1 then .pure .three else .guard (v == 2) .unlimited

def retransmitBytes : Retransmit → List Byte
  | .disabled => natBytes 1 0
  | .three => natBytes 1 1
  | .unlimited => natBytes 1 2

/-- A FifoSpec: a kind byte (0 transmit, 1 receive), depth, payload size, then the fields of that kind. -/
def readFifoSpec : Reader FifoSpec :=
  readBool.bind fun receive => (readBits 1 8).bind fun depth => (readBits 1 8).bind fun size =>
    if receive then readBool.map fun ts => .rx depth size ts
    else (readBits 1 8).bind fun priority => readRetransmit.map fun r => .tx depth size priority r

def fifoSpecBytes : FifoSpec → List Byte
  | .tx depth size priority r =>
    boolBytes false ++ (bitsBytes 1 depth ++ (bitsBytes 1 size ++ (bitsBytes 1 priority ++ retransmitBytes r)))
  | .rx depth size ts => boolBytes true ++ (bitsBytes 1 depth ++ (bitsBytes 1 size ++ boolBytes ts))

def readFilterSpec : Reader FilterSpec :=
  readId.bind fun id => (readBits 1 8).map fun fifo => { id, fifo }

def filterSpecBytes (f : FilterSpec) : List Byte := idBytes f.id ++ bitsBytes 1 f.fifo

def readMaskSpec : Reader MaskSpec :=
  readId.bind fun bits => readBool.map fun matchKind => { bits, matchKind }

def maskSpecBytes (m : MaskSpec) : List Byte := idBytes m.bits ++ boolBytes m.matchKind

/-! ### Host operations (R100) -/

/-- R100: the operand record each operation code announces, in the table's operand order; `none` for a reserved
code (R103). -/
def operandReader (opc : Byte) : Option (Reader Instr) :=
  match opc.toNat with
  | 0x00 => some (.pure .reset)
  | 0x01 => some ((readBits 2 12).map .readReg)
  | 0x02 => some ((readBits 2 12).bind fun a => (readBits 4 32).map fun v => .writeReg a v)
  | 0x03 => some ((readBits 2 12).bind fun a => (readBits 4 32).bind fun m => (readBits 4 32).map fun v => .modifyReg a m v)
  | 0x04 => some ((readBits 4 32).bind fun off => (readBits 4 32).map fun n => .readBytes off n)
  | 0x05 => some ((readBits 4 32).bind fun off => readSeq.map fun data => .writeBytes off data)
  | 0x06 => some ((readBits 1 8).map .requestToTransmit)
  | 0x07 => some (.pure .readStatus)
  | 0x10 => some ((readBits 1 4).map .dlcToLen)
  | 0x11 => some ((readBits 4 32).map .lenToDlc)
  | 0x12 => some (readId.bind fun id => readSeq.bind fun data => readSeqNo.map fun seq => .frameNew id data seq)
  | 0x13 => some (readFrame.map .encode)
  | 0x14 => some (readHeader.bind fun h => readSeq.map fun payload => .decode h payload)
  | 0x15 => some (readHeader.map .hdrToBytes)
  | 0x16 => some ((readRaw hdrBytes).map .bytesToHdr)
  | 0x20 => some ((readBits 1 8).map .fifoAddr)
  | 0x21 => some ((readBits 1 8).map .filterAddr)
  | 0x22 => some ((readBits 4 32).map .arbitrate)
  | 0x23 => some ((readBits 4 32).map .scan)
  | 0x30 => some ((readBits 1 8).bind fun i => readFrame.map fun f => .transmit i f)
  | 0x31 => some (.pure .receive)
  | 0x32 => some (.pure .receiveWait)
  | 0x40 => some ((readBits 1 8).bind fun i => readFifoSpec.map fun spec => .configureFifo i spec)
  | 0x41 => some ((readBits 1 8).bind fun n => readFilterSpec.bind fun f => readMaskSpec.map fun m => .configureFilter n f m)
  | _ => none

/-- The operation a command-port request asks for. The record ends where the operation's operands end; the port's
bytes after it are not looked at (log entry 1). -/
def decodeHost (bytes : List Byte) : Except DecodeError Instr :=
  match bytes with
  | [] => .error .empty
  | opc :: record =>
    match operandReader opc with
    | none => .error (.reservedOpc opc)
    | some r =>
      match r record with
      | .ok (i, _) => .ok i
      | .error e => .error e

/-! ### Wire frames (R80 to R88) -/

/-- The wire command a framed transaction carries. The frame's end is the release of chip-select (R85). -/
def decodeWire (frame : List Byte) : Except DecodeError Instr :=
  match frame with
  | [] => .error .empty
  | b0 :: rest =>
    if wireNibble b0 = opReset then
      if b0 = resetByte then (if rest = [] then .ok .wReset else .error .frameLength) else .error (.unassigned b0)
    else if wireNibble b0 = opRead then
      match rest with
      | [] => .error .frameLength
      | b1 :: tail =>
        if burstLengthOk tail.length then
          if tail.all (· == placeholderByte) then .ok (.wRead (wireAddress b0 b1) tail.length) else .error .placeholder
        else .error .frameLength
    else if wireNibble b0 = opWrite then
      match rest with
      | [] => .error .frameLength
      | b1 :: tail => if burstLengthOk tail.length then .ok (.wWrite (wireAddress b0 b1) tail) else .error .frameLength
    else if wireNibble b0 = opWriteCrc then
      match rest with
      | [] => .error .frameLength
      | b1 :: tail => .ok (.wWriteCrc (wireAddress b0 b1) tail)
    else if wireNibble b0 = opReadCrc then
      match rest with
      | [] => .error .frameLength
      | b1 :: tail => .ok (.wReadCrc (wireAddress b0 b1) tail)
    else if wireNibble b0 = opWriteSafe then
      match rest with
      | [] => .error .frameLength
      | b1 :: tail => .ok (.wWriteSafe (wireAddress b0 b1) tail)
    else .error (.unassigned b0)

/-- Total on any request; rejects by name. -/
def decode : Request → Except DecodeError Instr
  | .host bytes => decodeHost bytes
  | .wire frame => decodeWire frame

/-! ### The encoder -/

/-- The request that asks for an instruction. -/
def encode : Instr → Request
  | .wReset => .wire [resetByte]
  | .wRead a n => .wire (wireCommand opRead a ++ List.replicate n placeholderByte)
  | .wWrite a data => .wire (wireCommand opWrite a ++ data)
  | .wWriteCrc a rest => .wire (wireCommand opWriteCrc a ++ rest)
  | .wReadCrc a rest => .wire (wireCommand opReadCrc a ++ rest)
  | .wWriteSafe a rest => .wire (wireCommand opWriteSafe a ++ rest)
  | .reset => .host [0x00]
  | .readReg a => .host (0x01 :: bitsBytes 2 a)
  | .writeReg a v => .host (0x02 :: (bitsBytes 2 a ++ bitsBytes 4 v))
  | .modifyReg a m v => .host (0x03 :: (bitsBytes 2 a ++ (bitsBytes 4 m ++ bitsBytes 4 v)))
  | .readBytes off n => .host (0x04 :: (bitsBytes 4 off ++ bitsBytes 4 n))
  | .writeBytes off data => .host (0x05 :: (bitsBytes 4 off ++ seqBytes data))
  | .requestToTransmit q => .host (0x06 :: bitsBytes 1 q)
  | .readStatus => .host [0x07]
  | .dlcToLen c => .host (0x10 :: bitsBytes 1 c)
  | .lenToDlc len => .host (0x11 :: bitsBytes 4 len)
  | .frameNew id data seq => .host (0x12 :: (idBytes id ++ (seqBytes data ++ seqNoBytes seq)))
  | .encode f => .host (0x13 :: frameBytes f)
  | .decode h payload => .host (0x14 :: (headerBytes h ++ seqBytes payload))
  | .hdrToBytes h => .host (0x15 :: headerBytes h)
  | .bytesToHdr b => .host (0x16 :: b)
  | .fifoAddr i => .host (0x20 :: bitsBytes 1 i)
  | .filterAddr n => .host (0x21 :: bitsBytes 1 n)
  | .arbitrate w => .host (0x22 :: bitsBytes 4 w)
  | .scan w => .host (0x23 :: bitsBytes 4 w)
  | .transmit i f => .host (0x30 :: (bitsBytes 1 i ++ frameBytes f))
  | .receive => .host [0x31]
  | .receiveWait => .host [0x32]
  | .configureFifo i spec => .host (0x40 :: (bitsBytes 1 i ++ fifoSpecBytes spec))
  | .configureFilter n f m => .host (0x41 :: (bitsBytes 1 n ++ (filterSpecBytes f ++ maskSpecBytes m)))

/-! ### The opcode table's words -/

/-- More zero bytes than the longest operand record with empty byte sequences has. -/
def recordWindow : Nat := 96

/-- The request whose bits are the table's word `w`: a row of up to 8 bits is a host code with a record of zeros after
it; a longer row is a wire command, whose 16-bit word is sent high byte first (R84), with four zero bytes after it.
The rows W-RESET and RESET have the same word; it is read as the host code (log entry 2). -/
def tableRequest (nbits w : Nat) : Request :=
  if nbits ≤ 8 then .host (BitVec.ofNat 8 w :: zeros recordWindow)
  else .wire (BitVec.ofNat 8 (w / 256) :: BitVec.ofNat 8 w :: zeros 4)

def decodeTableWord (nbits w : Nat) : Option Instr :=
  match decode (tableRequest nbits w) with
  | .ok i => some i
  | .error _ => none

end Sys2Proof
end

