-- ==== Sys2Proof/Machine/State.lean ====
section
/-! DEFINITION. The state of the block and of its environment as plain data, the result type of R240, the reasons a
step can stop, and the state at reset. -/

namespace Sys2Proof.Machine

/-! ### Results (R240) -/

/-- R183: what ARBITRATE finds in the interrupt status. -/
inductive Arbitration | busError | rxPending | idle
deriving DecidableEq, Repr

/-- The payload of `Ok`, per operation (R100). -/
inductive Value
  | unit
  | word (v : Word)
  | bytes (bs : List Byte)
  | count (n : Nat)
  | dlc (c : BitVec 4)
  | frame (f : Frame)
  | encoded (h : Header) (payload : List Byte)
  | header (h : Header)
  | fifoAddrs (con sta ua : Addr)
  | filterAddrs (obj mask fltcon : Addr) (shift : Nat)
  | arbitration (a : Arbitration)
  | scan (i : Option Nat)
deriving DecidableEq, Repr

/-- R242: the kinds of contract violation. -/
inductive Contract
  | regAddr | notModifiable | ramLength | ramAlign | ramRange | fifoIndex | filterIndex | payloadShort | fieldRange
deriving DecidableEq, Repr

/-- R246: what is unsupported. -/
inductive Missing | requestToTransmit | readStatus | variant | reservedOpc
deriving DecidableEq, Repr

/-- R240. A transport error is an opaque token of the environment, carried unchanged (R241). -/
inductive Result
  | ok (v : Value)
  | fifoFull
  | nothingPending
  | cancelled
  | transport (e : Nat)
  | contractViolation (k : Contract)
  | frameTooLong (len : Nat)
  | controllerBusError
  | unsupportedBitRate
  | unsupported (what : Missing)
deriving DecidableEq, Repr

/-! ### The serial link and its environment -/

/-- R22. -/
inductive ChipSelect | released | asserted
deriving DecidableEq, Repr

/-- One chip-select-framed transaction as the link showed it (R101): bytes sent, bytes captured, and whether it ran
to its end; a transaction cut short by a transport failure is not `whole` (R122, R252). -/
structure Txn where
  mosi  : List Byte
  miso  : List Byte
  whole : Bool
deriving DecidableEq, Repr

/-- The transaction in progress. `landed` is `some k` once a primitive failed: the environment lets the chip act on
the first `k` data bytes only (93_implementation_defined.md U2, log entry 7). -/
structure OpenTxn where
  mosi   : List Byte
  miso   : List Byte
  landed : Option Nat
deriving DecidableEq, Repr

/-- A transport failure (R122): the error token, how many bytes of the failing primitive crossed the link, and how
many data bytes of the transaction the chip acted on (U2; log entry 7). -/
structure Failure where
  err    : Nat
  sent   : Nat
  landed : Nat
deriving DecidableEq, Repr

/-- Who answers reads: the unconstrained oracle of R62, or SimChip of 95_test_vectors.md section 0. -/
inductive ChipSide | oracle | simChip
deriving DecidableEq, Repr

/-- 00_scope.md R4 item 3: the chip's operating modes, by name only. -/
inductive ChipMode
  | configuration | normal | sleep | listenOnly | internalLoopback | externalLoopback | restricted | classic
deriving DecidableEq, Repr

/-- What the environment does between the block's turns (log entry 9). -/
inductive Event
  /-- The block takes its turn. -/
  | turn
  /-- The chip drives the interrupt line (R27). -/
  | irq (l : IrqLevel)
  /-- The host raises Cancel (R207). -/
  | cancel
  /-- The interrupt-line wait fails with a transport error (R241; log entry 19). -/
  | waitFails (e : Nat)
  /-- The chip changes one byte of its own state (95_test_vectors.md section 0). -/
  | poke (a : Addr) (b : Byte)
deriving DecidableEq, Repr

/-- A list of (address, byte) pairs in canonical form (`Memory.wf`). -/
abbrev Memory := List Host.Cell

/-- R23: the operation in progress. `waiting` is Running(RECEIVE_WAIT, .., waiting) of R206, with the number of
transactions done and whether the line has fallen since the wait began. -/
inductive Run
  | idle
  | running (op : Instr) (txns : Nat) (scratch : List Byte)
  | waiting (txns : Nat) (fell : Bool)
deriving DecidableEq, Repr

structure State where
  /-- CAP, SCHEMA, IRQ_WAIT: fixed at construction (R25). -/
  cfg       : Config
  /-- R22. -/
  cs        : ChipSelect
  /-- R23. -/
  run       : Run
  /-- The transaction in progress (R23, R80). -/
  wire      : Option OpenTxn
  /-- R27. -/
  irq       : IrqLevel
  /-- The operations the host has waiting (R21). -/
  requests  : List Request
  /-- Coming events of the environment. -/
  events    : List Event
  /-- Outcomes of the coming transport primitives, `none` for success (R120, R122). -/
  transport : List (Option Failure)
  chip      : ChipSide
  /-- Bytes the oracle supplies next (R62). -/
  answers   : List Byte
  /-- Counter of the free oracle bytes (log entry 4). -/
  freeIdx   : Nat
  /-- The chip address space as written over the link (R50; log entry 5). -/
  mem       : Memory
  /-- The chip's operating mode where the block's own transactions fix it (R281; log entry 16). -/
  chipMode  : Option ChipMode
  /-- Every transaction since reset, oldest first. -/
  link      : List Txn
  /-- The result of the last operation; none while one runs (R240). -/
  result    : Option Result
deriving DecidableEq, Repr

/-! ### Reasons to stop -/

/-- The spec names no condition that stops the block (R24, R253). -/
inductive Fault
  /-- Raised by `step` alone, when the state says an operation is between two of its own transactions. Operations are
  atomic steps in this model (R23), so no step leaves such a state (safe, log entry 22). -/
  | midOperation
deriving DecidableEq, Repr

inductive Refusal
  /-- Raised by an arm of `exec` whose instruction has no meaning yet (safe). -/
  | notModelled (mnemonic : String)
  /-- Raised by W-WRITE-CRC, W-READ-CRC and W-WRITE-SAFE: reserved, never emitted (R86, U4; safe, log entry 15). -/
  | reservedWireCommand (nibble : BitVec 4)
  /-- Raised by `step` on a request that is no instruction, other than a reserved host code (safe, log entry 13). -/
  | undecodable (e : DecodeError)
deriving DecidableEq, Repr

/-! ### Reset (R280) -/

/-- The block at construction: chip-select released, no operation, nothing sent; the environment has listed nothing.
The line's level is a free value (R283). -/
def State.reset : State where
  cfg       := Config.default
  cs        := .released
  run       := .idle
  wire      := none
  irq       := Config.irqAtReset
  requests  := []
  events    := []
  transport := []
  chip      := .oracle
  answers   := []
  freeIdx   := 0
  mem       := []
  chipMode  := none
  link      := []
  result    := none

end Sys2Proof.Machine
end

