-- ==== Sys2Proof/Machine/Operands.lean ====
section
/-! DEFINITION. Every operand form: bit fields and little-endian words (R10, R55), the DLC table and its encoder
(R151, R152), identifier split (R154, R226), frames and headers (R90 to R96, R153 to R157), the FIFO and filter
address formulas (R180, R182), and the control words of the configuration operations (R221 to R226). -/

namespace Sys2Proof.Machine

/-! ### Bit fields and words (R10, R55) -/

/-- R10 `put(LSB, W, v)`. -/
def put (lsb : Nat) {w : Nat} (v : BitVec w) : Word := v.setWidth 32 <<< lsb

/-- One bit placed at a position: `b << LSB`. -/
def putBit (lsb : Nat) (b : Bool) : Word := put lsb (BitVec.ofBool b)

/-- R10 `field(w, LSB, W)`. -/
def field (x : Word) (lsb w : Nat) : BitVec w := x.extractLsb' lsb w

/-- R10 `w[i]` as a truth value. -/
def bitSet (x : Word) (i : Nat) : Bool := x.getLsbD i

/-- R55 `BYTES32`. -/
def bytes32 (x : Word) : List Byte :=
  [x.extractLsb' 0 8, x.extractLsb' 8 8, x.extractLsb' 16 8, x.extractLsb' 24 8]

/-- R55 `LE32([b0, b1, b2, b3]) = b3 || b2 || b1 || b0`. -/
def le32 (b : List Byte) : Word := b.getD 3 0 ++ b.getD 2 0 ++ b.getD 1 0 ++ b.getD 0 0

/-- R10 `pad4`: round up to a multiple of 4. -/
def pad4 (n : Nat) : Nat := ((n + 3) >>> 2) <<< 2

/-- R127: `new = (old & ~mask) | (value & mask)`. -/
def maskedUpdate (old mask value : Word) : Word := (old &&& ~~~mask) ||| (value &&& mask)

/-! ### DLC (R95, R151, R152) -/

/-- R151 `bytes(c)`. -/
def dlcBytes (c : BitVec 4) : Nat :=
  if c.toNat ≤ 8 then c.toNat else [12, 16, 20, 24, 32, 48, 64].getD (c.toNat - 9) 0

/-- The sixteen codes, ascending. -/
def dlcCodes : List (BitVec 4) := (List.range 16).map (BitVec.ofNat 4)

/-- R152: the least code whose byte count reaches `len`; none when `len > 64`. -/
def lenToDlc (len : Nat) : Option (BitVec 4) :=
  if len > maxPayload then none else dlcCodes.find? fun c => len ≤ dlcBytes c

/-! ### Identifiers (R154, R226) -/

/-- The standard part, the extended part and the kind of an identifier: low 11 bits and high 18 bits. -/
structure IdParts where
  sid  : BitVec 11
  eid  : BitVec 18
  kind : Bool
deriving DecidableEq, Repr

/-- R226 `split(id)`, the same split as ENCODE's (R154). -/
def splitId : Id → IdParts
  | .std s => { sid := s, eid := 0, kind := false }
  | .ext x => { sid := x.extractLsb' 0 11, eid := x.extractLsb' 11 18, kind := true }

/-- R155: the identifier of a received header is standard exactly when the extended part is zero. -/
def joinId (sid : BitVec 11) (eid : BitVec 18) : Id :=
  if eid = 0 then .std sid else .ext (sid.setWidth 29 ||| (eid.setWidth 29 <<< 11))

/-! ### Frames (R150, R153 to R155) -/

/-- The meaningful part of a frame's buffer (R150). -/
def meaningful (f : Frame) : List Byte := f.data.take (dlcBytes f.dlc)

/-- R150: equality of frames leaves out the sequence number and the rest of the buffer. -/
def sameFrame (f g : Frame) : Bool := f.id == g.id && f.dlc == g.dlc && meaningful f == meaningful g

/-- R153 FRAME_NEW; none when the data exceed 64 bytes. -/
def buildFrame (id : Id) (data : List Byte) (seq : Option (BitVec 23)) : Option Frame :=
  (lenToDlc data.length).map fun c => { id, dlc := c, data := data ++ zeros (maxPayload - data.length), seq }

/-- R154 ENCODE. -/
def encodeFrame (f : Frame) : Header × List Byte :=
  let p := splitId f.id
  let fd := decide (dlcBytes f.dlc > 8)
  ({ sid := p.sid, eid := p.eid, dlc := f.dlc, ide := p.kind, rtr := false, brs := fd, fdf := fd, esi := false,
     tail := f.seq.getD 0 }, meaningful f)

/-- R155 DECODE; none when the payload is shorter than the DLC asks (`PayloadShort`). -/
def decodeFrame (h : Header) (payload : List Byte) : Option Frame :=
  let n := dlcBytes h.dlc
  if payload.length < n then none
  else some { id := joinId h.sid h.eid, dlc := h.dlc, data := payload.take n ++ zeros (maxPayload - n), seq := none }

/-! ### The message-object header (R91 to R94, R156, R157) -/

/-- R91: word 0, transmit and receive alike. -/
def headerWord0 (s : Schema) (h : Header) : Word := put s.objSidLsb h.sid ||| put s.objEidLsb h.eid

/-- R92: word 1 of a transmit header. -/
def headerWord1 (s : Schema) (h : Header) : Word :=
  put s.hdrDlcLsb h.dlc ||| putBit s.hdrIdeBit h.ide ||| putBit s.hdrRtrBit h.rtr ||| putBit s.hdrBrsBit h.brs
    ||| putBit s.hdrFdfBit h.fdf ||| putBit s.hdrEsiBit h.esi ||| put s.hdrSeqLsb h.tail

/-- R156 HDR_TO_BYTES: word 0 at the lower address (R94). -/
def headerToBytes (s : Schema) (h : Header) : List Byte := bytes32 (headerWord0 s h) ++ bytes32 (headerWord1 s h)

/-- R157 BYTES_TO_HDR on the 8 bytes `b`. -/
def bytesToHeader (s : Schema) (b : List Byte) : Header :=
  let word0 := le32 (b.take 4)
  let word1 := le32 ((b.drop 4).take 4)
  { sid := field word0 s.objSidLsb 11, eid := field word0 s.objEidLsb 18, dlc := field word1 s.hdrDlcLsb 4,
    ide := bitSet word1 s.hdrIdeBit, rtr := bitSet word1 s.hdrRtrBit, brs := bitSet word1 s.hdrBrsBit,
    fdf := bitSet word1 s.hdrFdfBit, esi := bitSet word1 s.hdrEsiBit, tail := field word1 s.hdrSeqLsb 23 }

/-- R93, R157: the filter-hit index a received header carries inside `tail`. -/
def filterHit (s : Schema) (h : Header) : BitVec 5 := h.tail.extractLsb' (s.hdrFilhitLsb - s.hdrSeqLsb) 5

/-- R94, R201: the object TRANSMIT writes: header, payload, zero bytes up to a multiple of 4. -/
def messageObject (s : Schema) (f : Frame) : List Byte :=
  let (h, p) := encodeFrame f
  headerToBytes s h ++ p ++ zeros (pad4 p.length - p.length)

/-! ### The address decoder (R180, R182) -/

structure FifoRegs where
  con : Addr
  sta : Addr
  ua  : Addr
deriving DecidableEq, Repr

/-- R180 FIFO_ADDR; none for an index outside 1..31. -/
def fifoRegs (i : Nat) : Option FifoRegs :=
  if i < 1 ∨ i > nFifo then none
  else
    let b := BitVec.ofNat 12 (fifoBase + i * fifoStride)
    some { con := b, sta := b + 4, ua := b + 8 }

structure FilterRegs where
  obj    : Addr
  mask   : Addr
  fltcon : Addr
  shift  : Nat
deriving DecidableEq, Repr

/-- R182 FILTER_ADDR; none for an index outside 0..31. -/
def filterRegs (s : Schema) (n : Nat) : Option FilterRegs :=
  if n ≥ nFilter then none
  else
    some { obj := BitVec.ofNat 12 (fltObjBase + n * filterStride)
           mask := BitVec.ofNat 12 (maskBase + n * filterStride)
           fltcon := BitVec.ofNat 12 (s.addrFltconBase.toNat + 4 * (n / s.fltconSlotsPerReg))
           shift := s.fltconSlotBits * (n % s.fltconSlotsPerReg) }

/-! ### Configuration words (R221 to R226) -/

/-- R222: the eight payload-size classes, in code order. -/
def payloadSizes : List Nat := [8, 12, 16, 20, 24, 32, 48, 64]

/-- R222 `plcode`: the rank of the size in the list. -/
def plcode (size : Nat) : BitVec 3 := BitVec.ofNat 3 (payloadSizes.idxOf size)

/-- R223 `txat`. -/
def txat (s : Schema) : Retransmit → BitVec 2
  | .disabled => BitVec.ofNat 2 s.txatDisabled
  | .three => BitVec.ofNat 2 s.txatThree
  | .unlimited => BitVec.ofNat 2 s.txatUnlimited

def specDepth : FifoSpec → Nat
  | .tx depth _ _ _ => depth.toNat
  | .rx depth _ _ => depth.toNat

def specPayloadSize : FifoSpec → Nat
  | .tx _ size _ _ => size.toNat
  | .rx _ size _ => size.toNat

/-- R220, R221: depth 1..32, one of the eight payload sizes, and for a transmit FIFO priority at most 31. -/
def specInRange (spec : FifoSpec) : Bool :=
  decide (depthMin ≤ specDepth spec) && decide (specDepth spec ≤ depthMax)
    && payloadSizes.contains (specPayloadSize spec)
    && match spec with
       | .tx _ _ priority _ => decide (priority.toNat ≤ priMax)
       | .rx _ _ _ => true

/-- R221: the word CONFIGURE_FIFO writes; every bit not named is 0. -/
def fifoControlWord (s : Schema) (spec : FifoSpec) : Word :=
  put s.conFsizeLsb (BitVec.ofNat 5 (specDepth spec - 1)) ||| put s.conPlsizeLsb (plcode (specPayloadSize spec))
    ||| putBit s.conFresetBit true
    ||| match spec with
        | .tx _ _ priority r =>
          putBit s.conTxenBit true ||| put s.conTxpriLsb (priority.setWidth 5) ||| put s.conTxatLsb (txat s r)
        | .rx _ _ timestamps => putBit s.conNotEmptyIeBit true ||| putBit s.conRxtsBit timestamps

/-- R96, R226: an identifier pattern with a kind bit. -/
def objectWord (s : Schema) (id : Id) (kind : Bool) : Word :=
  put s.objSidLsb (splitId id).sid ||| put s.objEidLsb (splitId id).eid ||| putBit s.fltExideBit kind

/-- R225 `wobj`. -/
def filterObjectWord (s : Schema) (f : FilterSpec) : Word := objectWord s f.id (splitId f.id).kind

/-- R225 `wmsk`. -/
def filterMaskWord (s : Schema) (m : MaskSpec) : Word := objectWord s m.bits m.matchKind

/-- R225 `slot`: enable, and the index of the target FIFO. -/
def filterSlot (s : Schema) (fifo : Byte) : Word :=
  putBit s.fltconEnBit true ||| put s.fltconBpLsb (fifo.setWidth 5)

/-- R225 `smask`: every bit of one slot. -/
def slotMask (s : Schema) (shift : Nat) : Word := BitVec.ofNat 32 (2 ^ s.fltconSlotBits - 1) <<< shift

end Sys2Proof.Machine
end

