-- ==== Sys2Proof/Machine/Flags.lean ====
section
/-! DEFINITION. The block has no flag register of its own (R28): the flags it acts on are bits of chip registers, read
fresh. This file gives each flag's reading, the arbiter and the queue scan made of them (R183, R184), and the masks
with which the block writes the command bits of FIFOCON and clears the bus-error flag. -/

namespace Sys2Proof.Machine

/-! ### Flags the block reads (R28) -/

/-- Bus error, `ADDR_INT` bit `INT_BUSERR_BIT`. -/
def busErrorFlag (s : Schema) (intStatus : Word) : Bool := bitSet intStatus s.intBusErrBit

/-- Aggregate receive, `ADDR_INT` bit `INT_RX_BIT`. -/
def receiveFlag (s : Schema) (intStatus : Word) : Bool := bitSet intStatus s.intRxBit

/-- Per-FIFO receive, `ADDR_RXIF` bit i, i in 1..31 (R30: bit 0 belongs to no FIFO). -/
def fifoFlag (bitmap : Word) (i : Nat) : Bool := bitSet bitmap i

/-- Not full, `FIFOSTA(i)` bit `STA_NOTFULL_BIT` (R32). -/
def notFullFlag (s : Schema) (status : Word) : Bool := bitSet status s.staNotFullBit

/-! ### The arbiter and the scan -/

/-- R183 ARBITRATE: a bus error takes priority, then the aggregate receive flag. -/
def arbitrate (s : Schema) (intStatus : Word) : Arbitration :=
  if busErrorFlag s intStatus then .busError
  else if receiveFlag s intStatus then .rxPending
  else .idle

/-- The FIFO indices in scan order: 1 first (R184). -/
def scanOrder : List Nat := (List.range nFifo).map (· + 1)

/-- R184 SCAN: the first index in ascending order whose bit is set. -/
def scan (bitmap : Word) : Option Nat := scanOrder.find? (fifoFlag bitmap)

/-! ### Bits the block writes -/

/-- R202: the mask of the bus-error flag, cleared by writing 0 under it. -/
def busErrorMask (s : Schema) : Word := putBit s.intBusErrBit true

/-- R202: the increment bit of FIFOCON. -/
def incrementMask (s : Schema) : Word := putBit s.conUincBit true

/-- R200: the increment and request-send bits of FIFOCON, written together. -/
def sendMask (s : Schema) : Word := putBit s.conUincBit true ||| putBit s.conTxreqBit true

end Sys2Proof.Machine
end

