-- ==== Sys2Proof/Machine/Ops.lean ====
section
/-! DEFINITION. The shared operations: chip memory, the transport primitives and chip-select framing (R80, R120 to
R122), the register and RAM accesses built on them (R125 to R129), and how an operation begins, ends with a value or
ends with an error (R12, R23, R24, R240, R253). -/

namespace Sys2Proof.Machine

/-! ### Chip memory (R50, R54) -/

/-- What an address nothing was stored at reads as (SimChip's start value, 95_test_vectors.md section 0). -/
def Memory.unlisted : Byte := 0x00

/-- Strictly rising addresses from `lo` on, all inside the chip address space, no byte equal to the unlisted one. -/
def Memory.wfFrom (lo : Nat) : Memory → Bool
  | [] => true
  | (a, b) :: m => decide (lo ≤ a) && decide (a < chipSpace) && b != Memory.unlisted && Memory.wfFrom (a + 1) m

/-- The canonical form. -/
def Memory.wf (m : Memory) : Bool := Memory.wfFrom 0 m

def Memory.read (m : Memory) (a : Nat) : Byte :=
  match m with
  | [] => Memory.unlisted
  | (a', b) :: m => if a = a' then b else Memory.read m a

/-- Store one byte, keeping the canonical form. -/
def Memory.write (m : Memory) (a : Nat) (b : Byte) : Memory :=
  match m with
  | [] => if b = Memory.unlisted then [] else [(a, b)]
  | (a', b') :: m =>
    if a < a' then (if b = Memory.unlisted then (a', b') :: m else (a, b) :: (a', b') :: m)
    else if a = a' then (if b = Memory.unlisted then m else (a, b) :: m)
    else (a', b') :: Memory.write m a b

/-- R54: byte k at `a + k`. -/
def Memory.writeBytes (m : Memory) (a : Nat) : List Byte → Memory
  | [] => m
  | b :: bs => Memory.writeBytes (Memory.write m a b) (a + 1) bs

/-- R54: the bytes at `a .. a + n - 1`. -/
def Memory.readBytes (m : Memory) (a n : Nat) : List Byte := (List.range n).map fun k => Memory.read m (a + k)

/-! ### Operations as functions of the state (R12) -/

/-- A piece of an operation: it ends with a value, or it ends the whole operation with a result. -/
abbrev Op (α : Type) := State → Except Result α × State

def Op.pure {α : Type} (a : α) : Op α := fun s => (.ok a, s)

/-- R12: a result other than `Ok` ends the enclosing operation with that same result. -/
def Op.bind {α β : Type} (m : Op α) (k : α → Op β) : Op β := fun s =>
  match m s with
  | (.ok a, t) => k a t
  | (.error r, t) => (.error r, t)

def Op.map {α β : Type} (f : α → β) (m : Op α) : Op β := m.bind fun a => .pure (f a)

/-- R11 `raise`, and `return` of a result other than `Ok`: the operation ends at once. -/
def endWith {α : Type} (r : Result) : Op α := fun s => (.error r, s)

/-- A check that raises `r` when it does not hold. -/
def require (holds : Bool) (r : Result) : Op Unit := if holds then .pure () else endWith r

def violation {α : Type} (k : Contract) : Op α := endWith (.contractViolation k)

/-- The value of an option, or the result its absence stands for. -/
def orEnd {α : Type} (r : Result) : Option α → Op α
  | some a => .pure a
  | none => endWith r

/-- A piece that depends on the configuration. -/
def withConfig {α : Type} (f : Config → Op α) : Op α := fun s => f s.cfg s

/-! ### What the chip makes of a transaction (R84, 95_test_vectors.md section 0) -/

/-- The chip address the bytes sent so far carry. -/
def openAddress : List Byte → Nat
  | b0 :: b1 :: _ => (wireAddress b0 b1).toNat
  | _ => 0

/-- SimChip: a Write transaction stores its data bytes; `landed` cuts them off after a failure (U2). -/
def chipMemory (mosi : List Byte) (landed : Option Nat) (m : Memory) : Memory :=
  match mosi with
  | b0 :: b1 :: data =>
    if wireNibble b0 = opWrite then
      Memory.writeBytes m (wireAddress b0 b1).toNat (match landed with | none => data | some k => data.take k)
    else m
  | _ => m

/-- R281: the reset byte forces Configuration mode. A Write may request a mode, so it leaves the mode unspecified, and
so does a transaction that failed (log entry 16). -/
def chipModeAfter (mosi : List Byte) (whole : Bool) (mode : Option ChipMode) : Option ChipMode :=
  if whole then
    match mosi with
    | [b0] => if b0 = resetByte then some .configuration else mode
    | b0 :: _ => if wireNibble b0 = opWrite then none else mode
    | [] => mode
  else none

/-- R62: the `n` bytes the chip answers for address `a` on. -/
def captured (s : State) (a n : Nat) : List Byte :=
  match s.chip with
  | .oracle => s.answers.take n ++ (List.range (n - s.answers.length)).map fun k => Config.oracleByte (s.freeIdx + k)
  | .simChip => Memory.readBytes s.mem a n

/-- The oracle after it has supplied `n` bytes. -/
def afterCapture (n : Nat) (s : State) : State :=
  match s.chip with
  | .oracle => { s with answers := s.answers.drop n, freeIdx := s.freeIdx + (n - s.answers.length) }
  | .simChip => s

/-! ### Transport primitives (R120) -/

/-- The outcome the transport has for the coming primitive; an unlisted outcome is success (log entry 6). -/
def outcome (s : State) : Option Failure := s.transport.headD none

/-- One primitive has been tried. -/
def afterOutcome (s : State) : State := { s with transport := s.transport.tail }

/-- Bytes cross the link inside the transaction in progress. -/
def sendBytes (bs : List Byte) (s : State) : State :=
  { s with wire := s.wire.map fun w => { w with mosi := w.mosi ++ bs } }

/-- The transaction in progress failed; the chip acts on `k` of its data bytes (U2). -/
def markLanded (k : Nat) (s : State) : State :=
  { s with wire := s.wire.map fun w => { w with landed := some k } }

/-- R23: one more transaction is done. -/
def countTxn : Run → Run
  | .idle => .idle
  | .running op txns scratch => .running op (txns + 1) scratch
  | .waiting txns fell => .waiting txns fell

/-- R23: bytes read from the chip join the scratch values. -/
def keepScratch (bs : List Byte) : Run → Run
  | .idle => .idle
  | .running op txns scratch => .running op txns (scratch ++ bs)
  | .waiting txns fell => .waiting txns fell

/-- `CsAssert()`. When it fails, chip-select stays released (log entry 8). -/
def csAssert : Op Unit := fun s =>
  match outcome s with
  | none => (.ok (), { afterOutcome s with cs := .asserted, wire := some { mosi := [], miso := [], landed := none } })
  | some f => (.error (.transport f.err), afterOutcome s)

/-- `SpiWrite(bytes)`: the received bytes are discarded. -/
def spiWrite (bs : List Byte) : Op Unit := fun s =>
  match outcome s with
  | none => (.ok (), sendBytes bs (afterOutcome s))
  | some f => (.error (.transport f.err), markLanded f.landed (sendBytes (bs.take f.sent) (afterOutcome s)))

/-- `SpiTransfer(n)`: sends `n` placeholders and captures the bytes received meanwhile (R82). -/
def spiTransfer (n : Nat) : Op (List Byte) := fun s =>
  match outcome s with
  | none =>
    let r := captured s (openAddress (s.wire.elim [] (·.mosi))) n
    let t := sendBytes (List.replicate n placeholderByte) (afterCapture n (afterOutcome s))
    (.ok r, { t with wire := t.wire.map fun w => { w with miso := w.miso ++ r }, run := keepScratch r t.run })
  | some f =>
    (.error (.transport f.err), markLanded f.landed
      (sendBytes ((List.replicate n placeholderByte).take f.sent) (afterOutcome s)))

/-- Chip-select goes to released and the transaction joins the link's record; the chip has it. -/
def closeTxn (whole : Bool) (s : State) : State :=
  match s.wire with
  | none => { s with cs := .released }
  | some w =>
    { s with cs := .released, wire := none, link := s.link ++ [{ mosi := w.mosi, miso := w.miso, whole := whole }]
             run := countTxn s.run, mem := chipMemory w.mosi w.landed s.mem
             chipMode := chipModeAfter w.mosi whole s.chipMode }

/-- `CsRelease()`. -/
def csRelease : Op Unit := fun s =>
  match outcome s with
  | none => (.ok (), closeTxn true (afterOutcome s))
  | some f => (.error (.transport f.err), markLanded f.landed (afterOutcome s))

/-- R122: after a failure chip-select is released if it is asserted, a failure of that release being ignored. -/
def releaseAfterFailure (s : State) : State :=
  match s.cs with
  | .released => s
  | .asserted => closeTxn false (afterOutcome s)

/-- One chip-select-framed transaction around `body` (R80, R122). -/
def framed {α : Type} (body : Op α) : Op α := fun s =>
  match (csAssert.bind fun _ => body.bind fun a => csRelease.bind fun _ => .pure a) s with
  | (.ok a, t) => (.ok a, t)
  | (.error r, t) => (.error r, releaseAfterFailure t)

/-! ### The three transactions the block sends (R81 to R83, R88) -/

def busReset : Op Unit := framed (spiWrite [resetByte])

/-- R11 `MemRead(a, n)`. -/
def busRead (a : Addr) (n : Nat) : Op (List Byte) :=
  framed ((spiWrite (wireCommand opRead a)).bind fun _ => spiTransfer n)

/-- R11 `MemWrite(a, n, data)`. -/
def busWrite (a : Addr) (data : List Byte) : Op Unit := framed (spiWrite (wireCommand opWrite a ++ data))

/-! ### Register and RAM accesses (R56, R57, R125 to R129) -/

/-- R56: a register address is a multiple of 4. -/
def regAligned (a : Addr) : Bool := a.toNat % 4 == 0

/-- R125 READ_REG. -/
def readRegister (a : Addr) : Op Word :=
  (require (regAligned a) (.contractViolation .regAddr)).bind fun _ => (busRead a 4).map le32

/-- R126 WRITE_REG. -/
def writeRegister (a : Addr) (v : Word) : Op Unit :=
  (require (regAligned a) (.contractViolation .regAddr)).bind fun _ => busWrite a (bytes32 v)

/-- R127 MODIFY_REG. -/
def modifyRegister (a : Addr) (mask value : Word) : Op Unit :=
  (require (regAligned a) (.contractViolation .regAddr)).bind fun _ =>
    withConfig fun cfg =>
      (require (cfg.cap.modifiable.contains a) (.contractViolation .notModifiable)).bind fun _ =>
        (readRegister a).bind fun old => writeRegister a (maskedUpdate old mask value)

/-- R57, R128: length, then alignment, then range. -/
def ramCheck (off n : Nat) : Op Unit :=
  (require (n % 4 == 0) (.contractViolation .ramLength)).bind fun _ =>
    (require (off % 4 == 0) (.contractViolation .ramAlign)).bind fun _ =>
      require (decide (off + n ≤ ramSize)) (.contractViolation .ramRange)

/-- R53: `RAM_BASE + off`. -/
def ramAddress (off : Nat) : Addr := BitVec.ofNat 12 (ramBase + off)

/-- R128 READ_BYTES: an empty read sends nothing. -/
def readRam (off n : Nat) : Op (List Byte) :=
  (ramCheck off n).bind fun _ => if n = 0 then .pure [] else busRead (ramAddress off) n

/-- R129 WRITE_BYTES. -/
def writeRam (off : Nat) (data : List Byte) : Op Unit :=
  (ramCheck off data.length).bind fun _ => if data.length = 0 then .pure () else busWrite (ramAddress off) data

/-- R88: what the sequencer's port accepts of a raw addressed transaction: a register access, or a RAM burst inside the
window (log entry 14). -/
def rawCheck (a : Addr) (n : Nat) : Op Unit :=
  if n = 4 then require (regAligned a) (.contractViolation .regAddr)
  else
    (require (burstLengthOk n) (.contractViolation .ramLength)).bind fun _ =>
      (require (a.toNat % 4 == 0) (.contractViolation .ramAlign)).bind fun _ =>
        require (decide (ramBase ≤ a.toNat ∧ a.toNat + n ≤ ramBase + ramSize)) (.contractViolation .ramRange)

/-! ### Beginning and ending an operation (R23, R24, R240, R253) -/

/-- R23: the block accepts the operation `i`. -/
def begin (i : Instr) (s : State) : State := { s with run := .running i 0 [], result := none }

/-- R24: the operation ends and its result value is the whole report; scratch values are discarded. -/
def finish (r : Result) (s : State) : State := { s with run := .idle, result := some r }

/-- How an operation's pieces end as a result: the one place where an error takes the place of a value. No state is
saved and control goes nowhere (R11, R253). -/
def conclude : Except Result Value × State → State
  | (.ok v, t) => finish (.ok v) t
  | (.error r, t) => finish r t

/-- R7, R251 (a): `Unsupported(Variant)` before everything. -/
def onVariant {α : Type} (m : Op α) : Op α :=
  withConfig fun cfg => (require cfg.cap.supported (.unsupported .variant)).bind fun _ => m

/-- A non-suspending operation as one step (R23): its outcome is always a next state. -/
def perform (i : Instr) (m : Op Value) (s : State) : State := conclude (onVariant m (begin i s))

/-- R240: an operation whose piece ends with no payload returns `Ok(())`. -/
def unitValue (m : Op Unit) : Op Value := m.map fun _ => .unit

/-! ### Numeric result codes (R250) -/

def Result.code : Result → Byte
  | .ok _ => 0x00
  | .fifoFull => 0x01
  | .nothingPending => 0x02
  | .cancelled => 0x03
  | .transport _ => 0x10
  | .contractViolation .regAddr => 0x20
  | .contractViolation .notModifiable => 0x21
  | .contractViolation .ramLength => 0x22
  | .contractViolation .ramAlign => 0x23
  | .contractViolation .ramRange => 0x24
  | .contractViolation .fifoIndex => 0x25
  | .contractViolation .filterIndex => 0x26
  | .contractViolation .payloadShort => 0x27
  | .contractViolation .fieldRange => 0x28
  | .frameTooLong _ => 0x30
  | .controllerBusError => 0x40
  | .unsupportedBitRate => 0x50
  | .unsupported .requestToTransmit => 0x60
  | .unsupported .readStatus => 0x61
  | .unsupported .variant => 0x62
  | .unsupported .reservedOpc => 0x63

/-- The result port: the code of the last operation's result, none while one runs (R250). -/
def resultCode (s : State) : Option Byte := s.result.map Result.code

end Sys2Proof.Machine
end

