-- ==== Sys2Proof/Machine/Sequencer.lean ====
section
/-! DEFINITION. The meanings of the wire commands (R80 to R88) as single transactions at the sequencer's port, and of
the sequencer's host operations (R124 to R129, R132, R133). -/

namespace Sys2Proof.Machine

/-- What every meaning answers. -/
abbrev Answer := Host.Outcome State Fault Refusal

/-! ### Wire commands -/

/-- W-RESET (R81): one transaction of the byte 0x00. -/
def execWReset (s : State) : Answer := .next (perform .wReset (unitValue busReset) s)

/-- W-READ (R82): one transaction; the captured bytes are the result. -/
def execWRead (a : Addr) (n : Nat) (s : State) : Answer :=
  .next (perform (.wRead a n) ((rawCheck a n).bind fun _ => (busRead a n).map .bytes) s)

/-- W-WRITE (R83): one transaction. -/
def execWWrite (a : Addr) (data : List Byte) (s : State) : Answer :=
  .next (perform (.wWrite a data) ((rawCheck a data.length).bind fun _ => unitValue (busWrite a data)) s)

/-- W-WRITE-CRC (R86): reserved, never emitted. -/
def execWWriteCrc (_a : Addr) (_rest : List Byte) (_s : State) : Answer := .refused (.reservedWireCommand opWriteCrc)

/-- W-READ-CRC (R86): reserved, never emitted. -/
def execWReadCrc (_a : Addr) (_rest : List Byte) (_s : State) : Answer := .refused (.reservedWireCommand opReadCrc)

/-- W-WRITE-SAFE (R86): reserved, never emitted. -/
def execWWriteSafe (_a : Addr) (_rest : List Byte) (_s : State) : Answer := .refused (.reservedWireCommand opWriteSafe)

/-! ### Sequencer operations -/

/-- RESET (R124). -/
def execReset (s : State) : Answer := .next (perform .reset (unitValue busReset) s)

/-- READ_REG (R125). -/
def execReadReg (a : Addr) (s : State) : Answer := .next (perform (.readReg a) ((readRegister a).map .word) s)

/-- WRITE_REG (R126). -/
def execWriteReg (a : Addr) (v : Word) (s : State) : Answer :=
  .next (perform (.writeReg a v) (unitValue (writeRegister a v)) s)

/-- MODIFY_REG (R127). -/
def execModifyReg (a : Addr) (mask value : Word) (s : State) : Answer :=
  .next (perform (.modifyReg a mask value) (unitValue (modifyRegister a mask value)) s)

/-- READ_BYTES (R128). -/
def execReadBytes (off n : Word) (s : State) : Answer :=
  .next (perform (.readBytes off n) ((readRam off.toNat n.toNat).map .bytes) s)

/-- WRITE_BYTES (R129). -/
def execWriteBytes (off : Word) (data : List Byte) (s : State) : Answer :=
  .next (perform (.writeBytes off data) (unitValue (writeRam off.toNat data)) s)

/-- REQUEST_TO_TRANSMIT (R132): no wire form; the operand is not examined. -/
def execRequestToTransmit (q : Byte) (s : State) : Answer :=
  .next (perform (.requestToTransmit q) (endWith (.unsupported .requestToTransmit)) s)

/-- READ_STATUS (R133): no wire form. -/
def execReadStatus (s : State) : Answer := .next (perform .readStatus (endWith (.unsupported .readStatus)) s)

end Sys2Proof.Machine
end

