-- ==== Sys2Proof/Machine/Decoder.lean ====
section
/-! DEFINITION. The meanings of the queue decoder and arbiter operations (R180 to R184): pure functions of their
operands and of the schema. -/

namespace Sys2Proof.Machine

/-- R180 as a piece of an operation (R181: every operation that takes a FIFO index validates it so). -/
def fifoRegsOp (i : Nat) : Op FifoRegs := orEnd (.contractViolation .fifoIndex) (fifoRegs i)

/-- R182 as a piece of an operation. -/
def filterRegsOp (n : Nat) : Op FilterRegs :=
  withConfig fun cfg => orEnd (.contractViolation .filterIndex) (filterRegs cfg.schema n)

/-- FIFO_ADDR (R180). -/
def execFifoAddr (i : Byte) (s : State) : Answer :=
  .next (perform (.fifoAddr i) ((fifoRegsOp i.toNat).map fun r => .fifoAddrs r.con r.sta r.ua) s)

/-- FILTER_ADDR (R182). -/
def execFilterAddr (n : Byte) (s : State) : Answer :=
  .next (perform (.filterAddr n) ((filterRegsOp n.toNat).map fun r => .filterAddrs r.obj r.mask r.fltcon r.shift) s)

/-- ARBITRATE (R183). -/
def execArbitrate (w : Word) (s : State) : Answer :=
  .next (perform (.arbitrate w) (withConfig fun cfg => .pure (.arbitration (arbitrate cfg.schema w))) s)

/-- SCAN (R184). -/
def execScan (w : Word) (s : State) : Answer := .next (perform (.scan w) (.pure (.scan (scan w))) s)

end Sys2Proof.Machine
end

