-- ==== Sys2Proof/Machine/Configuration.lean ====
section
/-! DEFINITION. The meanings of the configuration operations CONFIGURE_FIFO (R221) and CONFIGURE_FILTER (R225). -/

namespace Sys2Proof.Machine

/-- R221. -/
def configureFifoOp (i : Nat) (spec : FifoSpec) : Op Value :=
  (fifoRegsOp i).bind fun regs =>
    (require (specInRange spec) (.contractViolation .fieldRange)).bind fun _ =>
      withConfig fun cfg => unitValue (writeRegister regs.con (fifoControlWord cfg.schema spec))

/-- CONFIGURE_FIFO (R221). -/
def execConfigureFifo (i : Byte) (spec : FifoSpec) (s : State) : Answer :=
  .next (perform (.configureFifo i spec) (configureFifoOp i.toNat spec) s)

/-- R225: patterns first, enable last. -/
def configureFilterOp (n : Nat) (f : FilterSpec) (m : MaskSpec) : Op Value :=
  (filterRegsOp n).bind fun regs =>
    (fifoRegsOp f.fifo.toNat).bind fun _ =>
      withConfig fun cfg =>
        (writeRegister regs.obj (filterObjectWord cfg.schema f)).bind fun _ =>
          (writeRegister regs.mask (filterMaskWord cfg.schema m)).bind fun _ =>
            unitValue (modifyRegister regs.fltcon (slotMask cfg.schema regs.shift)
              (filterSlot cfg.schema f.fifo <<< regs.shift))

/-- CONFIGURE_FILTER (R225). -/
def execConfigureFilter (n : Byte) (f : FilterSpec) (m : MaskSpec) (s : State) : Answer :=
  .next (perform (.configureFilter n f m) (configureFilterOp n.toNat f m) s)

end Sys2Proof.Machine
end

