-- ==== Sys2Proof/Machine/Codec.lean ====
section
/-! DEFINITION. The meanings of the codec operations (R151 to R157): pure functions whose value is the result; they send
nothing and read no chip state. FRAME_NEW and DECODE as pieces of operations are here too. -/

namespace Sys2Proof.Machine

/-- R152 as a piece of an operation. -/
def lenToDlcOp (len : Nat) : Op (BitVec 4) := orEnd (.frameTooLong len) (lenToDlc len)

/-- R153 as a piece of an operation. -/
def frameNewOp (id : Id) (data : List Byte) (seq : Option (BitVec 23)) : Op Frame :=
  orEnd (.frameTooLong data.length) (buildFrame id data seq)

/-- R155 as a piece of an operation. -/
def decodeOp (h : Header) (payload : List Byte) : Op Frame :=
  orEnd (.contractViolation .payloadShort) (decodeFrame h payload)

/-- DLC_TO_LEN (R151). -/
def execDlcToLen (c : BitVec 4) (s : State) : Answer := .next (perform (.dlcToLen c) (.pure (.count (dlcBytes c))) s)

/-- LEN_TO_DLC (R152). -/
def execLenToDlc (len : Word) (s : State) : Answer :=
  .next (perform (.lenToDlc len) ((lenToDlcOp len.toNat).map .dlc) s)

/-- FRAME_NEW (R153). -/
def execFrameNew (id : Id) (data : List Byte) (seq : Option (BitVec 23)) (s : State) : Answer :=
  .next (perform (.frameNew id data seq) ((frameNewOp id data seq).map .frame) s)

/-- ENCODE (R154). -/
def execEncode (f : Frame) (s : State) : Answer :=
  .next (perform (.encode f) (.pure (.encoded (encodeFrame f).1 (encodeFrame f).2)) s)

/-- DECODE (R155). -/
def execDecode (h : Header) (payload : List Byte) (s : State) : Answer :=
  .next (perform (.decode h payload) ((decodeOp h payload).map .frame) s)

/-- HDR_TO_BYTES (R156). -/
def execHdrToBytes (h : Header) (s : State) : Answer :=
  .next (perform (.hdrToBytes h) (withConfig fun cfg => .pure (.bytes (headerToBytes cfg.schema h))) s)

/-- BYTES_TO_HDR (R157). -/
def execBytesToHdr (b : List Byte) (s : State) : Answer :=
  .next (perform (.bytesToHdr b) (withConfig fun cfg => .pure (.header (bytesToHeader cfg.schema b))) s)

end Sys2Proof.Machine
end

