-- ==== Sys2Proof/Machine/Transfer.lean ====
section
/-! DEFINITION. The meanings of the dispatch operations: TRANSMIT (R200), RECEIVE (R202), and RECEIVE_WAIT with its
suspension point, wake-up and cancellation (R205 to R208). -/

namespace Sys2Proof.Machine

/-! ### TRANSMIT -/

/-- R200, the transactions after the FIFO was found not full. -/
def sendFrame (regs : FifoRegs) (f : Frame) : Op Value :=
  withConfig fun cfg =>
    (readRegister regs.ua).bind fun a =>
      (writeRam a.toNat (messageObject cfg.schema f)).bind fun _ =>
        unitValue (modifyRegister regs.con (sendMask cfg.schema) (sendMask cfg.schema))

/-- R200. -/
def transmitOp (i : Nat) (f : Frame) : Op Value :=
  (fifoRegsOp i).bind fun regs =>
    withConfig fun cfg =>
      (readRegister regs.sta).bind fun status =>
        if notFullFlag cfg.schema status then sendFrame regs f else endWith .fifoFull

/-- TRANSMIT (R200). -/
def execTransmit (i : Byte) (f : Frame) (s : State) : Answer :=
  .next (perform (.transmit i f) (transmitOp i.toNat f) s)

/-! ### RECEIVE -/

/-- R202, the payload of a message whose header has been read: the rounded-up count, the excess dropped. -/
def readPayload (cfg : Config) (a : Nat) (h : Header) : Op Frame :=
  (readRam (a + cfg.schema.rxPayloadOffset) (pad4 (dlcBytes h.dlc))).bind fun pb =>
    decodeOp h (pb.take (dlcBytes h.dlc))

/-- R202, serving FIFO i: address, header, payload, then the increment bit. -/
def receiveFrom (i : Nat) : Op Value :=
  (fifoRegsOp i).bind fun regs =>
    withConfig fun cfg =>
      (readRegister regs.ua).bind fun a =>
        (readRam a.toNat hdrBytes).bind fun hb =>
          (readPayload cfg a.toNat (bytesToHeader cfg.schema hb)).bind fun f =>
            (modifyRegister regs.con (incrementMask cfg.schema) (incrementMask cfg.schema)).map fun _ => .frame f

/-- R202, the aggregate receive flag set: scan the bitmap (R203 when no bit 1..31 is set). -/
def scanAndReceive : Op Value :=
  withConfig fun cfg =>
    (readRegister cfg.schema.addrRxif).bind fun bitmap =>
      match scan bitmap with
      | some i => receiveFrom i
      | none => endWith .nothingPending

/-- R202, the bus-error flag set: clear it, then report it (R244). -/
def reportBusError : Op Value :=
  withConfig fun cfg =>
    (modifyRegister cfg.schema.addrInt (busErrorMask cfg.schema) 0).bind fun _ => endWith .controllerBusError

/-- R202: one non-suspending pass. -/
def receiveOp : Op Value :=
  withConfig fun cfg =>
    (readRegister cfg.schema.addrInt).bind fun status =>
      match arbitrate cfg.schema status with
      | .busError => reportBusError
      | .rxPending => scanAndReceive
      | .idle => endWith .nothingPending

/-- RECEIVE (R202). -/
def execReceive (s : State) : Answer := .next (perform .receive receiveOp s)

/-! ### RECEIVE_WAIT -/

/-- R206: the block suspends; the scratch values of the pass are of no further use (log entry 3). -/
def suspend (s : State) : State :=
  match s.run with
  | .idle => { s with run := .waiting 0 false }
  | .running _ txns _ => { s with run := .waiting txns false }
  | .waiting txns _ => { s with run := .waiting txns false }

/-- R205: a pass that found nothing leads to the wait; any other result ends the operation. -/
def concludePass : Except Result Value × State → State
  | (.error .nothingPending, t) => suspend t
  | r => conclude r

/-- RECEIVE_WAIT (R205): the first pass. -/
def execReceiveWait (s : State) : Answer := .next (concludePass (onVariant receiveOp (begin .receiveWait s)))

/-- R206: whether the wait may end: the level of the line, or under `Edge` a fall since the wait began. -/
def wakes (w : IrqWait) (irq : IrqLevel) (fell : Bool) : Bool :=
  match w with
  | .level => irq == .low
  | .edge => fell

/-- R205: the next pass after a wake-up. -/
def resume (txns : Nat) (s : State) : State :=
  concludePass (receiveOp { s with run := .running .receiveWait txns [] })

/-! ### Events of the environment -/

/-- Whether the block is suspended in `WaitIrqLow()`. -/
def suspended : Run → Bool
  | .idle => false
  | .running _ _ _ => false
  | .waiting _ _ => true

/-- R206: the wait remembers a fall of the line after it began (used under `Edge` only). -/
def noteFall (old new : IrqLevel) : Run → Run
  | .idle => .idle
  | .running op txns scratch => .running op txns scratch
  | .waiting txns fell => .waiting txns (fell || (old == .high && new == .low))

/-- R207, R241, R260: what an event does. Cancel and a failing wait act only at the suspension point. -/
def applyEvent (e : Event) (s : State) : State :=
  match e with
  | .turn => s
  | .irq l => { s with irq := l, run := noteFall s.irq l s.run }
  | .cancel => if suspended s.run then finish .cancelled s else s
  | .waitFails err => if suspended s.run then finish (.transport err) s else s
  | .poke a b => { s with mem := Memory.write s.mem a.toNat b }

end Sys2Proof.Machine
end

