-- ==== Sys2Proof/Machine/Turn.lean ====
section
/-! DEFINITION. One step of the block and its environment, given the meaning of an instruction: an event of the
environment, or the block's turn (accept the next request when idle, look at the line when suspended), and how a
request is placed so that the next step serves it. -/

namespace Sys2Proof.Machine

/-- A reserved host code (R103, R246): `Unsupported(ReservedOpc)`, nothing sent; the variant is checked before
everything (R251). -/
def serveReservedOpc (s : State) : State :=
  conclude (onVariant (endWith (.unsupported .reservedOpc)) { s with result := none })

/-- R21, R23: the block accepts one request. -/
def serve (run : Instr → State → Answer) (r : Request) (s : State) : Answer :=
  match decode r with
  | .ok i => run i s
  | .error (.reservedOpc _) => .next (serveReservedOpc s)
  | .error e => .refused (.undecodable e)

/-- The block's turn. Idle with nothing asked, or suspended with the line not low, it stays as it is. -/
def turn (run : Instr → State → Answer) (s : State) : Answer :=
  match s.run with
  | .idle =>
    match s.requests with
    | [] => .next s
    | r :: rest => serve run r { s with requests := rest }
  | .running _ _ _ => .fault .midOperation
  | .waiting txns fell => .next (if wakes s.cfg.irqWait s.irq fell then resume txns s else s)

/-- The next event of the environment, or the block's turn when it lists none. -/
def advance (run : Instr → State → Answer) (s : State) : Answer :=
  match s.events with
  | [] => turn run s
  | .turn :: es => turn run { s with events := es }
  | e :: es => .next (applyEvent e { s with events := es })

/-- The host has `r` ready and the block is about to accept it (log entry 18). -/
def present (r : Request) (s : State) : State :=
  { s with run := .idle, events := [], requests := r :: s.requests }

end Sys2Proof.Machine
end

