-- ==== Sys2Proof/Machine/Dispatch.lean ====
section
/-! DEFINITION. One arm per instruction: a direct call of its meaning. -/

namespace Sys2Proof.Machine

def exec (i : Instr) (s : State) : Host.Outcome State Fault Refusal :=
  match i with
  | .wReset => Sys2Proof.Machine.execWReset s
  | .wRead a n => Sys2Proof.Machine.execWRead a n s
  | .wWrite a data => Sys2Proof.Machine.execWWrite a data s
  | .wWriteCrc a rest => Sys2Proof.Machine.execWWriteCrc a rest s
  | .wReadCrc a rest => Sys2Proof.Machine.execWReadCrc a rest s
  | .wWriteSafe a rest => Sys2Proof.Machine.execWWriteSafe a rest s
  | .reset => Sys2Proof.Machine.execReset s
  | .readReg addr => Sys2Proof.Machine.execReadReg addr s
  | .writeReg addr value => Sys2Proof.Machine.execWriteReg addr value s
  | .modifyReg addr mask value => Sys2Proof.Machine.execModifyReg addr mask value s
  | .readBytes off n => Sys2Proof.Machine.execReadBytes off n s
  | .writeBytes off data => Sys2Proof.Machine.execWriteBytes off data s
  | .requestToTransmit queue => Sys2Proof.Machine.execRequestToTransmit queue s
  | .readStatus => Sys2Proof.Machine.execReadStatus s
  | .dlcToLen dlc => Sys2Proof.Machine.execDlcToLen dlc s
  | .lenToDlc len => Sys2Proof.Machine.execLenToDlc len s
  | .frameNew id data seq => Sys2Proof.Machine.execFrameNew id data seq s
  | .encode frame => Sys2Proof.Machine.execEncode frame s
  | .decode header payload => Sys2Proof.Machine.execDecode header payload s
  | .hdrToBytes header => Sys2Proof.Machine.execHdrToBytes header s
  | .bytesToHdr b => Sys2Proof.Machine.execBytesToHdr b s
  | .fifoAddr fifo => Sys2Proof.Machine.execFifoAddr fifo s
  | .filterAddr n => Sys2Proof.Machine.execFilterAddr n s
  | .arbitrate intStatus => Sys2Proof.Machine.execArbitrate intStatus s
  | .scan bitmap => Sys2Proof.Machine.execScan bitmap s
  | .transmit fifo frame => Sys2Proof.Machine.execTransmit fifo frame s
  | .receive => Sys2Proof.Machine.execReceive s
  | .receiveWait => Sys2Proof.Machine.execReceiveWait s
  | .configureFifo fifo spec => Sys2Proof.Machine.execConfigureFifo fifo spec s
  | .configureFilter n filter mask => Sys2Proof.Machine.execConfigureFilter n filter mask s

end Sys2Proof.Machine
end

