-- ==== Sys2Proof/Machine/Step.lean ====
section
/-! DEFINITION. The step of the machine, and where a request is placed so that the next step serves it. -/

namespace Sys2Proof.Machine

/-- One step: an event of the environment, or the block's turn with `exec` as the meaning of instructions. -/
def step (s : State) : Host.Outcome State Fault Refusal := advance exec s

/-- The instruction of an opcode-table word as the request the next step serves (log entries 2 and 18). -/
def State.withFetchWord (s : State) (nbits w : Nat) : State := present (tableRequest nbits w) s

end Sys2Proof.Machine
end

