-- ==== Sys2Proof/Safety.lean ====
section
/-! DEFINITION. The terms claims are stated in: the state after one transaction that ran to its end, the block at rest
(R22 to R24), the transactions the block can emit (R88), and which operation can end with which result (R241 to R249). -/

namespace Sys2Proof.Machine

/-! ### The environment a claim assumes -/

/-- R7: the capability value the spec defines the block for. -/
abbrev State.supported (s : State) : Prop := s.cfg.cap.supported = true

/-- No failure of a transport primitive lies ahead (R120, R122). -/
abbrev State.unfailing (s : State) : Prop := ∀ o ∈ s.transport, o = none

/-! ### One whole transaction -/

/-- What stays on the link's record of a READ transaction (R82): command, placeholders, captured bytes. -/
def readTxn (a : Addr) (n : Nat) (s : State) : Txn where
  mosi  := wireCommand opRead a ++ zeros n
  miso  := captured s a.toNat n
  whole := true

/-- What stays on the link's record of a WRITE transaction (R83). -/
def writeTxn (a : Addr) (data : List Byte) : Txn where
  mosi  := wireCommand opWrite a ++ data
  miso  := []
  whole := true

/-- The record of a RESET transaction (R81). -/
def resetTxn : Txn where
  mosi  := [0x00]
  miso  := []
  whole := true

/-- The state after a READ transaction of `n` bytes at `a` that ran to its end: four primitives have succeeded, the
answers are used up, the record has one more transaction, everything else is as before. -/
def readDone (a : Addr) (n : Nat) (s : State) : State :=
  { s with cs := .released, wire := none, transport := s.transport.drop 4
           answers := (afterCapture n s).answers, freeIdx := (afterCapture n s).freeIdx
           link := s.link ++ [readTxn a n s] }

/-- The state after a WRITE transaction that ran to its end: the chip has the data bytes at `a` on. -/
def writeDone (a : Addr) (data : List Byte) (s : State) : State :=
  { s with cs := .released, wire := none, transport := s.transport.drop 3
           mem := Memory.writeBytes s.mem a.toNat data, chipMode := none
           link := s.link ++ [writeTxn a data] }

/-- The state after a RESET transaction that ran to its end. -/
def resetDone (s : State) : State :=
  { s with cs := .released, wire := none, transport := s.transport.drop 3
           chipMode := some .configuration, link := s.link ++ [resetTxn] }

/-- The register value a READ_REG at `a` gets in the state `s` (R125). -/
def registerAnswer (a : Addr) (s : State) : Word := le32 (captured s a.toNat 4)

/-- The state after the two transactions of MODIFY_REG (R127). -/
def modifyDone (a : Addr) (mask value : Word) (s : State) : State :=
  writeDone a (bytes32 (maskedUpdate (registerAnswer a s) mask value)) (readDone a 4 s)

/-! ### The primitives of a transaction (R120, R122) -/

/-- The transport primitives a whole transaction uses: RESET and WRITE send in one `SpiWrite` (R81, R83), READ captures in
a `SpiTransfer` after its `SpiWrite` (R82); a READ captures at least four bytes. -/
def Txn.primitives (t : Txn) : Nat := if t.miso = [] then 3 else 4

/-- The transport primitives of a sequence of whole transactions. -/
def primitives (ts : List Txn) : Nat := (ts.map Txn.primitives).sum

/-- The same state with no failure planned. -/
def faultFree (s : State) : State := { s with transport := [] }

/-- The first failure of the plan is `f`, at primitive `j`. -/
def FirstFailure (plan : List (Option Failure)) (j : Nat) (f : Failure) : Prop :=
  plan[j]? = some (some f) ∧ ∀ k, k < j → plan[k]?.getD none = none

/-- What a failure at primitive `j` leaves of the transactions `planned` (R122): those before it whole, of the one it
falls in at most a front part, nothing of the later ones; chip-select is released, by one more primitive if it was
asserted. -/
def StoppedAt (planned : List Txn) (j : Nat) (s t : State) : Prop :=
  ∃ (whole rest part : List Txn) (next : Txn), planned = whole ++ next :: rest ∧ t.link = s.link ++ whole ++ part ∧
    t.cs = .released ∧ t.wire = none ∧ primitives whole ≤ j ∧ j < primitives whole + next.primitives ∧
    (j = primitives whole → part = [] ∧ t.transport = s.transport.drop (j + 1)) ∧
    (primitives whole < j → t.transport = s.transport.drop (j + 2) ∧
      ∃ p, part = [p] ∧ p.whole = false ∧ p.mosi <+: next.mosi ∧ p.miso <+: next.miso)

/-! ### The block at rest -/

/-- R23: between two steps the block is idle or suspended in RECEIVE_WAIT. -/
def Run.atRest : Run → Bool
  | .idle => true
  | .running _ _ _ => false
  | .waiting _ _ => true

/-- What holds of the machine between two steps: chip-select released and no transaction open (R22), the block idle or
suspended (R23), the chip memory in its canonical form. -/
structure Steady (s : State) : Prop where
  released  : s.cs = .released
  noOpenTxn : s.wire = none
  atRest    : s.run.atRest = true
  memWf     : Memory.wf s.mem = true

/-! ### What can cross the link (R88) -/

/-- R88: a register access (4 bytes), or a RAM burst inside the window; the address a multiple of 4 in both. -/
def addressable (a n : Nat) : Bool :=
  a % 4 == 0 && (n == 4 || (n % 4 == 0 && decide (0 < n) && decide (0x400 ≤ a) && decide (a + n ≤ 0xC00)))

/-- R88: `[0x00]`, a READ command with n placeholders and n captured bytes, or a WRITE command with n data bytes. -/
def emittable (mosi miso : List Byte) : Bool :=
  match mosi with
  | [b0] => b0 == 0x00 && miso == []
  | b0 :: b1 :: data =>
    addressable (wireAddress b0 b1).toNat data.length
      && (b0.extractLsb' 4 4 == 0x3#4 && data.all (· == 0x00) && miso.length == data.length
        || b0.extractLsb' 4 4 == 0x2#4 && miso == [])
  | [] => false

/-- A transaction on the link's record is one R88 lists, whole, or a front part of one (R122: bytes already sent stay
sent, nothing is sent further). -/
def Txn.legal (t : Txn) : Prop :=
  (t.whole = true → emittable t.mosi t.miso = true) ∧
    ∃ mosi miso, emittable mosi miso = true ∧ t.mosi <+: mosi ∧ t.miso <+: miso

/-! ### Which operation ends how (R241 to R249) -/

/-- The reserved wire commands (R86). -/
def reservedWire : Instr → Bool
  | .wWriteCrc _ _ => true
  | .wReadCrc _ _ => true
  | .wWriteSafe _ _ => true
  | _ => false

/-- R65, R310: the largest number of transactions of one operation (for RECEIVE_WAIT, of one pass). -/
def maxTxns : Instr → Nat
  | .wReset => 1
  | .wRead _ _ => 1
  | .wWrite _ _ => 1
  | .reset => 1
  | .readReg _ => 1
  | .writeReg _ _ => 1
  | .modifyReg _ _ _ => 2
  | .readBytes _ _ => 1
  | .writeBytes _ _ => 1
  | .transmit _ _ => 5
  | .receive => 7
  | .receiveWait => 7
  | .configureFifo _ _ => 1
  | .configureFilter _ _ _ => 4
  | _ => 0

/-- R241: the operations that send a transaction. -/
def sendsTransactions (i : Instr) : Bool := decide (0 < maxTxns i)

/-- R242: who raises which contract violation; the raw wire commands take the register's or the RAM's checks. -/
def mayViolate : Instr → Contract → Bool
  | .wRead _ _, .regAddr => true
  | .wRead _ _, .ramLength => true
  | .wRead _ _, .ramAlign => true
  | .wRead _ _, .ramRange => true
  | .wWrite _ _, .regAddr => true
  | .wWrite _ _, .ramLength => true
  | .wWrite _ _, .ramAlign => true
  | .wWrite _ _, .ramRange => true
  | .readReg _, .regAddr => true
  | .writeReg _ _, .regAddr => true
  | .modifyReg _ _ _, .regAddr => true
  | .modifyReg _ _ _, .notModifiable => true
  | .readBytes _ _, .ramLength => true
  | .readBytes _ _, .ramAlign => true
  | .readBytes _ _, .ramRange => true
  | .writeBytes _ _, .ramLength => true
  | .writeBytes _ _, .ramAlign => true
  | .writeBytes _ _, .ramRange => true
  | .transmit _ _, .ramAlign => true
  | .transmit _ _, .ramRange => true
  | .receive, .ramAlign => true
  | .receive, .ramRange => true
  | .receiveWait, .ramAlign => true
  | .receiveWait, .ramRange => true
  | .fifoAddr _, .fifoIndex => true
  | .transmit _ _, .fifoIndex => true
  | .configureFifo _ _, .fifoIndex => true
  | .configureFilter _ _ _, .fifoIndex => true
  | .filterAddr _, .filterIndex => true
  | .configureFilter _ _ _, .filterIndex => true
  | .decode _ _, .payloadShort => true
  | .configureFifo _ _, .fieldRange => true
  | _, _ => false

/-- R240 to R249: the results an operation can end with. -/
def mayEndWith (i : Instr) : Result → Bool
  | .ok _ => match i with | .requestToTransmit _ => false | .readStatus => false | _ => true
  | .fifoFull => match i with | .transmit _ _ => true | _ => false
  | .nothingPending => match i with | .receive => true | _ => false
  | .cancelled => false
  | .transport _ => sendsTransactions i
  | .contractViolation k => mayViolate i k
  | .frameTooLong _ => match i with | .lenToDlc _ => true | .frameNew _ _ _ => true | _ => false
  | .controllerBusError => match i with | .receive => true | .receiveWait => true | _ => false
  | .unsupportedBitRate => false
  | .unsupported .variant => true
  | .unsupported .requestToTransmit => match i with | .requestToTransmit _ => true | _ => false
  | .unsupported .readStatus => match i with | .readStatus => true | _ => false
  | .unsupported .reservedOpc => false

/-- The operations whose every transaction, if any, is a READ or a RESET. -/
def sendsNoWrite : Instr → Bool
  | .wWrite _ _ => false
  | .writeReg _ _ => false
  | .modifyReg _ _ _ => false
  | .writeBytes _ _ => false
  | .transmit _ _ => false
  | .receive => false
  | .receiveWait => false
  | .configureFifo _ _ => false
  | .configureFilter _ _ _ => false
  | _ => true

/-- The result with which an operation's own checks on its operands refuse it before any traffic (R123, R252). -/
def refusedOnOperands : Result → Bool
  | .contractViolation .ramAlign => false
  | .contractViolation .ramRange => false
  | .contractViolation _ => true
  | .frameTooLong _ => true
  | .unsupported _ => true
  | _ => false

/-! ### Registers of a FIFO and the points of RECEIVE and TRANSMIT -/

/-- R180: FIFOCON(i). -/
def conOf (i : Nat) : Addr := BitVec.ofNat 12 (0x050 + 12 * i)

/-- R180: FIFOSTA(i). -/
def staOf (i : Nat) : Addr := BitVec.ofNat 12 (0x050 + 12 * i + 4)

/-- R180: FIFOUA(i). -/
def uaOf (i : Nat) : Addr := BitVec.ofNat 12 (0x050 + 12 * i + 8)

/-- R53: the chip address of a RAM offset. -/
def windowAddr (off : Nat) : Addr := BitVec.ofNat 12 (0x400 + off)

/-- R202: the state after the interrupt status was read. -/
def polled (s : State) : State := readDone s.cfg.schema.addrInt 4 s

/-- R202: the interrupt status a pass reads. -/
def polledStatus (s : State) : Word := registerAnswer s.cfg.schema.addrInt s

/-- R202: the state after the receive bitmap was read too. -/
def mapped (s : State) : State := readDone s.cfg.schema.addrRxif 4 (polled s)

/-- R202: the bitmap a pass reads. -/
def polledBitmap (s : State) : Word := registerAnswer s.cfg.schema.addrRxif (polled s)

/-- R202: FIFO i's user address as a pass reads it. -/
def messageOffset (i : Nat) (s : State) : Nat := (registerAnswer (uaOf i) (mapped s)).toNat

/-- R202: the state after the user address was read. -/
def located (i : Nat) (s : State) : State := readDone (uaOf i) 4 (mapped s)

/-- R202: the header a pass reads. -/
def messageHeader (i : Nat) (s : State) : Header :=
  bytesToHeader s.cfg.schema (captured (located i s) (windowAddr (messageOffset i s)).toNat 8)

/-- R202: the state after the header was read. -/
def headed (i : Nat) (s : State) : State := readDone (windowAddr (messageOffset i s)) 8 (located i s)

/-- R202: the offset of the payload. -/
def payloadOffset (i : Nat) (s : State) : Nat := messageOffset i s + s.cfg.schema.rxPayloadOffset

/-- R202: the number of payload bytes the header's DLC stands for. -/
def payloadCount (i : Nat) (s : State) : Nat := dlcBytes (messageHeader i s).dlc

/-- R202: the payload bytes of the message, the excess of the rounded-up read dropped; none for a count of 0. -/
def messagePayload (i : Nat) (s : State) : List Byte :=
  if payloadCount i s = 0 then []
  else (captured (headed i s) (windowAddr (payloadOffset i s)).toNat (pad4 (payloadCount i s))).take (payloadCount i s)

/-- R202: the state after the payload was read; no transaction for a count of 0. -/
def emptied (i : Nat) (s : State) : State :=
  if payloadCount i s = 0 then headed i s
  else readDone (windowAddr (payloadOffset i s)) (pad4 (payloadCount i s)) (headed i s)

/-- The FIFO index a pass serves (R184): its bit is set, and no lower one of bits 1.. is. -/
def FirstSet (bitmap : Word) (i : Nat) : Prop :=
  1 ≤ i ∧ i ≤ 31 ∧ bitSet bitmap i = true ∧ ∀ j, 1 ≤ j → j < i → bitSet bitmap j = false

/-- A pass finds a frame in FIFO i: no bus error, the aggregate flag set, i the first bit of the bitmap. -/
def Finds (i : Nat) (s : State) : Prop :=
  bitSet (polledStatus s) s.cfg.schema.intBusErrBit = false ∧ bitSet (polledStatus s) s.cfg.schema.intRxBit = true
    ∧ FirstSet (polledBitmap s) i

end Sys2Proof.Machine
end

