-- ==== Sys2Proof/Certificates/Slice0/Obligations.lean ====
section
/-! DEFINITION. The statements for the provers. Where a statement rests on a decision of the spec (92_eei_decisions.md)
or of this model (notes/assumptions), its docstring says so. -/

open Sys2Proof Sys2Proof.Machine

/-! ### Encoding -/

/-- Decoding the encoding of a well-formed instruction gives it back, every operand at every value (the host record's
layout is the model's choice, log entry 1; the wire commands are R81 to R86). -/
def Obligations.DecodeEncodeRoundTrip : Prop :=
  ∀ i : Instr, i.wellFormed = true → decode (encode i) = .ok i

/-- A frame that decodes is the encoding of the instruction it decodes to: no bit of a wire command is dropped (R81 to
R84, R86). -/
def Obligations.WireFramesHaveOneReading : Prop :=
  ∀ (frame : List Byte) (i : Instr), decode (.wire frame) = .ok i → encode i = .wire frame

/-- Wire words written out from the spec's encodings (R81 to R84, R86) and the bare host code 0x31 (R100) decode to the
instructions they stand for. So do LEN_TO_DLC 17 and FIFO_ADDR 5, whose codes are R100's and whose operand bytes are the
model's choice (log entry 1, DESIGN CHOICE: the spec gives no operand layout). -/
def Obligations.SpecWordsDecode : Prop :=
  decode (.wire [0x00]) = .ok .wReset
    ∧ decode (.wire [0x34, 0x7C, 0, 0, 0, 0, 0, 0, 0, 0]) = .ok (.wRead 0x47C 8)
    ∧ decode (.wire [0x20, 0x68, 0x78, 0x56, 0x34, 0x12]) = .ok (.wWrite 0x068 [0x78, 0x56, 0x34, 0x12])
    ∧ decode (.wire [0xB1, 0x23]) = .ok (.wReadCrc 0x123 [])
    ∧ decode (.host [0x11, 17, 0, 0, 0]) = .ok (.lenToDlc 17)
    ∧ decode (.host [0x20, 5]) = .ok (.fifoAddr 5)
    ∧ decode (.host [0x31]) = .ok .receive

/-- R103 (decision D8): a request whose code the table of R100 does not list answers `Unsupported(ReservedOpc)` and
sends nothing. -/
def Obligations.ReservedCodeAnswersUnsupported : Prop :=
  ∀ (s : State) (opc : Byte) (record : List Byte) (rest : List Request),
    opc.toNat ∉ [0x00, 0x01, 0x02, 0x03, 0x04, 0x05, 0x06, 0x07, 0x10, 0x11, 0x12, 0x13, 0x14, 0x15, 0x16, 0x20, 0x21,
      0x22, 0x23, 0x30, 0x31, 0x32, 0x40, 0x41] →
    s.events = [] → s.run = .idle → s.supported → s.requests = .host (opc :: record) :: rest →
      step s = .next (finish (.unsupported .reservedOpc) { s with requests := rest })

/-! ### The machine -/

/-- When the first waiting request decodes to an instruction and it is the idle block's turn, the step is that
instruction's `exec`, the request taken off (how requests wait is the model's choice, log entry 18). -/
def Obligations.StepRunsTheRequest : Prop :=
  ∀ (s : State) (r : Request) (rest : List Request) (i : Instr),
    s.run = .idle → s.requests = r :: rest → decode r = .ok i →
      (s.events = [] → step s = exec i { s with requests := rest }) ∧
      ∀ es, s.events = .turn :: es → step s = exec i { s with events := es, requests := rest }

/-- R280 (decision D28): the block at construction, at rest, with an admissible configuration, nothing sent and no result
yet (that `result` is none then is the model's choice, log entry 17). -/
def Obligations.ResetState : Prop :=
  State.reset.cs = .released ∧ State.reset.run = .idle ∧ State.reset.link = [] ∧ State.reset.result = none ∧ State.reset.cfg.wf = true
    ∧ State.reset.supported ∧ Steady State.reset

/-- R22, R23: from every state at rest, every step leads to a state at rest: chip-select released, no transaction open,
the block idle or suspended, the chip memory canonical. -/
def Obligations.StepKeepsRest : Prop := ∀ s t : State, Steady s → step s = .next t → Steady t

/-- R88 (an inference of the spec): if every transaction on the record is one the block may emit, whole or cut short, so
is every transaction on it after a step. -/
def Obligations.StepKeepsLinkLegal : Prop :=
  ∀ s t : State, Steady s → (∀ x ∈ s.link, x.legal) → step s = .next t → ∀ x ∈ t.link, x.legal

/-- R25: no operation and no step changes CAP, SCHEMA or IRQ_WAIT. -/
def Obligations.ConfigurationNeverChanges : Prop :=
  (∀ (i : Instr) (s t : State), Steady s → exec i s = .next t → t.cfg = s.cfg) ∧
    ∀ s t : State, Steady s → step s = .next t → t.cfg = s.cfg

/-- R63: the record of transactions only grows, and an operation touches nothing of its environment but the outcomes and
answers it uses up: the line, the waiting requests, the coming events and the kind of chip are as before. -/
def Obligations.OperationsLeaveTheirEnvironment : Prop :=
  ∀ (i : Instr) (s t : State), Steady s → exec i s = .next t →
    s.link <+: t.link ∧ t.irq = s.irq ∧ t.requests = s.requests ∧ t.events = s.events ∧ t.chip = s.chip

/-- R24: after any result chip-select is released and the block idle: after one delivered by an operation (RECEIVE_WAIT may
be suspended instead, with no result yet), and after one delivered by any step, the resumed pass, Cancel and the failing
wait of a suspended block among them (the premise, that a result is there only when the block is idle, holds at reset by
ResetState and is kept by the step). An operation does not depend on the result, the progress or the record of
transactions earlier ones left: it adds the same transactions to any record. -/
def Obligations.NoStickyErrorState : Prop :=
  (∀ (i : Instr) (s t : State), Steady s → exec i s = .next t →
    t.cs = .released ∧ t.wire = none ∧
      ((t.run = .idle ∧ t.result ≠ none) ∨
        (i = .receiveWait ∧ t.result = none ∧ ∃ n, t.run = .waiting n false))) ∧
  (∀ s t : State, Steady s → (s.result ≠ none → s.run = .idle) → step s = .next t →
    t.cs = .released ∧ t.wire = none ∧ (t.result ≠ none → t.run = .idle)) ∧
  (∀ (i : Instr) (s : State) (u : Run) (r : Option Result), exec i { s with run := u, result := r } = exec i s) ∧
  ∀ (i : Instr) (s t : State) (record : List Txn), exec i s = .next t →
    ∃ added, t.link = s.link ++ added ∧ exec i { s with link := record } = .next { t with link := record ++ added }

/-- R260: the line is looked at only inside the wait. An operation, and the turn of a block that is not suspended, do the
same at either level; a change of the line then changes the line alone. -/
def Obligations.LineReadOnlyByTheWait : Prop :=
  (∀ (i : Instr) (s t : State) (l : IrqLevel), exec i s = .next t → exec i { s with irq := l } = .next { t with irq := l }) ∧
  (∀ (s t : State) (l : IrqLevel), s.run = .idle → s.events = [] → step s = .next t →
    step { s with irq := l } = .next { t with irq := l }) ∧
  ∀ (s : State) (l : IrqLevel) (es : List Event), s.run = .idle → s.events = .irq l :: es →
    step s = .next { s with events := es, irq := l }

/-- R240 to R249: an operation ends only with a result the spec lets it end with. -/
def Obligations.ResultsBelongToTheirOperations : Prop :=
  ∀ (i : Instr) (s t : State) (r : Result), Steady s → s.cfg.wf = true → exec i s = .next t → t.result = some r →
    mayEndWith i r = true

/-- R123, R252: when an operation is refused on its operands, nothing was sent and no primitive was tried; the state is
as before but for the result. -/
def Obligations.OperandRefusalsSendNothing : Prop :=
  ∀ (i : Instr) (s t : State) (r : Result), Steady s → s.cfg.wf = true → exec i s = .next t → t.result = some r →
    refusedOnOperands r = true → t = finish r s

/-- R65, R310: the number of transactions of one operation, and of one pass of RECEIVE_WAIT, is bounded by the table
`maxTxns`: 7 at most, reached by RECEIVE. -/
def Obligations.TransactionsAreBounded : Prop :=
  ∀ (i : Instr) (s t : State), Steady s → exec i s = .next t → t.link.length ≤ s.link.length + maxTxns i

/-- R122, R252: of the transactions an operation sends, all are whole but at most the last; a transaction is cut short
only when the result is `Transport(e)`, and `e` is the token of a failure the transport had. -/
def Obligations.OnlyTheFailingTransactionIsPartial : Prop :=
  ∀ (i : Instr) (s t : State), Steady s → exec i s = .next t →
    ∃ whole part : List Txn, t.link = s.link ++ whole ++ part ∧ (∀ x ∈ whole, x.whole = true) ∧
      (∀ x ∈ part, x.whole = false) ∧ part.length ≤ 1 ∧
      (part ≠ [] → ∃ e, t.result = some (.transport e)) ∧
      ∀ e, t.result = some (.transport e) → ∃ f : Failure, some f ∈ s.transport ∧ f.err = e

/-- R122: the first failure among the four primitives of a READ_REG ends it with that failure's token, carried
unchanged; no transaction ran to its end and nothing is stored (D13: chip-select is released). -/
def Obligations.FirstFailureEndsReadReg : Prop :=
  ∀ (s : State) (a : Addr) (f : Failure) (k : Nat), Steady s → s.supported → a.toNat % 4 = 0 → k < 4 →
    (∀ j, j < k → s.transport[j]?.getD none = none) → s.transport[k]? = some (some f) →
      ∃ t, exec (.readReg a) s = .next t ∧ t.result = some (.transport f.err) ∧ t.cs = .released ∧ t.mem = s.mem ∧
        ∃ part, t.link = s.link ++ part ∧ ∀ x ∈ part, x.whole = false

/-- R122, R241, for every operation: the transactions `planned` are those it sends with no failure. If none of their
primitives fails, it does just that. If the first failing primitive is the `j`-th of them, it ends with that failure's
token, carried unchanged, and sends nothing further: the transactions before stand whole, of the one that failed at most a
front part (nothing when `CsAssert` failed), no later one, and the release of chip-select is all that is tried after it
(decision D13; the plan of outcomes is the model's, log entries 6 to 8). -/
def Obligations.FirstFailureEndsTheOperation : Prop :=
  ∀ (i : Instr) (s t : State), Steady s → exec i (faultFree s) = .next t →
    ∃ planned : List Txn, t.link = s.link ++ planned ∧ (∀ x ∈ planned, x.whole = true) ∧
      ((∀ j, j < primitives planned → s.transport[j]?.getD none = none) →
        exec i s = .next { t with transport := s.transport.drop (primitives planned) }) ∧
      ∀ (j : Nat) (f : Failure), j < primitives planned → FirstFailure s.transport j f →
        ∃ u, exec i s = .next u ∧ u.result = some (.transport f.err) ∧ u.run = .idle ∧ StoppedAt planned j s u

/-- R7, R246, R251 (decision D2): for any other capability value every operation, and every wire command but the
reserved ones, ends with `Unsupported(Variant)` and does nothing. -/
def Obligations.OtherVariantsRefuseEverything : Prop :=
  ∀ (i : Instr) (s : State), s.cfg.cap.supported = false → reservedWire i = false →
    exec i s = .next (finish (.unsupported .variant) s)

/-- R86 (decision D9; log entry 15): the reserved wire commands are refused. -/
def Obligations.ReservedWireCommandsAreRefused : Prop :=
  ∀ (a : Addr) (rest : List Byte) (s : State),
    exec (.wWriteCrc a rest) s = .refused (.reservedWireCommand 0xA) ∧
    exec (.wReadCrc a rest) s = .refused (.reservedWireCommand 0xB) ∧
    exec (.wWriteSafe a rest) s = .refused (.reservedWireCommand 0xC)

/-! ### Sequencer -/

/-- R81, R124: RESET sends the one byte 0x00 and ends with `Ok(())`; so does W-RESET at the sequencer's port (log
entries 2 and 16). -/
def Obligations.ResetSendsOneByte : Prop :=
  ∀ s : State, s.supported → s.unfailing →
    exec .reset s = .next (finish (.ok .unit) (resetDone s)) ∧
    exec .wReset s = .next (finish (.ok .unit) (resetDone s))

/-- R56, R125 (decisions D4, D11): READ_REG's result is the four captured bytes, little-endian, after one READ
transaction; a misaligned address is refused. -/
def Obligations.ReadRegResult : Prop :=
  ∀ (s : State) (a : Addr), s.supported →
    (a.toNat % 4 = 0 → s.unfailing →
      exec (.readReg a) s = .next (finish (.ok (.word (le32 (captured s a.toNat 4)))) (readDone a 4 s))) ∧
    (a.toNat % 4 ≠ 0 → exec (.readReg a) s = .next (finish (.contractViolation .regAddr) s))

/-- R56, R126 (decisions D4, D11): WRITE_REG sends the value's four bytes, low byte first, in one WRITE transaction. -/
def Obligations.WriteRegResult : Prop :=
  ∀ (s : State) (a : Addr) (v : Word), s.supported →
    (a.toNat % 4 = 0 → s.unfailing →
      exec (.writeReg a v) s = .next (finish (.ok .unit)
        (writeDone a [v.extractLsb' 0 8, v.extractLsb' 8 8, v.extractLsb' 16 8, v.extractLsb' 24 8] s))) ∧
    (a.toNat % 4 ≠ 0 → exec (.writeReg a v) s = .next (finish (.contractViolation .regAddr) s))

/-- R127 (decision D9): MODIFY_REG reads, replaces exactly the bits of the mask and writes back; alignment is checked
first, then membership in CAP.modifiable. -/
def Obligations.ModifyRegResult : Prop :=
  ∀ (s : State) (a : Addr) (mask value : Word), s.supported →
    (a.toNat % 4 = 0 → a ∈ s.cfg.cap.modifiable → s.unfailing →
      exec (.modifyReg a mask value) s = .next (finish (.ok .unit) (writeDone a
        (bytes32 ((registerAnswer a s &&& ~~~mask) ||| (value &&& mask))) (readDone a 4 s)))) ∧
    (a.toNat % 4 ≠ 0 → exec (.modifyReg a mask value) s = .next (finish (.contractViolation .regAddr) s)) ∧
    (a.toNat % 4 = 0 → a ∉ s.cfg.cap.modifiable →
      exec (.modifyReg a mask value) s = .next (finish (.contractViolation .notModifiable) s))

/-- R53, R57, R128 (decision D12): READ_BYTES reads the run at 0x400 + off in one transaction, none when `n = 0`; length
is checked first, then alignment, then range. -/
def Obligations.ReadBytesResult : Prop :=
  ∀ (s : State) (off n : Word), s.supported →
    (n.toNat % 4 = 0 → off.toNat % 4 = 0 → off.toNat + n.toNat ≤ 2048 → n.toNat ≠ 0 → s.unfailing →
      exec (.readBytes off n) s = .next (finish (.ok (.bytes (captured s (windowAddr off.toNat).toNat n.toNat)))
        (readDone (windowAddr off.toNat) n.toNat s))) ∧
    (n.toNat = 0 → off.toNat % 4 = 0 → off.toNat ≤ 2048 → exec (.readBytes off n) s = .next (finish (.ok (.bytes [])) s)) ∧
    (n.toNat % 4 ≠ 0 → exec (.readBytes off n) s = .next (finish (.contractViolation .ramLength) s)) ∧
    (n.toNat % 4 = 0 → off.toNat % 4 ≠ 0 → exec (.readBytes off n) s = .next (finish (.contractViolation .ramAlign) s)) ∧
    (n.toNat % 4 = 0 → off.toNat % 4 = 0 → off.toNat + n.toNat > 2048 →
      exec (.readBytes off n) s = .next (finish (.contractViolation .ramRange) s))

/-- R53, R57, R129 (decision D12): WRITE_BYTES writes the run at 0x400 + off in one transaction, none when the data are
empty; the checks are those of READ_BYTES, in the same order. -/
def Obligations.WriteBytesResult : Prop :=
  ∀ (s : State) (off : Word) (data : List Byte), s.supported →
    (data.length % 4 = 0 → off.toNat % 4 = 0 → off.toNat + data.length ≤ 2048 → data ≠ [] → s.unfailing →
      exec (.writeBytes off data) s = .next (finish (.ok .unit) (writeDone (windowAddr off.toNat) data s))) ∧
    (data = [] → off.toNat % 4 = 0 → off.toNat ≤ 2048 → exec (.writeBytes off data) s = .next (finish (.ok .unit) s)) ∧
    (data.length % 4 ≠ 0 → exec (.writeBytes off data) s = .next (finish (.contractViolation .ramLength) s)) ∧
    (data.length % 4 = 0 → off.toNat % 4 ≠ 0 →
      exec (.writeBytes off data) s = .next (finish (.contractViolation .ramAlign) s)) ∧
    (data.length % 4 = 0 → off.toNat % 4 = 0 → off.toNat + data.length > 2048 →
      exec (.writeBytes off data) s = .next (finish (.contractViolation .ramRange) s))

/-- R82, R83, R88 (log entries 2 and 14): at the sequencer's port W-READ and W-WRITE are one transaction exactly where
R88 lists it, and otherwise end with a contract violation and send nothing. -/
def Obligations.RawTransactionResult : Prop :=
  ∀ (s : State) (a : Addr) (n : Nat) (data : List Byte), s.supported →
    (addressable a.toNat n = true → s.unfailing →
      exec (.wRead a n) s = .next (finish (.ok (.bytes (captured s a.toNat n))) (readDone a n s))) ∧
    (addressable a.toNat data.length = true → s.unfailing →
      exec (.wWrite a data) s = .next (finish (.ok .unit) (writeDone a data s))) ∧
    (addressable a.toNat n = false → ∃ k, exec (.wRead a n) s = .next (finish (.contractViolation k) s)) ∧
    (addressable a.toNat data.length = false → ∃ k, exec (.wWrite a data) s = .next (finish (.contractViolation k) s))

/-- R132, R133 (decision D9): REQUEST_TO_TRANSMIT and READ_STATUS have no wire form: they end with `Unsupported` and
send nothing, whatever the operand. -/
def Obligations.NoWireFormMeansUnsupported : Prop :=
  ∀ (s : State) (queue : Byte), s.supported →
    exec (.requestToTransmit queue) s = .next (finish (.unsupported .requestToTransmit) s) ∧
    exec .readStatus s = .next (finish (.unsupported .readStatus) s)

/-- 95_test_vectors.md section 0: on SimChip a register reads as it was last written. -/
def Obligations.SimChipReadsWhatWasWritten : Prop :=
  ∀ (s : State) (a : Addr) (v : Word), Steady s → s.supported → s.unfailing → s.chip = .simChip → a.toNat % 4 = 0 →
    ∃ t u, exec (.writeReg a v) s = .next t ∧ exec (.readReg a) t = .next u ∧ u.result = some (.ok (.word v))

/-! ### What is stored in the chip -/

/-- R59, R126 to R129: an operation that sends no WRITE transaction stores nothing, whatever the transport does. -/
def Obligations.ReadingStoresNothing : Prop :=
  ∀ (i : Instr) (s t : State), Steady s → sendsNoWrite i = true → exec i s = .next t → t.mem = s.mem

/-- The single-WRITE operations store only inside the run they address, even when the transport fails (R54, R126, R127,
R129, R83). -/
def Obligations.SingleWritesStoreInTheirRun : Prop :=
  ∀ (s t : State) (x : Nat), Steady s →
    (∀ (a : Addr) (v : Word), exec (.writeReg a v) s = .next t → (x < a.toNat ∨ a.toNat + 4 ≤ x) →
      Memory.read t.mem x = Memory.read s.mem x) ∧
    (∀ (a : Addr) (m v : Word), exec (.modifyReg a m v) s = .next t → (x < a.toNat ∨ a.toNat + 4 ≤ x) →
      Memory.read t.mem x = Memory.read s.mem x) ∧
    (∀ (off : Word) (data : List Byte), exec (.writeBytes off data) s = .next t →
      (x < (windowAddr off.toNat).toNat ∨ (windowAddr off.toNat).toNat + data.length ≤ x) →
      Memory.read t.mem x = Memory.read s.mem x) ∧
    (∀ (a : Addr) (data : List Byte), exec (.wWrite a data) s = .next t → (x < a.toNat ∨ a.toNat + data.length ≤ x) →
      Memory.read t.mem x = Memory.read s.mem x) ∧
    (∀ (i : Byte) (spec : FifoSpec), exec (.configureFifo i spec) s = .next t →
      (x < (conOf i.toNat).toNat ∨ (conOf i.toNat).toNat + 4 ≤ x) → Memory.read t.mem x = Memory.read s.mem x)

/-- The composite operations store only in the registers they update and, for TRANSMIT, in the message object's run at
the user address read in that call, even when the transport fails (R200, R202, R225). -/
def Obligations.CompositesStoreInTheirRegisters : Prop :=
  ∀ (s t : State) (x : Nat), Steady s → s.cfg.wf = true →
    (∀ (i : Byte) (f : Frame), exec (.transmit i f) s = .next t →
      let off := (registerAnswer (uaOf i.toNat) (readDone (staOf i.toNat) 4 s)).toNat
      (x < (windowAddr off).toNat ∨ (windowAddr off).toNat + (messageObject s.cfg.schema f).length ≤ x) →
      (x < (conOf i.toNat).toNat ∨ (conOf i.toNat).toNat + 4 ≤ x) → Memory.read t.mem x = Memory.read s.mem x) ∧
    (∀ op, op = .receive ∨ op = .receiveWait → exec op s = .next t →
      (x < s.cfg.schema.addrInt.toNat ∨ s.cfg.schema.addrInt.toNat + 4 ≤ x) →
      (∀ i, Machine.scan (polledBitmap s) = some i → x < (conOf i).toNat ∨ (conOf i).toNat + 4 ≤ x) →
      Memory.read t.mem x = Memory.read s.mem x) ∧
    (∀ (n : Byte) (f : FilterSpec) (m : MaskSpec), exec (.configureFilter n f m) s = .next t →
      (x < 0x1F0 + 8 * n.toNat ∨ 0x1F0 + 8 * n.toNat + 8 ≤ x) →
      (∀ r, filterRegs s.cfg.schema n.toNat = some r → x < r.fltcon.toNat ∨ r.fltcon.toNat + 4 ≤ x) →
      Memory.read t.mem x = Memory.read s.mem x)

/-! ### Codec -/

/-- R151: DLC_TO_LEN is the table of byte counts, total, with no other effect, and strictly increasing; its
code is 0x10. -/
def Obligations.DlcToLenTable : Prop :=
  (∀ (s : State) (c : BitVec 4), s.supported →
    exec (.dlcToLen c) s = .next (finish (.ok (.count
      ([0, 1, 2, 3, 4, 5, 6, 7, 8, 12, 16, 20, 24, 32, 48, 64][c.toNat]?.getD 0))) s)) ∧
  (∀ c d : BitVec 4, c.toNat < d.toNat → dlcBytes c < dlcBytes d) ∧
  ∀ c : BitVec 4, ∃ record, encode (.dlcToLen c) = .host (0x10 :: record)

/-- R152: LEN_TO_DLC is the least code whose byte count reaches the length; above 64 it ends with `FrameTooLong`. Its code
is 0x11 (decision D8). Its laws, that it returns each code for its own byte count and is non-decreasing, are an inference
of the spec (R152 marks them derived from R151). -/
def Obligations.LenToDlcIsLeast : Prop :=
  (∀ (s : State) (len : Word), s.supported → len.toNat ≤ 64 →
    ∃ c : BitVec 4, exec (.lenToDlc len) s = .next (finish (.ok (.dlc c)) s) ∧ len.toNat ≤ dlcBytes c ∧
      ∀ d : BitVec 4, len.toNat ≤ dlcBytes d → c.toNat ≤ d.toNat) ∧
  (∀ (s : State) (len : Word), s.supported → len.toNat > 64 →
    exec (.lenToDlc len) s = .next (finish (.frameTooLong len.toNat) s)) ∧
  (∀ c : BitVec 4, lenToDlc (dlcBytes c) = some c) ∧
  (∀ (m n : Nat) (c d : BitVec 4), m ≤ n → lenToDlc m = some c → lenToDlc n = some d → c.toNat ≤ d.toNat) ∧
  ∀ len : Word, ∃ record, encode (.lenToDlc len) = .host (0x11 :: record)

/-- R153 (decision D15): FRAME_NEW keeps identifier and sequence number, takes the least DLC and fills the buffer with
zeros; more than 64 bytes produce no frame. -/
def Obligations.FrameNewResult : Prop :=
  ∀ (s : State) (id : Id) (data : List Byte) (seq : Option (BitVec 23)), s.supported →
    (data.length ≤ 64 → ∃ c : BitVec 4,
      exec (.frameNew id data seq) s = .next (finish (.ok (.frame
        { id := id, dlc := c, data := data ++ List.replicate (64 - data.length) 0, seq := seq })) s) ∧
      data.length ≤ dlcBytes c ∧ ∀ d : BitVec 4, data.length ≤ dlcBytes d → c.toNat ≤ d.toNat) ∧
    (data.length > 64 → exec (.frameNew id data seq) s = .next (finish (.frameTooLong data.length) s))

/-- R154 (decision D16): ENCODE puts the low 11 bits of the identifier in `sid`, the high 18 in `eid`, sets `ide` for an
extended identifier, BRS and FDF together exactly when the payload exceeds 8 bytes, and hands out the meaningful bytes. -/
def Obligations.EncodeResult : Prop :=
  ∀ (s : State) (dlc : BitVec 4) (data : List Byte) (seq : Option (BitVec 23)), s.supported →
    (∀ v : BitVec 11, exec (.encode { id := .std v, dlc := dlc, data := data, seq := seq }) s =
      .next (finish (.ok (.encoded
        { sid := v, eid := 0, dlc := dlc, ide := false, rtr := false, brs := decide (dlcBytes dlc > 8),
          fdf := decide (dlcBytes dlc > 8), esi := false, tail := seq.getD 0 } (data.take (dlcBytes dlc)))) s)) ∧
    ∀ x : BitVec 29, exec (.encode { id := .ext x, dlc := dlc, data := data, seq := seq }) s =
      .next (finish (.ok (.encoded
        { sid := x.extractLsb' 0 11, eid := x.extractLsb' 11 18, dlc := dlc, ide := true, rtr := false,
          brs := decide (dlcBytes dlc > 8), fdf := decide (dlcBytes dlc > 8), esi := false, tail := seq.getD 0 }
        (data.take (dlcBytes dlc)))) s)

/-- R155 (decision D17): DECODE reads the identifier kind from `eid = 0` alone, keeps the DLC's count of payload bytes
and no sequence number; a shorter payload is refused. -/
def Obligations.DecodeResult : Prop :=
  ∀ (s : State) (h : Header) (payload : List Byte), s.supported →
    (dlcBytes h.dlc ≤ payload.length →
      exec (.decode h payload) s = .next (finish (.ok (.frame
        { id := if h.eid = 0 then .std h.sid else .ext (h.eid ++ h.sid), dlc := h.dlc,
          data := payload.take (dlcBytes h.dlc) ++ List.replicate (64 - dlcBytes h.dlc) 0, seq := none })) s)) ∧
    (payload.length < dlcBytes h.dlc →
      exec (.decode h payload) s = .next (finish (.contractViolation .payloadShort) s))

/-- R91, R92, R94, R156 (decision D4): bit by bit, HDR_TO_BYTES places each field at its schema position, word 0 first,
low byte first; every other bit is 0. -/
def Obligations.HdrToBytesPlacesFields : Prop :=
  ∀ (s : State) (h : Header), s.supported → s.cfg.wf = true →
    ∃ word0 word1 : Word,
      exec (.hdrToBytes h) s = .next (finish (.ok (.bytes (bytes32 word0 ++ bytes32 word1))) s) ∧
      (∀ k, k < 32 → word0.getLsbD k =
        ((decide (s.cfg.schema.objSidLsb ≤ k) && h.sid.getLsbD (k - s.cfg.schema.objSidLsb)) ||
          (decide (s.cfg.schema.objEidLsb ≤ k) && h.eid.getLsbD (k - s.cfg.schema.objEidLsb)))) ∧
      (∀ k, k < 32 → word1.getLsbD k =
        ((decide (s.cfg.schema.hdrDlcLsb ≤ k) && h.dlc.getLsbD (k - s.cfg.schema.hdrDlcLsb)) ||
          (decide (k = s.cfg.schema.hdrIdeBit) && h.ide) || (decide (k = s.cfg.schema.hdrRtrBit) && h.rtr) ||
          (decide (k = s.cfg.schema.hdrBrsBit) && h.brs) || (decide (k = s.cfg.schema.hdrFdfBit) && h.fdf) ||
          (decide (k = s.cfg.schema.hdrEsiBit) && h.esi) ||
          (decide (s.cfg.schema.hdrSeqLsb ≤ k) && h.tail.getLsbD (k - s.cfg.schema.hdrSeqLsb))))

/-- R93, R157, for every admissible schema. On every 8 bytes BYTES_TO_HDR ends with the header whose fields are, bit by bit,
those at the schema positions of word 0 (the first four bytes, low byte first) and word 1; no other bit of the bytes
matters, since these are all of a header's bits. The filter-hit index is its field of word 1, where the schema puts it
inside `tail`. And it gives back the header HDR_TO_BYTES made the bytes of (an inference of the spec). -/
def Obligations.HeaderBytesRoundTrip : Prop :=
  ∀ (s : State) (h : Header), s.supported → s.cfg.wf = true →
    exec (.bytesToHdr (headerToBytes s.cfg.schema h)) s = .next (finish (.ok (.header h)) s) ∧
    ∀ b : List Byte, b.length = 8 →
      let sc := s.cfg.schema
      let bit (k : Nat) : Bool := (b[k / 8]?.getD 0).getLsbD (k % 8)
      ∃ g : Header, exec (.bytesToHdr b) s = .next (finish (.ok (.header g)) s) ∧
        (∀ k, k < 11 → g.sid.getLsbD k = bit (sc.objSidLsb + k)) ∧
        (∀ k, k < 18 → g.eid.getLsbD k = bit (sc.objEidLsb + k)) ∧
        (∀ k, k < 4 → g.dlc.getLsbD k = bit (32 + (sc.hdrDlcLsb + k))) ∧
        g.ide = bit (32 + sc.hdrIdeBit) ∧ g.rtr = bit (32 + sc.hdrRtrBit) ∧ g.brs = bit (32 + sc.hdrBrsBit) ∧
        g.fdf = bit (32 + sc.hdrFdfBit) ∧ g.esi = bit (32 + sc.hdrEsiBit) ∧
        (∀ k, k < 23 → g.tail.getLsbD k = bit (32 + (sc.hdrSeqLsb + k))) ∧
        (sc.hdrSeqLsb ≤ sc.hdrFilhitLsb → sc.hdrFilhitLsb + 5 ≤ sc.hdrSeqLsb + 23 →
          ∀ k, k < 5 → (filterHit sc g).getLsbD k = bit (32 + (sc.hdrFilhitLsb + k)))

/-- R158 (an inference of the spec): through ENCODE, HDR_TO_BYTES, BYTES_TO_HDR and DECODE every frame comes back equal
in identifier, DLC and meaningful bytes, except that an extended identifier below 0x800 comes back as standard. -/
def Obligations.FrameRoundTrip : Prop :=
  ∀ (c : Config) (f : Frame), c.wf = true → f.wf = true →
    ∃ g, decodeFrame (bytesToHeader c.schema (headerToBytes c.schema (encodeFrame f).1)) (encodeFrame f).2 = some g ∧
      g.dlc = f.dlc ∧ meaningful g = meaningful f ∧
      match f.id with
      | .std v => g.id = .std v
      | .ext x => (0x800 ≤ x.toNat → g.id = .ext x) ∧ (x.toNat < 0x800 → g.id = .std (x.setWidth 11))

/-- R159: a 29-bit identifier splits into 11 low and 18 high bits and recombines to itself; 0x1ABCDE splits into 0x4DE
and 0x357. -/
def Obligations.IdentifierSplitRecombines : Prop :=
  (∀ x : BitVec 29, (splitId (.ext x)).sid.toNat = x.toNat % 2048 ∧ (splitId (.ext x)).eid.toNat = x.toNat / 2048 ∧
    (splitId (.ext x)).sid.setWidth 29 ||| ((splitId (.ext x)).eid.setWidth 29 <<< 11) = x) ∧
  splitId (.ext 0x1ABCDE) = { sid := 0x4DE, eid := 0x357, kind := true }

/-! ### Decoder and arbiter -/

/-- R180 (decision D7): FIFO_ADDR gives control, status and user address of FIFO 1..31 and refuses every other index. -/
def Obligations.FifoAddrResult : Prop :=
  ∀ (s : State) (i : Byte), s.supported →
    (1 ≤ i.toNat → i.toNat ≤ 31 → ∃ con sta ua : Addr,
      exec (.fifoAddr i) s = .next (finish (.ok (.fifoAddrs con sta ua)) s) ∧ con.toNat = 0x050 + 12 * i.toNat ∧
      sta.toNat = 0x054 + 12 * i.toNat ∧ ua.toNat = 0x058 + 12 * i.toNat) ∧
    (i.toNat < 1 ∨ 31 < i.toNat → exec (.fifoAddr i) s = .next (finish (.contractViolation .fifoIndex) s))

/-- R182 (the filter-control address and slot rest on SCHEMA, D30): FILTER_ADDR for filters 0..31. -/
def Obligations.FilterAddrResult : Prop :=
  ∀ (s : State) (n : Byte), s.supported → s.cfg.wf = true →
    (n.toNat ≤ 31 → ∃ obj mask fltcon : Addr, ∃ shift : Nat,
      exec (.filterAddr n) s = .next (finish (.ok (.filterAddrs obj mask fltcon shift)) s) ∧
      obj.toNat = 0x1F0 + 8 * n.toNat ∧ mask.toNat = 0x1F4 + 8 * n.toNat ∧
      fltcon.toNat = s.cfg.schema.addrFltconBase.toNat + 4 * (n.toNat / s.cfg.schema.fltconSlotsPerReg) ∧
      shift = s.cfg.schema.fltconSlotBits * (n.toNat % s.cfg.schema.fltconSlotsPerReg)) ∧
    (31 < n.toNat → exec (.filterAddr n) s = .next (finish (.contractViolation .filterIndex) s))

/-- R183: the bus-error flag wins, then the aggregate receive flag; every other bit is ignored. Its code is
0x22. -/
def Obligations.ArbitrateResult : Prop :=
  ∀ (s : State) (w : Word), s.supported →
    (w.getLsbD s.cfg.schema.intBusErrBit = true →
      exec (.arbitrate w) s = .next (finish (.ok (.arbitration .busError)) s)) ∧
    (w.getLsbD s.cfg.schema.intBusErrBit = false → w.getLsbD s.cfg.schema.intRxBit = true →
      exec (.arbitrate w) s = .next (finish (.ok (.arbitration .rxPending)) s)) ∧
    (w.getLsbD s.cfg.schema.intBusErrBit = false → w.getLsbD s.cfg.schema.intRxBit = false →
      exec (.arbitrate w) s = .next (finish (.ok (.arbitration .idle)) s)) ∧
    ∃ record, encode (.arbitrate w) = .host (0x22 :: record)

/-- R184, R185 (decision D14: bit 0 is never looked at): SCAN finds the lowest set bit of 1..31, and `None` when there
is none. -/
def Obligations.ScanResult : Prop :=
  ∀ (s : State) (w : Word), s.supported →
    (∀ i, FirstSet w i → exec (.scan w) s = .next (finish (.ok (.scan (some i))) s)) ∧
    ((∀ i, 1 ≤ i → i ≤ 31 → w.getLsbD i = false) → exec (.scan w) s = .next (finish (.ok (.scan none)) s))

/-! ### Dispatch -/

/-- R200, R201 (decisions D18, D19): on a FIFO that is not full TRANSMIT reads the user address, writes header, payload
and zero padding there in one transaction, then sets the increment and request-send bits of the control register. -/
def Obligations.TransmitSendsTheFrame : Prop :=
  ∀ (s : State) (i : Byte) (f : Frame), s.supported → s.cfg.wf = true → s.unfailing → f.wf = true →
    1 ≤ i.toNat → i.toNat ≤ 31 →
    let sc := s.cfg.schema
    let s1 := readDone (staOf i.toNat) 4 s
    let off := (registerAnswer (uaOf i.toNat) s1).toNat
    let s2 := readDone (uaOf i.toNat) 4 s1
    let n := dlcBytes f.dlc
    let object := headerToBytes sc (encodeFrame f).1 ++ f.data.take n ++ List.replicate (pad4 n - n) 0
    let bits : Word := (1#32 <<< sc.conUincBit) ||| (1#32 <<< sc.conTxreqBit)
    bitSet (registerAnswer (staOf i.toNat) s) sc.staNotFullBit = true →
    off % 4 = 0 → off + 8 + pad4 n ≤ 2048 →
      object.length = 8 + pad4 n ∧
      exec (.transmit i f) s = .next (finish (.ok .unit)
        (modifyDone (conOf i.toNat) bits bits (writeDone (windowAddr off) object s2)))

/-- R200, R247: when the "not full" flag is 0 TRANSMIT ends with `FifoFull` after that one READ; nothing is written. -/
def Obligations.TransmitOnFullFifo : Prop :=
  ∀ (s : State) (i : Byte) (f : Frame), s.supported → s.unfailing → 1 ≤ i.toNat → i.toNat ≤ 31 →
    bitSet (registerAnswer (staOf i.toNat) s) s.cfg.schema.staNotFullBit = false →
      exec (.transmit i f) s = .next (finish .fifoFull (readDone (staOf i.toNat) 4 s))

/-- R181, R200, R242: TRANSMIT refuses an index outside 1..31 with no traffic, and a user address that is misaligned or
leaves the window after the two reads. -/
def Obligations.TransmitViolations : Prop :=
  ∀ (s : State) (i : Byte) (f : Frame), s.supported →
    (i.toNat < 1 ∨ 31 < i.toNat → exec (.transmit i f) s = .next (finish (.contractViolation .fifoIndex) s)) ∧
    (1 ≤ i.toNat → i.toNat ≤ 31 → s.unfailing → f.wf = true →
      bitSet (registerAnswer (staOf i.toNat) s) s.cfg.schema.staNotFullBit = true →
      let s1 := readDone (staOf i.toNat) 4 s
      let off := (registerAnswer (uaOf i.toNat) s1).toNat
      (off % 4 ≠ 0 → exec (.transmit i f) s =
        .next (finish (.contractViolation .ramAlign) (readDone (uaOf i.toNat) 4 s1))) ∧
      (off % 4 = 0 → off + 8 + pad4 (dlcBytes f.dlc) > 2048 → exec (.transmit i f) s =
        .next (finish (.contractViolation .ramRange) (readDone (uaOf i.toNat) 4 s1))))

/-- R202, R205: when a pass finds a frame in FIFO i whose header and payload lie in the window, RECEIVE and RECEIVE_WAIT
read it, set the increment bit of FIFOCON(i) and end with the frame (decisions D18, D19). -/
def Obligations.ReceiveDeliversTheFrame : Prop :=
  ∀ (s : State) (i : Nat), s.supported → s.cfg.wf = true → s.unfailing → Finds i s →
    messageOffset i s % 4 = 0 → messageOffset i s + 8 ≤ 2048 →
    payloadOffset i s % 4 = 0 → payloadOffset i s + pad4 (payloadCount i s) ≤ 2048 →
    let h := messageHeader i s
    let n := payloadCount i s
    let bit : Word := 1#32 <<< s.cfg.schema.conUincBit
    let frame : Frame := { id := if h.eid = 0 then .std h.sid else .ext (h.eid ++ h.sid), dlc := h.dlc,
                           data := messagePayload i s ++ List.replicate (64 - n) 0, seq := none }
    ∀ op, op = .receive ∨ op = .receiveWait →
      exec op s = .next (finish (.ok (.frame frame)) (modifyDone (conOf i) bit bit (emptied i s)))

/-- R202, R203, R248 (decision D20): RECEIVE ends with `NothingPending` after one READ when neither flag is set, and
after two when the bitmap has no bit 1..31 set. -/
def Obligations.ReceiveFindsNothing : Prop :=
  ∀ s : State, s.supported → s.cfg.wf = true → s.unfailing →
    bitSet (polledStatus s) s.cfg.schema.intBusErrBit = false →
    (bitSet (polledStatus s) s.cfg.schema.intRxBit = false →
      exec .receive s = .next (finish .nothingPending (polled s))) ∧
    (bitSet (polledStatus s) s.cfg.schema.intRxBit = true →
      (∀ i, 1 ≤ i → i ≤ 31 → bitSet (polledBitmap s) i = false) →
      exec .receive s = .next (finish .nothingPending (mapped s)))

/-- R202, R244 (decision D18): a set bus-error flag wins over a pending frame; RECEIVE and RECEIVE_WAIT clear that bit
with a masked write of 0 and then end with `ControllerBusError`. -/
def Obligations.ReceiveReportsBusError : Prop :=
  ∀ s : State, s.supported → s.cfg.wf = true → s.unfailing →
    bitSet (polledStatus s) s.cfg.schema.intBusErrBit = true →
    ∀ op, op = .receive ∨ op = .receiveWait →
      exec op s = .next (finish .controllerBusError
        (modifyDone s.cfg.schema.addrInt (1#32 <<< s.cfg.schema.intBusErrBit) 0 (polled s)))

/-- R202, R242: a message that is misaligned or leaves the window ends RECEIVE after three READs for its header, after
four for its payload (alignment before range, decision D27; RX_PAYLOAD_OFFSET may misalign the payload of an aligned
message, and READ_BYTES's checks are made for an empty payload too, log entry 23); the pointer is not advanced. -/
def Obligations.ReceiveViolations : Prop :=
  ∀ (s : State) (i : Nat), s.supported → s.cfg.wf = true → s.unfailing → Finds i s →
    (messageOffset i s % 4 ≠ 0 → exec .receive s = .next (finish (.contractViolation .ramAlign) (located i s))) ∧
    (messageOffset i s % 4 = 0 → messageOffset i s + 8 > 2048 →
      exec .receive s = .next (finish (.contractViolation .ramRange) (located i s))) ∧
    (messageOffset i s % 4 = 0 → messageOffset i s + 8 ≤ 2048 → payloadOffset i s % 4 ≠ 0 →
      exec .receive s = .next (finish (.contractViolation .ramAlign) (headed i s))) ∧
    (messageOffset i s % 4 = 0 → messageOffset i s + 8 ≤ 2048 → payloadOffset i s % 4 = 0 →
      payloadOffset i s + pad4 (payloadCount i s) > 2048 →
      exec .receive s = .next (finish (.contractViolation .ramRange) (headed i s)))

/-- R205, R206: RECEIVE_WAIT's first pass is RECEIVE's: with any result but `NothingPending` it ends the same; with
`NothingPending` the block is suspended instead, having sent the same, with no result yet. -/
def Obligations.ReceiveWaitRunsAPassFirst : Prop :=
  ∀ (s t : State) (r : Result), Steady s → exec .receive s = .next t → t.result = some r →
    (r ≠ .nothingPending → exec .receiveWait s = .next t) ∧
    (r = .nothingPending → exec .receiveWait s =
      .next { t with run := .waiting (t.link.length - s.link.length) false, result := none })

/-- R206, R208 (decision D22): at the suspended block's turn, if the line allows it the next pass runs and ends like a
first pass, else nothing changes, for ever if the line stays so. -/
def Obligations.WaitEndsWhenTheLineAllows : Prop :=
  ∀ (s : State) (n : Nat) (fell : Bool), Steady s → s.supported → s.run = .waiting n fell → s.events = [] →
    let allowed := match s.cfg.irqWait with | .level => decide (s.irq = .low) | .edge => fell
    (allowed = false → step s = .next s) ∧
    (allowed = true → s.result = none → ∃ t u, exec .receiveWait s = .next t ∧ step s = .next u ∧
      { u with run := t.run } = t ∧
      (t.run = .idle → u.run = .idle) ∧ (∀ k b, t.run = .waiting k b → u.run = .waiting (n + k) b))

/-- R206: under `Edge` the wait remembers exactly a change of the line from High to Low after it began (log entry 20). -/
def Obligations.WaitRemembersAFall : Prop :=
  ∀ (s : State) (n : Nat) (fell : Bool) (l : IrqLevel) (es : List Event), s.run = .waiting n fell →
    s.events = .irq l :: es →
      step s = .next { s with events := es, irq := l, run := .waiting n (fell || (decide (s.irq = .high) && decide (l = .low))) }

/-- R207, R249 (decision D23): Cancel ends a suspended RECEIVE_WAIT with `Cancelled`, nothing sent; at any other time it
has no effect. R241: so does a wait that fails, with its error carried unchanged as `Transport(e)` (that the wait may
fail, and only while it lasts, is the model's choice, which R241 allows; log entry 19). -/
def Obligations.CancelActsOnlyOnTheWait : Prop :=
  ∀ (s : State) (es : List Event),
    (s.events = .cancel :: es →
      (∀ n fell, s.run = .waiting n fell →
        step s = .next { s with events := es, run := .idle, result := some .cancelled }) ∧
      (s.run = .idle → step s = .next { s with events := es })) ∧
    ∀ e, s.events = .waitFails e :: es →
      (∀ n fell, s.run = .waiting n fell →
        step s = .next { s with events := es, run := .idle, result := some (.transport e) }) ∧
      (s.run = .idle → step s = .next { s with events := es })

/-! ### Configuration -/

/-- R221 to R223 (decision D24): CONFIGURE_FIFO writes the whole control register once: FRESET, depth − 1, size class and
the fields of its direction at their schema positions, every other bit 0. -/
def Obligations.ConfigureFifoWritesControl : Prop :=
  ∀ (s : State) (i : Byte), s.supported → s.unfailing → 1 ≤ i.toNat → i.toNat ≤ 31 →
    let sc := s.cfg.schema
    (∀ (depth size priority : Byte) (r : Retransmit) (code : Nat), 1 ≤ depth.toNat → depth.toNat ≤ 32 →
      [8, 12, 16, 20, 24, 32, 48, 64][code]? = some size.toNat → priority.toNat ≤ 31 →
      exec (.configureFifo i (.tx depth size priority r)) s = .next (finish (.ok .unit) (writeDone (conOf i.toNat)
        (bytes32 ((BitVec.ofNat 32 (depth.toNat - 1) <<< sc.conFsizeLsb) ||| (BitVec.ofNat 32 code <<< sc.conPlsizeLsb)
          ||| (1#32 <<< sc.conFresetBit) ||| ((1#32 <<< sc.conTxenBit) ||| (BitVec.ofNat 32 priority.toNat <<< sc.conTxpriLsb)
          ||| (BitVec.ofNat 32 ((if r = .disabled then sc.txatDisabled else if r = .three then sc.txatThree
            else sc.txatUnlimited) % 4) <<< sc.conTxatLsb)))) s))) ∧
    ∀ (depth size : Byte) (timestamps : Bool) (code : Nat), 1 ≤ depth.toNat → depth.toNat ≤ 32 →
      [8, 12, 16, 20, 24, 32, 48, 64][code]? = some size.toNat →
      exec (.configureFifo i (.rx depth size timestamps)) s = .next (finish (.ok .unit) (writeDone (conOf i.toNat)
        (bytes32 ((BitVec.ofNat 32 (depth.toNat - 1) <<< sc.conFsizeLsb) ||| (BitVec.ofNat 32 code <<< sc.conPlsizeLsb)
          ||| (1#32 <<< sc.conFresetBit) ||| ((1#32 <<< sc.conNotEmptyIeBit)
          ||| ((if timestamps then 1#32 else 0#32) <<< sc.conRxtsBit)))) s))

/-- R221, R251 (decisions D24, D27): CONFIGURE_FIFO refuses an index outside 1..31 before a field out of range, with no
traffic. -/
def Obligations.ConfigureFifoViolations : Prop :=
  ∀ (s : State) (i : Byte) (spec : FifoSpec), s.supported →
    (i.toNat < 1 ∨ 31 < i.toNat → exec (.configureFifo i spec) s = .next (finish (.contractViolation .fifoIndex) s)) ∧
    (1 ≤ i.toNat → i.toNat ≤ 31 →
      (match spec with
        | .tx depth size priority _ => depth.toNat < 1 ∨ 32 < depth.toNat ∨
            size.toNat ∉ [8, 12, 16, 20, 24, 32, 48, 64] ∨ 31 < priority.toNat
        | .rx depth size _ => depth.toNat < 1 ∨ 32 < depth.toNat ∨ size.toNat ∉ [8, 12, 16, 20, 24, 32, 48, 64]) →
      exec (.configureFifo i spec) s = .next (finish (.contractViolation .fieldRange) s))

/-- R225, R226 (decisions D18, D25): CONFIGURE_FILTER writes the object word, then the mask word, then replaces exactly
filter n's slot of its control register by the enable bit and the FIFO index. -/
def Obligations.ConfigureFilterWritesPatternsThenSlot : Prop :=
  ∀ (s : State) (n : Byte) (f : FilterSpec) (m : MaskSpec), s.supported → s.cfg.wf = true → s.unfailing →
    n.toNat ≤ 31 → 1 ≤ f.fifo.toNat → f.fifo.toNat ≤ 31 →
    let sc := s.cfg.schema
    let word (id : Id) (kind : Bool) : Word := ((splitId id).sid.setWidth 32 <<< sc.objSidLsb)
      ||| ((splitId id).eid.setWidth 32 <<< sc.objEidLsb) ||| ((if kind then 1#32 else 0#32) <<< sc.fltExideBit)
    let s1 := writeDone (BitVec.ofNat 12 (0x1F0 + 8 * n.toNat)) (bytes32 (word f.id (splitId f.id).kind)) s
    let s2 := writeDone (BitVec.ofNat 12 (0x1F4 + 8 * n.toNat)) (bytes32 (word m.bits m.matchKind)) s1
    let shift := sc.fltconSlotBits * (n.toNat % sc.fltconSlotsPerReg)
    let fltcon := BitVec.ofNat 12 (sc.addrFltconBase.toNat + 4 * (n.toNat / sc.fltconSlotsPerReg))
    let slot : Word := (1#32 <<< sc.fltconEnBit) ||| (BitVec.ofNat 32 f.fifo.toNat <<< sc.fltconBpLsb)
    exec (.configureFilter n f m) s = .next (finish (.ok .unit)
        (modifyDone fltcon (BitVec.ofNat 32 (2 ^ sc.fltconSlotBits - 1) <<< shift) (slot <<< shift) s2))

/-- R225, R251 (decision D27): CONFIGURE_FILTER refuses a filter index above 31 before a target FIFO outside 1..31, with
no traffic. -/
def Obligations.ConfigureFilterViolations : Prop :=
  ∀ (s : State) (n : Byte) (f : FilterSpec) (m : MaskSpec), s.supported →
    (31 < n.toNat → exec (.configureFilter n f m) s = .next (finish (.contractViolation .filterIndex) s)) ∧
    (n.toNat ≤ 31 → f.fifo.toNat < 1 ∨ 31 < f.fifo.toNat →
      exec (.configureFilter n f m) s = .next (finish (.contractViolation .fifoIndex) s))
end

