-- ==== Sys2Proof/Laws/Memory.lean ====
section
/-! SUPPORT. The chip memory: a byte written is read back, every other byte is left alone, and every operation keeps the
canonical form. -/

namespace Sys2Proof.Machine

theorem Memory.wfFrom_mono {lo lo' : Nat} (h : lo ≤ lo') : ∀ {m : Memory}, Memory.wfFrom lo' m = true → Memory.wfFrom lo m = true
  | [], _ => rfl
  | (a, b) :: m, hm => by
    simp only [Memory.wfFrom, Bool.and_eq_true, decide_eq_true_eq] at hm ⊢
    exact ⟨⟨⟨by omega, hm.1.1.2⟩, hm.1.2⟩, hm.2⟩

/-- A canonical memory reads as unlisted below its first address. -/
theorem Memory.read_below {m : Memory} : ∀ {lo a : Nat}, Memory.wfFrom lo m = true → a < lo → Memory.read m a = Memory.unlisted := by
  induction m with
  | nil => intros; rfl
  | cons c m ih =>
    obtain ⟨a', b'⟩ := c
    intro lo a hm ha
    simp only [Memory.wfFrom, Bool.and_eq_true, decide_eq_true_eq] at hm
    have hne : a ≠ a' := by omega
    simp only [Memory.read, hne, if_false]
    exact ih hm.2 (by omega)

theorem Memory.read_write_other {a x : Nat} (b : Byte) (hx : x ≠ a) : ∀ (m : Memory), Memory.read (Memory.write m a b) x = Memory.read m x
  | [] => by
    unfold Memory.write; split <;> simp [Memory.read, hx]
  | (a', b') :: m => by
    have ih := Memory.read_write_other b hx m
    unfold Memory.write
    split
    · split <;> simp [Memory.read, hx]
    · split
      · subst_vars; split <;> simp [Memory.read, hx]
      · simp [Memory.read, ih]

theorem Memory.read_write_same {a : Nat} (b : Byte) : ∀ {m : Memory} {lo : Nat}, Memory.wfFrom lo m = true → Memory.read (Memory.write m a b) a = b
  | [], _, _ => by
    unfold Memory.write; split <;> simp_all [Memory.read]
  | (a', b') :: m, lo, hm => by
    simp only [Memory.wfFrom, Bool.and_eq_true, decide_eq_true_eq] at hm
    have ih := Memory.read_write_same (a := a) b hm.2
    have hbelow : ∀ x, x ≤ a' → Memory.read m x = Memory.unlisted := fun x hx => Memory.read_below hm.2 (by omega)
    unfold Memory.write
    split
    · rename_i hlt
      split
      · rename_i hb; simp [Memory.read, show a ≠ a' by omega, hbelow a (by omega), hb]
      · simp [Memory.read]
    · split
      · rename_i h; subst h
        split
        · rename_i hb; rw [hbelow a (le_refl a), hb]
        · simp [Memory.read]
      · rename_i h; simp [Memory.read, h, ih]

theorem Memory.write_wfFrom {a : Nat} (b : Byte) (ha : a < chipSpace) :
    ∀ {m : Memory} {lo : Nat}, lo ≤ a → Memory.wfFrom lo m = true → Memory.wfFrom lo (Memory.write m a b) = true
  | [], lo, hlo, _ => by
    unfold Memory.write; split <;> simp_all [Memory.wfFrom]
  | (a', b') :: m, lo, hlo, hm => by
    have hm' := hm
    simp only [Memory.wfFrom, Bool.and_eq_true, decide_eq_true_eq] at hm
    unfold Memory.write
    split
    · split
      · exact hm'
      · simp only [Memory.wfFrom, Bool.and_eq_true, decide_eq_true_eq, bne_iff_ne, ne_eq]
        exact ⟨⟨⟨hlo, ha⟩, ‹_›⟩, ⟨⟨by omega, hm.1.1.2⟩, by simpa using hm.1.2⟩, hm.2⟩
    · split
      · split
        · exact Memory.wfFrom_mono (by omega) hm.2
        · simp only [Memory.wfFrom, Bool.and_eq_true, decide_eq_true_eq, bne_iff_ne, ne_eq]
          subst_vars
          exact ⟨⟨⟨hlo, ha⟩, ‹_›⟩, hm.2⟩
      · simp only [Memory.wfFrom, Bool.and_eq_true, decide_eq_true_eq]
        exact ⟨hm.1, Memory.write_wfFrom b ha (by omega) hm.2⟩

/-- One stored byte keeps the canonical form. -/
theorem Memory.write_wf {m : Memory} {a : Nat} (b : Byte) (ha : a < chipSpace) (hm : Memory.wf m = true) :
    Memory.wf (Memory.write m a b) = true :=
  Memory.write_wfFrom b ha (Nat.zero_le a) hm

/-- A run of stored bytes inside the chip address space keeps the canonical form. -/
theorem Memory.writeBytes_wf : ∀ {data : List Byte} {m : Memory} {a : Nat}, a + data.length ≤ chipSpace → Memory.wf m = true →
    Memory.wf (Memory.writeBytes m a data) = true
  | [], _, _, _, hm => hm
  | b :: data, m, a, ha, hm => by
    simp only [List.length_cons] at ha
    rw [Memory.writeBytes]
    exact Memory.writeBytes_wf (m := Memory.write m a b) (by omega) (Memory.write_wf b (by omega) hm)

/-- Bytes outside a stored run are left alone. -/
theorem Memory.read_writeBytes_other : ∀ {data : List Byte} {m : Memory} {a x : Nat}, (x < a ∨ a + data.length ≤ x) →
    Memory.read (Memory.writeBytes m a data) x = Memory.read m x
  | [], _, _, _, _ => rfl
  | b :: data, m, a, x, hx => by
    simp only [List.length_cons] at hx
    rw [Memory.writeBytes, Memory.read_writeBytes_other (by omega), Memory.read_write_other b (by omega)]

/-- A stored run is read back byte by byte (R54). -/
theorem Memory.read_writeBytes_same : ∀ {data : List Byte} {m : Memory} {a k : Nat} (hk : k < data.length),
    a + data.length ≤ chipSpace → Memory.wf m = true → Memory.read (Memory.writeBytes m a data) (a + k) = data[k]
  | b :: data, m, a, 0, _, ha, hm => by
    simp only [List.length_cons] at ha
    rw [Memory.writeBytes, Memory.read_writeBytes_other (by omega)]
    exact Memory.read_write_same b hm
  | b :: data, m, a, k + 1, hk, ha, hm => by
    simp only [List.length_cons] at ha hk
    rw [Memory.writeBytes, show a + (k + 1) = a + 1 + k by omega]
    exact Memory.read_writeBytes_same (by omega) (by omega) (Memory.write_wf b (by omega) hm)

/-- Canonical memories that read alike are equal data. -/
theorem Memory.eq_of_read : ∀ {m m' : Memory} {lo lo' : Nat}, Memory.wfFrom lo m = true → Memory.wfFrom lo' m' = true →
    (∀ x, Memory.read m x = Memory.read m' x) → m = m'
  | [], [], _, _, _, _, _ => rfl
  | [], (a', b') :: m', _, _, _, hm', h => by
    simp only [Memory.wfFrom, Bool.and_eq_true, bne_iff_ne] at hm'
    exact absurd (by simpa [Memory.read] using (h a').symm) hm'.1.2
  | (a, b) :: m, [], _, _, hm, _, h => by
    simp only [Memory.wfFrom, Bool.and_eq_true, bne_iff_ne] at hm
    exact absurd (by simpa [Memory.read] using h a) hm.1.2
  | (a, b) :: m, (a', b') :: m', _, _, hm, hm', h => by
    simp only [Memory.wfFrom, Bool.and_eq_true, decide_eq_true_eq, bne_iff_ne] at hm hm'
    have haa : a = a' := by
      rcases Nat.lt_trichotomy a a' with hlt | he | hlt
      · have := h a
        rw [Memory.read, if_pos rfl, Memory.read, if_neg (by omega), Memory.read_below hm'.2 (by omega)] at this
        exact absurd this hm.1.2
      · exact he
      · have := h a'
        rw [Memory.read, if_neg (by omega), Memory.read_below hm.2 (by omega), Memory.read, if_pos rfl] at this
        exact absurd this.symm hm'.1.2
    subst haa
    have hbb : b = b' := by simpa [Memory.read] using h a
    have := Memory.eq_of_read hm.2 hm'.2 fun x => by
      by_cases hx : x = a
      · rw [Memory.read_below hm.2 (by omega), Memory.read_below hm'.2 (by omega)]
      · simpa [Memory.read, hx] using h x
    rw [hbb, this]

theorem Memory.length_readBytes (m : Memory) (a n : Nat) : (Memory.readBytes m a n).length = n := by
  simp [Memory.readBytes]

/-- Reading a run that was stored whole gives the stored bytes. -/
theorem Memory.readBytes_writeBytes {data : List Byte} {m : Memory} {a : Nat} (ha : a + data.length ≤ chipSpace)
    (hm : Memory.wf m = true) : Memory.readBytes (Memory.writeBytes m a data) a data.length = data := by
  apply List.ext_getElem (by simp [Memory.readBytes])
  intro k hk hk'
  simp only [Memory.readBytes, List.getElem_map, List.getElem_range]
  exact Memory.read_writeBytes_same hk' ha hm

end Sys2Proof.Machine
end

