-- ==== Sys2Proof/Laws/State.lean ====
section
/-! SUPPORT. One lemma per field of State and per named update of State, so that no proof unfolds a record update. -/

namespace Sys2Proof.Machine

@[simp] theorem begin_cfg (i : Instr) (s : State) : (begin i s).cfg = s.cfg := rfl
@[simp] theorem begin_cs (i : Instr) (s : State) : (begin i s).cs = s.cs := rfl
@[simp] theorem begin_run (i : Instr) (s : State) : (begin i s).run = .running i 0 [] := rfl
@[simp] theorem begin_wire (i : Instr) (s : State) : (begin i s).wire = s.wire := rfl
@[simp] theorem begin_irq (i : Instr) (s : State) : (begin i s).irq = s.irq := rfl
@[simp] theorem begin_requests (i : Instr) (s : State) : (begin i s).requests = s.requests := rfl
@[simp] theorem begin_events (i : Instr) (s : State) : (begin i s).events = s.events := rfl
@[simp] theorem begin_transport (i : Instr) (s : State) : (begin i s).transport = s.transport := rfl
@[simp] theorem begin_chip (i : Instr) (s : State) : (begin i s).chip = s.chip := rfl
@[simp] theorem begin_answers (i : Instr) (s : State) : (begin i s).answers = s.answers := rfl
@[simp] theorem begin_freeIdx (i : Instr) (s : State) : (begin i s).freeIdx = s.freeIdx := rfl
@[simp] theorem begin_mem (i : Instr) (s : State) : (begin i s).mem = s.mem := rfl
@[simp] theorem begin_chipMode (i : Instr) (s : State) : (begin i s).chipMode = s.chipMode := rfl
@[simp] theorem begin_link (i : Instr) (s : State) : (begin i s).link = s.link := rfl
@[simp] theorem begin_result (i : Instr) (s : State) : (begin i s).result = none := rfl

@[simp] theorem finish_cfg (r : Result) (s : State) : (finish r s).cfg = s.cfg := rfl
@[simp] theorem finish_cs (r : Result) (s : State) : (finish r s).cs = s.cs := rfl
@[simp] theorem finish_run (r : Result) (s : State) : (finish r s).run = .idle := rfl
@[simp] theorem finish_wire (r : Result) (s : State) : (finish r s).wire = s.wire := rfl
@[simp] theorem finish_irq (r : Result) (s : State) : (finish r s).irq = s.irq := rfl
@[simp] theorem finish_requests (r : Result) (s : State) : (finish r s).requests = s.requests := rfl
@[simp] theorem finish_events (r : Result) (s : State) : (finish r s).events = s.events := rfl
@[simp] theorem finish_transport (r : Result) (s : State) : (finish r s).transport = s.transport := rfl
@[simp] theorem finish_chip (r : Result) (s : State) : (finish r s).chip = s.chip := rfl
@[simp] theorem finish_answers (r : Result) (s : State) : (finish r s).answers = s.answers := rfl
@[simp] theorem finish_freeIdx (r : Result) (s : State) : (finish r s).freeIdx = s.freeIdx := rfl
@[simp] theorem finish_mem (r : Result) (s : State) : (finish r s).mem = s.mem := rfl
@[simp] theorem finish_chipMode (r : Result) (s : State) : (finish r s).chipMode = s.chipMode := rfl
@[simp] theorem finish_link (r : Result) (s : State) : (finish r s).link = s.link := rfl
@[simp] theorem finish_result (r : Result) (s : State) : (finish r s).result = some r := rfl

@[simp] theorem afterOutcome_cfg (s : State) : (afterOutcome s).cfg = s.cfg := rfl
@[simp] theorem afterOutcome_cs (s : State) : (afterOutcome s).cs = s.cs := rfl
@[simp] theorem afterOutcome_run (s : State) : (afterOutcome s).run = s.run := rfl
@[simp] theorem afterOutcome_wire (s : State) : (afterOutcome s).wire = s.wire := rfl
@[simp] theorem afterOutcome_irq (s : State) : (afterOutcome s).irq = s.irq := rfl
@[simp] theorem afterOutcome_requests (s : State) : (afterOutcome s).requests = s.requests := rfl
@[simp] theorem afterOutcome_events (s : State) : (afterOutcome s).events = s.events := rfl
@[simp] theorem afterOutcome_transport (s : State) : (afterOutcome s).transport = s.transport.tail := rfl
@[simp] theorem afterOutcome_chip (s : State) : (afterOutcome s).chip = s.chip := rfl
@[simp] theorem afterOutcome_answers (s : State) : (afterOutcome s).answers = s.answers := rfl
@[simp] theorem afterOutcome_freeIdx (s : State) : (afterOutcome s).freeIdx = s.freeIdx := rfl
@[simp] theorem afterOutcome_mem (s : State) : (afterOutcome s).mem = s.mem := rfl
@[simp] theorem afterOutcome_chipMode (s : State) : (afterOutcome s).chipMode = s.chipMode := rfl
@[simp] theorem afterOutcome_link (s : State) : (afterOutcome s).link = s.link := rfl
@[simp] theorem afterOutcome_result (s : State) : (afterOutcome s).result = s.result := rfl

@[simp] theorem sendBytes_cfg (bs : List Byte) (s : State) : (sendBytes bs s).cfg = s.cfg := rfl
@[simp] theorem sendBytes_cs (bs : List Byte) (s : State) : (sendBytes bs s).cs = s.cs := rfl
@[simp] theorem sendBytes_run (bs : List Byte) (s : State) : (sendBytes bs s).run = s.run := rfl
@[simp] theorem sendBytes_wire (bs : List Byte) (s : State) : (sendBytes bs s).wire = s.wire.map fun w => { w with mosi := w.mosi ++ bs } := rfl
@[simp] theorem sendBytes_irq (bs : List Byte) (s : State) : (sendBytes bs s).irq = s.irq := rfl
@[simp] theorem sendBytes_requests (bs : List Byte) (s : State) : (sendBytes bs s).requests = s.requests := rfl
@[simp] theorem sendBytes_events (bs : List Byte) (s : State) : (sendBytes bs s).events = s.events := rfl
@[simp] theorem sendBytes_transport (bs : List Byte) (s : State) : (sendBytes bs s).transport = s.transport := rfl
@[simp] theorem sendBytes_chip (bs : List Byte) (s : State) : (sendBytes bs s).chip = s.chip := rfl
@[simp] theorem sendBytes_answers (bs : List Byte) (s : State) : (sendBytes bs s).answers = s.answers := rfl
@[simp] theorem sendBytes_freeIdx (bs : List Byte) (s : State) : (sendBytes bs s).freeIdx = s.freeIdx := rfl
@[simp] theorem sendBytes_mem (bs : List Byte) (s : State) : (sendBytes bs s).mem = s.mem := rfl
@[simp] theorem sendBytes_chipMode (bs : List Byte) (s : State) : (sendBytes bs s).chipMode = s.chipMode := rfl
@[simp] theorem sendBytes_link (bs : List Byte) (s : State) : (sendBytes bs s).link = s.link := rfl
@[simp] theorem sendBytes_result (bs : List Byte) (s : State) : (sendBytes bs s).result = s.result := rfl

@[simp] theorem markLanded_cfg (k : Nat) (s : State) : (markLanded k s).cfg = s.cfg := rfl
@[simp] theorem markLanded_cs (k : Nat) (s : State) : (markLanded k s).cs = s.cs := rfl
@[simp] theorem markLanded_run (k : Nat) (s : State) : (markLanded k s).run = s.run := rfl
@[simp] theorem markLanded_wire (k : Nat) (s : State) : (markLanded k s).wire = s.wire.map fun w => { w with landed := some k } := rfl
@[simp] theorem markLanded_irq (k : Nat) (s : State) : (markLanded k s).irq = s.irq := rfl
@[simp] theorem markLanded_requests (k : Nat) (s : State) : (markLanded k s).requests = s.requests := rfl
@[simp] theorem markLanded_events (k : Nat) (s : State) : (markLanded k s).events = s.events := rfl
@[simp] theorem markLanded_transport (k : Nat) (s : State) : (markLanded k s).transport = s.transport := rfl
@[simp] theorem markLanded_chip (k : Nat) (s : State) : (markLanded k s).chip = s.chip := rfl
@[simp] theorem markLanded_answers (k : Nat) (s : State) : (markLanded k s).answers = s.answers := rfl
@[simp] theorem markLanded_freeIdx (k : Nat) (s : State) : (markLanded k s).freeIdx = s.freeIdx := rfl
@[simp] theorem markLanded_mem (k : Nat) (s : State) : (markLanded k s).mem = s.mem := rfl
@[simp] theorem markLanded_chipMode (k : Nat) (s : State) : (markLanded k s).chipMode = s.chipMode := rfl
@[simp] theorem markLanded_link (k : Nat) (s : State) : (markLanded k s).link = s.link := rfl
@[simp] theorem markLanded_result (k : Nat) (s : State) : (markLanded k s).result = s.result := rfl

@[simp] theorem readDone_cfg (a : Addr) (n : Nat) (s : State) : (readDone a n s).cfg = s.cfg := rfl
@[simp] theorem readDone_cs (a : Addr) (n : Nat) (s : State) : (readDone a n s).cs = .released := rfl
@[simp] theorem readDone_run (a : Addr) (n : Nat) (s : State) : (readDone a n s).run = s.run := rfl
@[simp] theorem readDone_wire (a : Addr) (n : Nat) (s : State) : (readDone a n s).wire = none := rfl
@[simp] theorem readDone_irq (a : Addr) (n : Nat) (s : State) : (readDone a n s).irq = s.irq := rfl
@[simp] theorem readDone_requests (a : Addr) (n : Nat) (s : State) : (readDone a n s).requests = s.requests := rfl
@[simp] theorem readDone_events (a : Addr) (n : Nat) (s : State) : (readDone a n s).events = s.events := rfl
@[simp] theorem readDone_transport (a : Addr) (n : Nat) (s : State) : (readDone a n s).transport = s.transport.drop 4 := rfl
@[simp] theorem readDone_chip (a : Addr) (n : Nat) (s : State) : (readDone a n s).chip = s.chip := rfl
@[simp] theorem readDone_answers (a : Addr) (n : Nat) (s : State) : (readDone a n s).answers = (afterCapture n s).answers := rfl
@[simp] theorem readDone_freeIdx (a : Addr) (n : Nat) (s : State) : (readDone a n s).freeIdx = (afterCapture n s).freeIdx := rfl
@[simp] theorem readDone_mem (a : Addr) (n : Nat) (s : State) : (readDone a n s).mem = s.mem := rfl
@[simp] theorem readDone_chipMode (a : Addr) (n : Nat) (s : State) : (readDone a n s).chipMode = s.chipMode := rfl
@[simp] theorem readDone_link (a : Addr) (n : Nat) (s : State) : (readDone a n s).link = s.link ++ [readTxn a n s] := rfl
@[simp] theorem readDone_result (a : Addr) (n : Nat) (s : State) : (readDone a n s).result = s.result := rfl

@[simp] theorem writeDone_cfg (a : Addr) (data : List Byte) (s : State) : (writeDone a data s).cfg = s.cfg := rfl
@[simp] theorem writeDone_cs (a : Addr) (data : List Byte) (s : State) : (writeDone a data s).cs = .released := rfl
@[simp] theorem writeDone_run (a : Addr) (data : List Byte) (s : State) : (writeDone a data s).run = s.run := rfl
@[simp] theorem writeDone_wire (a : Addr) (data : List Byte) (s : State) : (writeDone a data s).wire = none := rfl
@[simp] theorem writeDone_irq (a : Addr) (data : List Byte) (s : State) : (writeDone a data s).irq = s.irq := rfl
@[simp] theorem writeDone_requests (a : Addr) (data : List Byte) (s : State) : (writeDone a data s).requests = s.requests := rfl
@[simp] theorem writeDone_events (a : Addr) (data : List Byte) (s : State) : (writeDone a data s).events = s.events := rfl
@[simp] theorem writeDone_transport (a : Addr) (data : List Byte) (s : State) : (writeDone a data s).transport = s.transport.drop 3 := rfl
@[simp] theorem writeDone_chip (a : Addr) (data : List Byte) (s : State) : (writeDone a data s).chip = s.chip := rfl
@[simp] theorem writeDone_answers (a : Addr) (data : List Byte) (s : State) : (writeDone a data s).answers = s.answers := rfl
@[simp] theorem writeDone_freeIdx (a : Addr) (data : List Byte) (s : State) : (writeDone a data s).freeIdx = s.freeIdx := rfl
@[simp] theorem writeDone_mem (a : Addr) (data : List Byte) (s : State) : (writeDone a data s).mem = Memory.writeBytes s.mem a.toNat data := rfl
@[simp] theorem writeDone_chipMode (a : Addr) (data : List Byte) (s : State) : (writeDone a data s).chipMode = none := rfl
@[simp] theorem writeDone_link (a : Addr) (data : List Byte) (s : State) : (writeDone a data s).link = s.link ++ [writeTxn a data] := rfl
@[simp] theorem writeDone_result (a : Addr) (data : List Byte) (s : State) : (writeDone a data s).result = s.result := rfl

@[simp] theorem resetDone_cfg (s : State) : (resetDone s).cfg = s.cfg := rfl
@[simp] theorem resetDone_cs (s : State) : (resetDone s).cs = .released := rfl
@[simp] theorem resetDone_run (s : State) : (resetDone s).run = s.run := rfl
@[simp] theorem resetDone_wire (s : State) : (resetDone s).wire = none := rfl
@[simp] theorem resetDone_irq (s : State) : (resetDone s).irq = s.irq := rfl
@[simp] theorem resetDone_requests (s : State) : (resetDone s).requests = s.requests := rfl
@[simp] theorem resetDone_events (s : State) : (resetDone s).events = s.events := rfl
@[simp] theorem resetDone_transport (s : State) : (resetDone s).transport = s.transport.drop 3 := rfl
@[simp] theorem resetDone_chip (s : State) : (resetDone s).chip = s.chip := rfl
@[simp] theorem resetDone_answers (s : State) : (resetDone s).answers = s.answers := rfl
@[simp] theorem resetDone_freeIdx (s : State) : (resetDone s).freeIdx = s.freeIdx := rfl
@[simp] theorem resetDone_mem (s : State) : (resetDone s).mem = s.mem := rfl
@[simp] theorem resetDone_chipMode (s : State) : (resetDone s).chipMode = some .configuration := rfl
@[simp] theorem resetDone_link (s : State) : (resetDone s).link = s.link ++ [resetTxn] := rfl
@[simp] theorem resetDone_result (s : State) : (resetDone s).result = s.result := rfl

@[simp] theorem afterCapture_cfg (n : Nat) (s : State) : (afterCapture n s).cfg = s.cfg := by
  unfold afterCapture; split <;> rfl
@[simp] theorem afterCapture_cs (n : Nat) (s : State) : (afterCapture n s).cs = s.cs := by
  unfold afterCapture; split <;> rfl
@[simp] theorem afterCapture_run (n : Nat) (s : State) : (afterCapture n s).run = s.run := by
  unfold afterCapture; split <;> rfl
@[simp] theorem afterCapture_wire (n : Nat) (s : State) : (afterCapture n s).wire = s.wire := by
  unfold afterCapture; split <;> rfl
@[simp] theorem afterCapture_irq (n : Nat) (s : State) : (afterCapture n s).irq = s.irq := by
  unfold afterCapture; split <;> rfl
@[simp] theorem afterCapture_requests (n : Nat) (s : State) : (afterCapture n s).requests = s.requests := by
  unfold afterCapture; split <;> rfl
@[simp] theorem afterCapture_events (n : Nat) (s : State) : (afterCapture n s).events = s.events := by
  unfold afterCapture; split <;> rfl
@[simp] theorem afterCapture_transport (n : Nat) (s : State) : (afterCapture n s).transport = s.transport := by
  unfold afterCapture; split <;> rfl
@[simp] theorem afterCapture_chip (n : Nat) (s : State) : (afterCapture n s).chip = s.chip := by
  unfold afterCapture; split <;> rfl
@[simp] theorem afterCapture_mem (n : Nat) (s : State) : (afterCapture n s).mem = s.mem := by
  unfold afterCapture; split <;> rfl
@[simp] theorem afterCapture_chipMode (n : Nat) (s : State) : (afterCapture n s).chipMode = s.chipMode := by
  unfold afterCapture; split <;> rfl
@[simp] theorem afterCapture_link (n : Nat) (s : State) : (afterCapture n s).link = s.link := by
  unfold afterCapture; split <;> rfl
@[simp] theorem afterCapture_result (n : Nat) (s : State) : (afterCapture n s).result = s.result := by
  unfold afterCapture; split <;> rfl

end Sys2Proof.Machine
end

