-- ==== Sys2Proof/Laws/Bus.lean ====
section
/-! SUPPORT. What each shared operation can do, said once: the pieces of operations (pure, bind, require, orEnd), the
three transactions with every outcome of the transport, and the register and RAM accesses. -/

namespace Sys2Proof.Machine

/-! ### Pieces of operations -/

@[simp] theorem Op.pure_run {α : Type} (a : α) (s : State) : Op.pure a s = (.ok a, s) := rfl

@[simp] theorem endWith_run {α : Type} (r : Result) (s : State) : (endWith r : Op α) s = (.error r, s) := rfl

@[simp] theorem withConfig_run {α : Type} (f : Config → Op α) (s : State) : withConfig f s = f s.cfg s := rfl

theorem Op.bind_run {α β : Type} (m : Op α) (k : α → Op β) (s : State) :
    m.bind k s = match m s with | (.ok a, t) => k a t | (.error r, t) => (.error r, t) := rfl

theorem Op.bind_ok {α β : Type} {m : Op α} {k : α → Op β} {s t : State} {a : α} (h : m s = (.ok a, t)) :
    m.bind k s = k a t := by rw [Op.bind_run, h]

theorem Op.bind_error {α β : Type} {m : Op α} {k : α → Op β} {s t : State} {r : Result} (h : m s = (.error r, t)) :
    m.bind k s = (.error r, t) := by rw [Op.bind_run, h]

theorem Op.map_ok {α β : Type} {m : Op α} {f : α → β} {s t : State} {a : α} (h : m s = (.ok a, t)) :
    m.map f s = (.ok (f a), t) := by rw [Op.map, Op.bind_ok h, Op.pure_run]

theorem Op.map_error {α β : Type} {m : Op α} {f : α → β} {s t : State} {r : Result} (h : m s = (.error r, t)) :
    m.map f s = (.error r, t) := Op.bind_error h

@[simp] theorem require_true (r : Result) (s : State) : require true r s = (.ok (), s) := rfl

@[simp] theorem require_false (r : Result) (s : State) : require false r s = (.error r, s) := rfl

@[simp] theorem orEnd_some {α : Type} (r : Result) (a : α) (s : State) : orEnd r (some a) s = (.ok a, s) := rfl

@[simp] theorem orEnd_none {α : Type} (r : Result) (s : State) : (orEnd r none : Op α) s = (.error r, s) := rfl

/-! ### Wire command bytes (R84) -/

@[simp] theorem length_wireCommand (c : BitVec 4) (a : Addr) : (wireCommand c a).length = 2 := rfl

@[simp] theorem wireNibble_wireCommand (c : BitVec 4) (a : Addr) :
    wireNibble ((c.setWidth 8 <<< 4) ||| (a.extractLsb' 8 4).setWidth 8) = c := by
  unfold wireNibble
  ext i hi
  simp only [BitVec.getElem_extractLsb', BitVec.getLsbD_or, BitVec.getLsbD_shiftLeft, BitVec.getLsbD_setWidth, BitVec.getLsbD_extractLsb']
  interval_cases i <;> simp

@[simp] theorem wireAddress_wireCommand (c : BitVec 4) (a : Addr) :
    wireAddress ((c.setWidth 8 <<< 4) ||| (a.extractLsb' 8 4).setWidth 8) (a.extractLsb' 0 8) = a := by
  unfold wireAddress
  ext i hi
  simp only [BitVec.getElem_or, BitVec.getElem_shiftLeft, BitVec.getElem_setWidth, BitVec.getLsbD_or,
    BitVec.getLsbD_shiftLeft, BitVec.getLsbD_setWidth, BitVec.getLsbD_extractLsb']
  interval_cases i <;> simp

@[simp] theorem openAddress_wireCommand (c : BitVec 4) (a : Addr) (data : List Byte) :
    openAddress (wireCommand c a ++ data) = a.toNat := by
  simp [openAddress, wireCommand]

@[simp] theorem chipMemory_read (a : Addr) (data : List Byte) (l : Option Nat) (m : Memory) :
    chipMemory (wireCommand opRead a ++ data) l m = m := by
  simp only [chipMemory, wireCommand, List.cons_append, wireNibble_wireCommand]
  exact if_neg (by decide)

@[simp] theorem chipMemory_write (a : Addr) (data : List Byte) (m : Memory) :
    chipMemory (wireCommand opWrite a ++ data) none m = Memory.writeBytes m a.toNat data := by
  simp [chipMemory, wireCommand]

@[simp] theorem chipModeAfter_read (a : Addr) (data : List Byte) (c : Option ChipMode) :
    chipModeAfter (wireCommand opRead a ++ data) true c = c := by
  simp only [chipModeAfter, wireCommand, List.cons_append, if_true, wireNibble_wireCommand]
  exact if_neg (by decide)

@[simp] theorem chipModeAfter_write (a : Addr) (data : List Byte) (c : Option ChipMode) :
    chipModeAfter (wireCommand opWrite a ++ data) true c = none := by
  simp [chipModeAfter, wireCommand]

@[simp] theorem length_captured (s : State) (a n : Nat) : (captured s a n).length = n := by
  unfold captured; split
  · simp; omega
  · exact Memory.length_readBytes s.mem a n

theorem captured_congr {s t : State} (h1 : t.chip = s.chip) (h2 : t.answers = s.answers) (h3 : t.freeIdx = s.freeIdx)
    (h4 : t.mem = s.mem) (a n : Nat) : captured t a n = captured s a n := by
  unfold captured; rw [h1, h2, h3, h4]

/-! ### Primitives, by the outcome the transport has for them (R120) -/

/-- The state just after chip-select was asserted. -/
def opened (s : State) : State :=
  { afterOutcome s with cs := .asserted, wire := some { mosi := [], miso := [], landed := none } }

theorem mem_of_outcome {s : State} {f : Failure} (h : outcome s = some f) : some f ∈ s.transport := by
  unfold outcome at h
  cases ht : s.transport with
  | nil => simp [ht] at h
  | cons o os => simp [ht] at h; simp [h]

theorem mem_of_suffix {s t : State} {f : Failure} (h : outcome t = some f) (ht : t.transport <:+ s.transport) :
    some f ∈ s.transport := ht.subset (mem_of_outcome h)

theorem afterOutcome_suffix (s : State) : (afterOutcome s).transport <:+ s.transport := List.tail_suffix _

theorem afterOutcome_suffix₂ (s : State) : (afterOutcome (afterOutcome s)).transport <:+ s.transport :=
  (List.tail_suffix _).trans (List.tail_suffix _)

theorem afterOutcome_suffix₃ (s : State) : (afterOutcome (afterOutcome (afterOutcome s))).transport <:+ s.transport :=
  (List.tail_suffix _).trans (afterOutcome_suffix₂ s)

theorem csAssert_ok {s : State} (h : outcome s = none) : csAssert s = (.ok (), opened s) := by
  simp only [csAssert, h]; rfl

theorem csAssert_fails {s : State} {f : Failure} (h : outcome s = some f) :
    csAssert s = (.error (.transport f.err), afterOutcome s) := by
  simp only [csAssert, h]

theorem spiWrite_ok {s : State} (bs : List Byte) (h : outcome s = none) :
    spiWrite bs s = (.ok (), sendBytes bs (afterOutcome s)) := by
  simp only [spiWrite, h]

theorem spiWrite_fails {s : State} {f : Failure} (bs : List Byte) (h : outcome s = some f) :
    spiWrite bs s = (.error (.transport f.err), markLanded f.landed (sendBytes (bs.take f.sent) (afterOutcome s))) := by
  simp only [spiWrite, h]

/-- The state after a successful `SpiTransfer(n)`. -/
def transferred (n : Nat) (s : State) : State :=
  let r := captured s (openAddress (s.wire.elim [] (·.mosi))) n
  let t := sendBytes (List.replicate n placeholderByte) (afterCapture n (afterOutcome s))
  { t with wire := t.wire.map fun w => { w with miso := w.miso ++ r }, run := keepScratch r t.run }

theorem spiTransfer_ok {s : State} (n : Nat) (h : outcome s = none) :
    spiTransfer n s = (.ok (captured s (openAddress (s.wire.elim [] (·.mosi))) n), transferred n s) := by
  simp only [spiTransfer, h]; rfl

theorem spiTransfer_fails {s : State} {f : Failure} (n : Nat) (h : outcome s = some f) :
    spiTransfer n s = (.error (.transport f.err), markLanded f.landed
      (sendBytes ((List.replicate n placeholderByte).take f.sent) (afterOutcome s))) := by
  simp only [spiTransfer, h]

theorem csRelease_ok {s : State} (h : outcome s = none) : csRelease s = (.ok (), closeTxn true (afterOutcome s)) := by
  simp only [csRelease, h]

theorem csRelease_fails {s : State} {f : Failure} (h : outcome s = some f) :
    csRelease s = (.error (.transport f.err), markLanded f.landed (afterOutcome s)) := by
  simp only [csRelease, h]

/-! ### A framed transaction (R80, R122) -/

section
variable {α : Type} {body : Op α} {s t : State} {a : α} {r : Result} {f : Failure}

theorem framed_ok (h0 : outcome s = none) (hb : body (opened s) = (.ok a, t)) (h1 : outcome t = none) :
    framed body s = (.ok a, closeTxn true (afterOutcome t)) := by
  simp only [framed, Op.bind_ok (csAssert_ok h0), Op.bind_ok hb, Op.bind_ok (csRelease_ok h1), Op.pure_run]

theorem framed_assert_fails (h0 : outcome s = some f) :
    framed body s = (.error (.transport f.err), releaseAfterFailure (afterOutcome s)) := by
  simp only [framed, Op.bind_error (csAssert_fails h0)]

theorem framed_body_fails (h0 : outcome s = none) (hb : body (opened s) = (.error r, t)) :
    framed body s = (.error r, releaseAfterFailure t) := by
  simp only [framed, Op.bind_ok (csAssert_ok h0), Op.bind_error hb]

theorem framed_release_fails (h0 : outcome s = none) (hb : body (opened s) = (.ok a, t)) (h1 : outcome t = some f) :
    framed body s = (.error (.transport f.err), releaseAfterFailure (markLanded f.landed (afterOutcome t))) := by
  simp only [framed, Op.bind_ok (csAssert_ok h0), Op.bind_ok hb, Op.bind_error (csRelease_fails h1)]

end

/-! ### Transactions that run to their end -/

/-- The state after a READ transaction as the operation in progress sees it: `readDone`, and the progress of `run`. -/
def readNoted (a : Addr) (n : Nat) (s : State) : State :=
  { readDone a n s with run := countTxn (keepScratch (captured s a.toNat n) s.run) }

/-- The state after a WRITE transaction as the operation in progress sees it. -/
def writeNoted (a : Addr) (data : List Byte) (s : State) : State :=
  { writeDone a data s with run := countTxn s.run }

/-- The state after a RESET transaction as the operation in progress sees it. -/
def resetNoted (s : State) : State := { resetDone s with run := countTxn s.run }

theorem tail_three {α : Type} : ∀ l : List α, l.tail.tail.tail = l.drop 3
  | [] => rfl
  | [_] => rfl
  | [_, _] => rfl
  | _ :: _ :: _ :: _ => rfl

theorem tail_four {α : Type} (l : List α) : l.tail.tail.tail.tail = l.drop 4 := by
  rw [tail_three]; cases l <;> rfl

theorem outcome_eq_of_transport {s t : State} (h : t.transport = s.transport) : outcome t = outcome s := by
  unfold outcome; rw [h]

theorem busReset_ok {s : State} (h0 : outcome s = none) (h1 : outcome (afterOutcome s) = none)
    (h2 : outcome (afterOutcome (afterOutcome s)) = none) : busReset s = (.ok (), resetNoted s) := by
  have hb := spiWrite_ok (s := opened s) [resetByte] h1
  rw [busReset, framed_ok h0 hb h2]
  simp [closeTxn, opened, afterOutcome, sendBytes, resetNoted, resetDone, resetTxn, resetByte, chipMemory, chipModeAfter, tail_three]

theorem busWrite_ok {s : State} (a : Addr) (data : List Byte) (h0 : outcome s = none)
    (h1 : outcome (afterOutcome s) = none) (h2 : outcome (afterOutcome (afterOutcome s)) = none) :
    busWrite a data s = (.ok (), writeNoted a data s) := by
  have hb := spiWrite_ok (s := opened s) (wireCommand opWrite a ++ data) h1
  rw [busWrite, framed_ok h0 hb h2]
  simp [closeTxn, opened, afterOutcome, sendBytes, writeNoted, writeDone, writeTxn, tail_three]

theorem busRead_ok {s : State} (a : Addr) (n : Nat) (h0 : outcome s = none) (h1 : outcome (afterOutcome s) = none)
    (h2 : outcome (afterOutcome (afterOutcome s)) = none)
    (h3 : outcome (afterOutcome (afterOutcome (afterOutcome s))) = none) :
    busRead a n s = (.ok (captured s a.toNat n), readNoted a n s) := by
  have hw := spiWrite_ok (s := opened s) (wireCommand opRead a) h1
  have ht := spiTransfer_ok (s := sendBytes (wireCommand opRead a) (afterOutcome (opened s))) n h2
  have hadr : openAddress ((sendBytes (wireCommand opRead a) (afterOutcome (opened s))).wire.elim [] (·.mosi)) = a.toNat := by
    simpa [sendBytes, opened] using openAddress_wireCommand opRead a []
  have hcap : captured (sendBytes (wireCommand opRead a) (afterOutcome (opened s))) a.toNat n = captured s a.toNat n :=
    captured_congr rfl rfl rfl rfl _ _
  have hr : outcome (transferred n (sendBytes (wireCommand opRead a) (afterOutcome (opened s)))) = none := by
    rw [← h3]; apply outcome_eq_of_transport; simp [transferred, opened]
  rw [busRead, framed_ok h0 ((Op.bind_ok hw).trans ht) hr, hadr, hcap]
  have hac : afterCapture n (afterOutcome (sendBytes (wireCommand opRead a) (afterOutcome (opened s))))
      = sendBytes (wireCommand opRead a) (afterOutcome (afterOutcome (opened (afterCapture n s)))) := by
    unfold afterCapture; simp only [afterOutcome_chip, sendBytes_chip]
    cases hc : s.chip <;> simp [opened, afterOutcome, sendBytes, hc]
  simp only [transferred, hadr, hcap, hac]
  simp [closeTxn, opened, afterOutcome, sendBytes, readNoted, readDone, readTxn, zeros, placeholderByte, tail_four]

/-! ### With no failure ahead -/

theorem State.unfailing.outcome {s : State} (h : s.unfailing) : outcome s = none := by
  unfold Machine.outcome
  cases ht : s.transport with
  | nil => rfl
  | cons o os => exact h o (by simp [ht])

theorem State.unfailing.of_drop {s t : State} (h : s.unfailing) {k : Nat} (ht : t.transport = s.transport.drop k) : t.unfailing := by
  intro o ho
  exact h o (List.mem_of_mem_drop (ht ▸ ho))

theorem State.unfailing.afterOutcome {s : State} (h : s.unfailing) : (afterOutcome s).unfailing :=
  h.of_drop (k := 1) (by simp)

theorem State.unfailing.readDone {s : State} (h : s.unfailing) (a : Addr) (n : Nat) : (readDone a n s).unfailing := h.of_drop rfl

theorem State.unfailing.writeDone {s : State} (h : s.unfailing) (a : Addr) (d : List Byte) : (writeDone a d s).unfailing := h.of_drop rfl

theorem busReset_unfailing {s : State} (h : s.unfailing) : busReset s = (.ok (), resetNoted s) :=
  busReset_ok h.outcome h.afterOutcome.outcome h.afterOutcome.afterOutcome.outcome

theorem busWrite_unfailing {s : State} (a : Addr) (data : List Byte) (h : s.unfailing) :
    busWrite a data s = (.ok (), writeNoted a data s) :=
  busWrite_ok a data h.outcome h.afterOutcome.outcome h.afterOutcome.afterOutcome.outcome

theorem busRead_unfailing {s : State} (a : Addr) (n : Nat) (h : s.unfailing) :
    busRead a n s = (.ok (captured s a.toNat n), readNoted a n s) :=
  busRead_ok a n h.outcome h.afterOutcome.outcome h.afterOutcome.afterOutcome.outcome
    h.afterOutcome.afterOutcome.afterOutcome.outcome

/-! ### Transactions cut short -/

/-- A transaction begun in `s` is open in `t`; so far it has sent a front part of `mosi` and captured one of `miso`. -/
structure Mid (mosi miso : List Byte) (s t : State) : Prop where
  cfg      : t.cfg = s.cfg
  irq      : t.irq = s.irq
  requests : t.requests = s.requests
  events   : t.events = s.events
  chip     : t.chip = s.chip
  result   : t.result = s.result
  plan     : t.transport <:+ s.transport
  link     : t.link = s.link
  mem      : t.mem = s.mem
  asserted : t.cs = .asserted
  isOpen   : ∃ w, t.wire = some w ∧ w.mosi <+: mosi ∧ w.miso <+: miso

/-- What a transaction cut short by a transport failure leaves (R122): chip-select released, at most a front part of the
transaction on the record, and of chip memory at most what that front part stores. -/
structure Cut (mosi miso : List Byte) (s t : State) : Prop where
  cfg       : t.cfg = s.cfg
  irq       : t.irq = s.irq
  requests  : t.requests = s.requests
  events    : t.events = s.events
  chip      : t.chip = s.chip
  result    : t.result = s.result
  plan      : t.transport <:+ s.transport
  released  : t.cs = .released
  noOpenTxn : t.wire = none
  link      : t.link = s.link ∨ ∃ p q, t.link = s.link ++ [{ mosi := p, miso := q, whole := false }] ∧ p <+: mosi ∧ q <+: miso
  mem       : t.mem = s.mem ∨ ∃ p l, p <+: mosi ∧ t.mem = chipMemory p l s.mem

theorem Mid.afterOutcome {mosi miso : List Byte} {s t : State} (h : Mid mosi miso s t) : Mid mosi miso s (afterOutcome t) :=
  ⟨h.cfg, h.irq, h.requests, h.events, h.chip, h.result, (List.tail_suffix _).trans h.plan, h.link, h.mem, h.asserted, h.isOpen⟩

theorem Mid.markLanded {mosi miso : List Byte} {s t : State} (h : Mid mosi miso s t) (k : Nat) : Mid mosi miso s (markLanded k t) := by
  obtain ⟨w, hw, h1, h2⟩ := h.isOpen
  exact ⟨h.cfg, h.irq, h.requests, h.events, h.chip, h.result, h.plan, h.link, h.mem, h.asserted,
    { w with landed := some k }, by simp [hw], h1, h2⟩

theorem Mid.releaseAfterFailure {mosi miso : List Byte} {s t : State} (h : Mid mosi miso s t) :
    Cut mosi miso s (releaseAfterFailure t) := by
  obtain ⟨w, hw, h1, h2⟩ := h.isOpen
  simp only [Machine.releaseAfterFailure, h.asserted, closeTxn, afterOutcome_wire, hw]
  exact ⟨h.cfg, h.irq, h.requests, h.events, h.chip, h.result, (List.tail_suffix _).trans h.plan, rfl, rfl,
    .inr ⟨w.mosi, w.miso, by simp [h.link], h1, h2⟩, .inr ⟨w.mosi, w.landed, h1, by simp [h.mem]⟩⟩

theorem mid_opened (mosi miso : List Byte) (s : State) : Mid mosi miso s (opened s) :=
  ⟨rfl, rfl, rfl, rfl, rfl, rfl, List.tail_suffix _, rfl, rfl, rfl, _, rfl, List.nil_prefix, List.nil_prefix⟩

/-- A front part `bs` of what remains is sent. -/
theorem mid_sent {mosi miso bs : List Byte} {s t : State} (h : Mid mosi miso s t)
    (hw : ∀ w, t.wire = some w → w.mosi ++ bs <+: mosi) : Mid mosi miso s (sendBytes bs t) := by
  obtain ⟨w, hw', _, h2⟩ := h.isOpen
  exact ⟨h.cfg, h.irq, h.requests, h.events, h.chip, h.result, h.plan, h.link, h.mem, h.asserted,
    { w with mosi := w.mosi ++ bs }, by simp [hw'], hw w hw', h2⟩

/-- `CsAssert` failing leaves the released block as it was, one outcome further. -/
theorem cut_assert {mosi miso : List Byte} {s : State} (hcs : s.cs = .released) (hw : s.wire = none) :
    Cut mosi miso s (releaseAfterFailure (afterOutcome s)) := by
  have : releaseAfterFailure (afterOutcome s) = afterOutcome s := by simp [releaseAfterFailure, hcs]
  rw [this]
  exact ⟨rfl, rfl, rfl, rfl, rfl, rfl, List.tail_suffix _, hcs, hw, .inl rfl, .inl rfl⟩

/-- The send-only transactions: done whole, or cut short with a transport error. -/
theorem framed_spiWrite_cases (bs : List Byte) {s : State} (hcs : s.cs = .released) (hw : s.wire = none) :
    (outcome s = none ∧ outcome (afterOutcome s) = none ∧ outcome (afterOutcome (afterOutcome s)) = none) ∨
      ∃ f t, some f ∈ s.transport ∧ framed (spiWrite bs) s = (.error (.transport f.err), t) ∧ Cut bs [] s t := by
  cases h0 : outcome s with
  | some f => exact .inr ⟨_, _, mem_of_outcome h0, framed_assert_fails h0, cut_assert hcs hw⟩
  | none =>
    have hmid := mid_opened bs [] s
    cases h1 : outcome (afterOutcome s) with
    | some f =>
      refine .inr ⟨_, _, mem_of_suffix h1 (afterOutcome_suffix s), framed_body_fails h0 (spiWrite_fails (s := opened s) bs h1), ?_⟩
      exact (((mid_sent hmid.afterOutcome (by
        intro w hw; cases hw; exact List.take_prefix _ _)).markLanded _)).releaseAfterFailure
    | none =>
      cases h2 : outcome (afterOutcome (afterOutcome s)) with
      | none => exact .inl ⟨rfl, rfl, rfl⟩
      | some f =>
        refine .inr ⟨_, _, mem_of_suffix h2 (afterOutcome_suffix₂ s), framed_release_fails h0 (spiWrite_ok (s := opened s) bs h1) h2, ?_⟩
        exact ((mid_sent hmid.afterOutcome (by
          intro w hw; cases hw; exact List.prefix_rfl)).afterOutcome.markLanded _).releaseAfterFailure

/-- RESET transaction, every case. -/
theorem busReset_cases {s : State} (hcs : s.cs = .released) (hw : s.wire = none) :
    busReset s = (.ok (), resetNoted s) ∨ ∃ f t, some f ∈ s.transport ∧ busReset s = (.error (.transport f.err), t) ∧ Cut [0x00] [] s t :=
  (framed_spiWrite_cases [resetByte] hcs hw).imp (fun h => busReset_ok h.1 h.2.1 h.2.2) id

/-- WRITE transaction, every case. -/
theorem busWrite_cases (a : Addr) (data : List Byte) {s : State} (hcs : s.cs = .released) (hw : s.wire = none) :
    busWrite a data s = (.ok (), writeNoted a data s) ∨
      ∃ f t, some f ∈ s.transport ∧ busWrite a data s = (.error (.transport f.err), t) ∧ Cut (wireCommand opWrite a ++ data) [] s t :=
  (framed_spiWrite_cases _ hcs hw).imp (fun h => busWrite_ok a data h.1 h.2.1 h.2.2) id

/-- READ transaction, every case. -/
theorem busRead_cases (a : Addr) (n : Nat) {s : State} (hcs : s.cs = .released) (hw : s.wire = none) :
    busRead a n s = (.ok (captured s a.toNat n), readNoted a n s) ∨
      ∃ f t, some f ∈ s.transport ∧ busRead a n s = (.error (.transport f.err), t) ∧
        Cut (wireCommand opRead a ++ zeros n) (captured s a.toNat n) s t := by
  cases h0 : outcome s with
  | some f => exact .inr ⟨_, _, mem_of_outcome h0, framed_assert_fails h0, cut_assert hcs hw⟩
  | none =>
    have hmid := mid_opened (wireCommand opRead a ++ zeros n) (captured s a.toNat n) s
    cases h1 : outcome (afterOutcome s) with
    | some f =>
      refine .inr ⟨_, _, mem_of_suffix h1 (afterOutcome_suffix s), framed_body_fails h0 (Op.bind_error (spiWrite_fails (s := opened s) _ h1)), ?_⟩
      exact ((mid_sent hmid.afterOutcome (by
        intro w hw; cases hw; exact (List.take_prefix _ _).trans (List.prefix_append _ _))).markLanded _).releaseAfterFailure
    | none =>
      have hw1 := spiWrite_ok (s := opened s) (wireCommand opRead a) h1
      have hmid1 : Mid (wireCommand opRead a ++ zeros n) (captured s a.toNat n) s
          (sendBytes (wireCommand opRead a) (afterOutcome (opened s))) :=
        mid_sent hmid.afterOutcome (by intro w hw; cases hw; exact List.prefix_append _ _)
      cases h2 : outcome (afterOutcome (afterOutcome s)) with
      | some f =>
        refine .inr ⟨_, _, mem_of_suffix h2 (afterOutcome_suffix₂ s), framed_body_fails h0 ((Op.bind_ok hw1).trans
          (spiTransfer_fails (s := sendBytes (wireCommand opRead a) (afterOutcome (opened s))) n h2)), ?_⟩
        exact ((mid_sent hmid1.afterOutcome (by
          intro w hw; cases hw
          exact (List.prefix_append_right_inj _).2 (List.take_prefix _ _))).markLanded _).releaseAfterFailure
      | none =>
        cases h3 : outcome (afterOutcome (afterOutcome (afterOutcome s))) with
        | none => exact .inl (busRead_ok a n h0 h1 h2 h3)
        | some f =>
          have ht := spiTransfer_ok (s := sendBytes (wireCommand opRead a) (afterOutcome (opened s))) n h2
          have hr : outcome (transferred n (sendBytes (wireCommand opRead a) (afterOutcome (opened s)))) = some f := by
            rw [← h3]; apply outcome_eq_of_transport; simp [transferred, opened]
          refine .inr ⟨_, _, mem_of_suffix h3 (afterOutcome_suffix₃ s), framed_release_fails h0 ((Op.bind_ok hw1).trans ht) hr, ?_⟩
          refine ((Mid.afterOutcome ?_).markLanded _).releaseAfterFailure
          have hcap : captured (sendBytes (wireCommand opRead a) (afterOutcome (opened s))) a.toNat n = captured s a.toNat n :=
            captured_congr rfl rfl rfl rfl _ _
          refine ⟨by simp [transferred, opened], by simp [transferred, opened], by simp [transferred, opened],
            by simp [transferred, opened], by simp [transferred, opened], by simp [transferred, opened],
            by simp only [transferred, sendBytes_transport, afterCapture_transport]; exact afterOutcome_suffix₃ s,
            by simp [transferred, opened], by simp [transferred, opened], by simp [transferred, opened], _,
            by simp only [transferred, sendBytes_wire, afterCapture_wire, afterOutcome_wire, opened, Option.map_some]; rfl,
            by simp [zeros, placeholderByte], ?_⟩
          have hadr' : openAddress (wireCommand opRead a) = a.toNat := by simpa using openAddress_wireCommand opRead a []
          simp only [List.nil_append, Option.elim_some, hadr']
          exact hcap ▸ List.prefix_rfl

/-- A front part of a READ transaction stores nothing. -/
theorem chipMemory_front_read {a : Addr} {data p : List Byte} (l : Option Nat) (m : Memory)
    (hp : p <+: wireCommand opRead a ++ data) : chipMemory p l m = m := by
  obtain ⟨q, hq⟩ := hp
  match p, hq with
  | [], _ => rfl
  | [_], _ => rfl
  | b0 :: b1 :: rest, hq =>
    simp only [wireCommand, List.cons_append, List.cons.injEq] at hq
    simp only [chipMemory, hq.1, wireNibble_wireCommand]
    exact if_neg (by decide)

/-- A front part of a WRITE transaction stores a front part of its data. -/
theorem chipMemory_front_write {a : Addr} {data p : List Byte} (l : Option Nat) (m : Memory)
    (hp : p <+: wireCommand opWrite a ++ data) :
    ∃ d, d <+: data ∧ chipMemory p l m = Memory.writeBytes m a.toNat d := by
  obtain ⟨q, hq⟩ := hp
  match p, hq with
  | [], _ => exact ⟨[], List.nil_prefix, rfl⟩
  | [_], _ => exact ⟨[], List.nil_prefix, rfl⟩
  | b0 :: b1 :: rest, hq =>
    simp only [wireCommand, List.cons_append, List.nil_append, List.cons.injEq] at hq
    have hrest : rest <+: data := ⟨q, hq.2.2⟩
    simp only [chipMemory, hq.1, hq.2.1, wireNibble_wireCommand, wireAddress_wireCommand, if_true]
    cases l with
    | none => exact ⟨rest, hrest, rfl⟩
    | some k => exact ⟨rest.take k, (List.take_prefix k rest).trans hrest, rfl⟩

/-- A RESET transaction stores nothing. -/
theorem chipMemory_front_reset {p : List Byte} (l : Option Nat) (m : Memory) (hp : p <+: [0x00]) : chipMemory p l m = m := by
  obtain ⟨q, hq⟩ := hp
  match p, hq with
  | [], _ => rfl
  | [_], _ => rfl

end Sys2Proof.Machine
end

