-- ==== Sys2Proof/Laws/Blind.lean ====
section
/-! SUPPORT. No piece of an operation looks at the interrupt line, at the progress record, at the result or at the record
of the link: it does the same on states that differ in those four fields only. So an operation may be run on the state
with progress and result wiped, and after any record of earlier transactions. -/

namespace Sys2Proof.Machine

/-- A change of the four fields no piece of an operation looks at. -/
structure Tweak where
  onRun    : Run → Run
  onIrq    : IrqLevel → IrqLevel
  onResult : Option Result → Option Result
  onLink   : List Txn → List Txn
  /-- The change agrees with counting a transaction. -/
  counts   : ∀ r, onRun (countTxn r) = countTxn (onRun r)
  /-- The change agrees with keeping scratch values. -/
  keeps    : ∀ bs r, onRun (keepScratch bs r) = keepScratch bs (onRun r)
  /-- The change agrees with recording a transaction. -/
  records  : ∀ l x, onLink (l ++ [x]) = onLink l ++ [x]

def Tweak.apply (φ : Tweak) (s : State) : State :=
  { s with run := φ.onRun s.run, irq := φ.onIrq s.irq, result := φ.onResult s.result, link := φ.onLink s.link }

/-- The piece gives the same value and the same change of everything else. -/
def Op.Blind {α : Type} (m : Op α) : Prop := ∀ (φ : Tweak) (s : State), m (φ.apply s) = ((m s).1, φ.apply (m s).2)

section
variable {α β : Type}

theorem Op.Blind.pure (a : α) : (Op.pure a).Blind := fun _ _ => rfl

theorem Op.Blind.endWith (r : Result) : (Machine.endWith r : Op α).Blind := fun _ _ => rfl

theorem Op.Blind.bind {m : Op α} {k : α → Op β} (hm : m.Blind) (hk : ∀ a, (k a).Blind) : (m.bind k).Blind := by
  intro φ s
  simp only [Op.bind_run, hm φ s]
  obtain ⟨x, t⟩ := m s
  cases x with
  | ok a => exact hk a φ t
  | error r => rfl

theorem Op.Blind.map {m : Op α} (f : α → β) (hm : m.Blind) : (m.map f).Blind := hm.bind fun a => .pure (f a)

theorem Op.Blind.unitValue {m : Op Unit} (hm : m.Blind) : (Machine.unitValue m).Blind := hm.map _

theorem Op.Blind.require (b : Bool) (r : Result) : (Machine.require b r).Blind := by
  cases b
  · exact .endWith r
  · exact .pure ()

theorem Op.Blind.orEnd (r : Result) (o : Option α) : (Machine.orEnd r o).Blind := by
  cases o
  · exact .endWith r
  · exact .pure _

theorem Op.Blind.withConfig {f : Config → Op α} (hf : ∀ c, (f c).Blind) : (Machine.withConfig f).Blind :=
  fun φ s => hf s.cfg φ s

/-! ### Primitives -/

theorem Op.Blind.csAssert : Machine.csAssert.Blind := by
  intro φ s
  cases h : outcome s with
  | none => rw [csAssert_ok h, csAssert_ok (s := φ.apply s) h]; rfl
  | some f => rw [csAssert_fails h, csAssert_fails (s := φ.apply s) h]; rfl

theorem Op.Blind.spiWrite (bs : List Byte) : (Machine.spiWrite bs).Blind := by
  intro φ s
  cases h : outcome s with
  | none => rw [spiWrite_ok bs h, spiWrite_ok (s := φ.apply s) bs h]; rfl
  | some f => rw [spiWrite_fails bs h, spiWrite_fails (s := φ.apply s) bs h]; rfl

theorem Tweak.afterCapture (φ : Tweak) (n : Nat) (s : State) :
    Machine.afterCapture n (φ.apply s) = φ.apply (Machine.afterCapture n s) := by
  unfold Machine.afterCapture
  cases h : s.chip <;> simp only [Tweak.apply, h]

theorem Tweak.transferred (φ : Tweak) (n : Nat) (s : State) : Machine.transferred n (φ.apply s) = φ.apply (Machine.transferred n s) := by
  have h : Machine.afterCapture n (Machine.afterOutcome (φ.apply s)) = φ.apply (Machine.afterCapture n (Machine.afterOutcome s)) :=
    Tweak.afterCapture φ n (Machine.afterOutcome s)
  simp only [Machine.transferred, h]
  simp only [Tweak.apply, sendBytes, φ.keeps]
  rfl

theorem Op.Blind.spiTransfer (n : Nat) : (Machine.spiTransfer n).Blind := by
  intro φ s
  cases h : outcome s with
  | none => rw [spiTransfer_ok n h, spiTransfer_ok (s := φ.apply s) n h, Tweak.transferred]; rfl
  | some f => rw [spiTransfer_fails n h, spiTransfer_fails (s := φ.apply s) n h]; rfl

theorem Tweak.closeTxn (φ : Tweak) (whole : Bool) (s : State) :
    Machine.closeTxn whole (φ.apply s) = φ.apply (Machine.closeTxn whole s) := by
  unfold Machine.closeTxn
  simp only [Tweak.apply]
  cases s.wire with
  | none => rfl
  | some w => simp only [φ.counts, φ.records]

theorem Op.Blind.csRelease : Machine.csRelease.Blind := by
  intro φ s
  cases h : outcome s with
  | none => rw [csRelease_ok h, csRelease_ok (s := φ.apply s) h]; exact congrArg (Prod.mk _) (φ.closeTxn true (afterOutcome s))
  | some f => rw [csRelease_fails h, csRelease_fails (s := φ.apply s) h]; rfl

theorem Tweak.releaseAfterFailure (φ : Tweak) (s : State) :
    Machine.releaseAfterFailure (φ.apply s) = φ.apply (Machine.releaseAfterFailure s) := by
  unfold Machine.releaseAfterFailure
  cases h : s.cs with
  | released => simp only [Tweak.apply, h]
  | asserted => simp only [Tweak.apply, h]; exact φ.closeTxn false (afterOutcome s)

theorem Op.Blind.framed {body : Op α} (hb : body.Blind) : (Machine.framed body).Blind := by
  intro φ s
  have hm : ((Machine.csAssert).bind fun _ => body.bind fun a => Machine.csRelease.bind fun _ => Op.pure a).Blind :=
    .bind .csAssert fun _ => hb.bind fun a => .bind .csRelease fun _ => .pure a
  simp only [Machine.framed, hm φ s]
  cases h : ((Machine.csAssert).bind fun _ => body.bind fun a => Machine.csRelease.bind fun _ => Op.pure a) s with
  | mk x t =>
    cases x with
    | ok a => rfl
    | error r => exact congrArg (Prod.mk _) (φ.releaseAfterFailure t)

/-! ### Transactions and accesses -/

theorem Op.Blind.busReset : Machine.busReset.Blind := .framed (.spiWrite _)

theorem Op.Blind.busRead (a : Addr) (n : Nat) : (Machine.busRead a n).Blind := .framed (.bind (.spiWrite _) fun _ => .spiTransfer n)

theorem Op.Blind.busWrite (a : Addr) (data : List Byte) : (Machine.busWrite a data).Blind := .framed (.spiWrite _)

theorem Op.Blind.readRegister (a : Addr) : (Machine.readRegister a).Blind :=
  .bind (.require _ _) fun _ => .map _ (.busRead a 4)

theorem Op.Blind.writeRegister (a : Addr) (v : Word) : (Machine.writeRegister a v).Blind :=
  .bind (.require _ _) fun _ => .busWrite a _

theorem Op.Blind.modifyRegister (a : Addr) (mask value : Word) : (Machine.modifyRegister a mask value).Blind :=
  .bind (.require _ _) fun _ => .withConfig fun _ => .bind (.require _ _) fun _ =>
    .bind (.readRegister a) fun _ => .writeRegister a _

theorem Op.Blind.ramCheck (off n : Nat) : (Machine.ramCheck off n).Blind :=
  .bind (.require _ _) fun _ => .bind (.require _ _) fun _ => .require _ _

theorem Op.Blind.readRam (off n : Nat) : (Machine.readRam off n).Blind :=
  .bind (.ramCheck _ _) fun _ => by
    split
    · exact .pure []
    · exact .busRead _ _

theorem Op.Blind.writeRam (off : Nat) (data : List Byte) : (Machine.writeRam off data).Blind :=
  .bind (.ramCheck _ _) fun _ => by
    split
    · exact .pure ()
    · exact .busWrite _ _

theorem Op.Blind.rawCheck (a : Addr) (n : Nat) : (Machine.rawCheck a n).Blind := by
  unfold Machine.rawCheck
  split
  · exact .require _ _
  · exact .bind (.require _ _) fun _ => .bind (.require _ _) fun _ => .require _ _

theorem Op.Blind.onVariant {m : Op α} (hm : m.Blind) : (Machine.onVariant m).Blind :=
  .withConfig fun _ => .bind (.require _ _) fun _ => hm

theorem Op.Blind.sendFrame (regs : FifoRegs) (f : Frame) : (Machine.sendFrame regs f).Blind :=
  .withConfig fun _ => .bind (.readRegister _) fun _ => .bind (.writeRam _ _) fun _ => .unitValue (.modifyRegister _ _ _)

theorem Op.Blind.fifoRegsOp (i : Nat) : (Machine.fifoRegsOp i).Blind := .orEnd _ _

theorem Op.Blind.filterRegsOp (n : Nat) : (Machine.filterRegsOp n).Blind := .withConfig fun _ => .orEnd _ _

theorem Op.Blind.transmitOp (i : Nat) (f : Frame) : (Machine.transmitOp i f).Blind :=
  .bind (.fifoRegsOp i) fun regs => .withConfig fun _ => .bind (.readRegister _) fun _ => by
    split
    · exact .sendFrame regs f
    · exact .endWith _

theorem Op.Blind.readPayload (c : Config) (a : Nat) (h : Header) : (Machine.readPayload c a h).Blind :=
  .bind (.readRam _ _) fun _ => .orEnd _ _

theorem Op.Blind.receiveFrom (i : Nat) : (Machine.receiveFrom i).Blind :=
  .bind (.fifoRegsOp i) fun _ => .withConfig fun _ => .bind (.readRegister _) fun _ => .bind (.readRam _ _) fun _ =>
    .bind (.readPayload _ _ _) fun _ => .map _ (.modifyRegister _ _ _)

theorem Op.Blind.scanAndReceive : Machine.scanAndReceive.Blind :=
  .withConfig fun _ => .bind (.readRegister _) fun _ => by
    split
    · exact .receiveFrom _
    · exact .endWith _

theorem Op.Blind.reportBusError : Machine.reportBusError.Blind :=
  .withConfig fun _ => .bind (.modifyRegister _ _ _) fun _ => .endWith _

theorem Op.Blind.receiveOp : Machine.receiveOp.Blind :=
  .withConfig fun _ => .bind (.readRegister _) fun _ => by
    split
    · exact .reportBusError
    · exact .scanAndReceive
    · exact .endWith _

theorem Op.Blind.configureFifoOp (i : Nat) (spec : FifoSpec) : (Machine.configureFifoOp i spec).Blind :=
  .bind (.fifoRegsOp i) fun _ => .bind (.require _ _) fun _ => .withConfig fun _ => .unitValue (.writeRegister _ _)

theorem Op.Blind.configureFilterOp (n : Nat) (f : FilterSpec) (m : MaskSpec) : (Machine.configureFilterOp n f m).Blind :=
  .bind (.filterRegsOp n) fun _ => .bind (.fifoRegsOp _) fun _ => .withConfig fun _ => .bind (.writeRegister _ _) fun _ =>
    .bind (.writeRegister _ _) fun _ => .unitValue (.modifyRegister _ _ _)

end

/-! ### What an instruction runs -/

/-- The body of each operation; the reserved wire commands have none (R86). -/
def bodyOf : Instr → Op Value
  | .wReset => unitValue busReset
  | .wRead a n => (rawCheck a n).bind fun _ => (busRead a n).map .bytes
  | .wWrite a data => (rawCheck a data.length).bind fun _ => unitValue (busWrite a data)
  | .wWriteCrc _ _ => .pure .unit
  | .wReadCrc _ _ => .pure .unit
  | .wWriteSafe _ _ => .pure .unit
  | .reset => unitValue busReset
  | .readReg a => (readRegister a).map .word
  | .writeReg a v => unitValue (writeRegister a v)
  | .modifyReg a mask value => unitValue (modifyRegister a mask value)
  | .readBytes off n => (readRam off.toNat n.toNat).map .bytes
  | .writeBytes off data => unitValue (writeRam off.toNat data)
  | .requestToTransmit _ => endWith (.unsupported .requestToTransmit)
  | .readStatus => endWith (.unsupported .readStatus)
  | .dlcToLen c => .pure (.count (dlcBytes c))
  | .lenToDlc len => (lenToDlcOp len.toNat).map .dlc
  | .frameNew id data seq => (frameNewOp id data seq).map .frame
  | .encode f => .pure (.encoded (encodeFrame f).1 (encodeFrame f).2)
  | .decode h payload => (decodeOp h payload).map .frame
  | .hdrToBytes h => withConfig fun cfg => .pure (.bytes (headerToBytes cfg.schema h))
  | .bytesToHdr b => withConfig fun cfg => .pure (.header (bytesToHeader cfg.schema b))
  | .fifoAddr i => (fifoRegsOp i.toNat).map fun r => .fifoAddrs r.con r.sta r.ua
  | .filterAddr n => (filterRegsOp n.toNat).map fun r => .filterAddrs r.obj r.mask r.fltcon r.shift
  | .arbitrate w => withConfig fun cfg => .pure (.arbitration (arbitrate cfg.schema w))
  | .scan w => .pure (.scan (scan w))
  | .transmit i f => transmitOp i.toNat f
  | .receive => receiveOp
  | .receiveWait => receiveOp
  | .configureFifo i spec => configureFifoOp i.toNat spec
  | .configureFilter n f m => configureFilterOp n.toNat f m

theorem Op.Blind.bodyOf (i : Instr) : (Machine.bodyOf i).Blind := by
  cases i with
  | wReset | reset => exact .unitValue .busReset
  | wRead a n => exact .bind (.rawCheck _ _) fun _ => .map _ (.busRead _ _)
  | wWrite a data => exact .bind (.rawCheck _ _) fun _ => .unitValue (.busWrite _ _)
  | wWriteCrc | wReadCrc | wWriteSafe | dlcToLen | encode | scan => exact .pure _
  | readReg a => exact .map _ (.readRegister a)
  | writeReg a v => exact .unitValue (.writeRegister a v)
  | modifyReg a mask value => exact .unitValue (.modifyRegister a mask value)
  | readBytes off n => exact .map _ (.readRam _ _)
  | writeBytes off data => exact .unitValue (.writeRam _ _)
  | requestToTransmit | readStatus => exact .endWith _
  | lenToDlc | frameNew | decode | fifoAddr => exact .map _ (.orEnd _ _)
  | hdrToBytes h => exact .withConfig fun c => .pure (Value.bytes (headerToBytes c.schema h))
  | bytesToHdr b => exact .withConfig fun c => .pure (Value.header (bytesToHeader c.schema b))
  | arbitrate w => exact .withConfig fun c => .pure (Value.arbitration (Machine.arbitrate c.schema w))
  | filterAddr n => exact .map _ (.filterRegsOp _)
  | transmit i f => exact .transmitOp _ _
  | receive | receiveWait => exact .receiveOp
  | configureFifo i spec => exact .configureFifoOp _ _
  | configureFilter n f m => exact .configureFilterOp _ _ _

/-- The three ways `exec` answers: a refusal for a reserved wire command, a pass of the wait, one atomic operation. -/
theorem exec_cases (i : Instr) (s : State) :
    (reservedWire i = true ∧ ∃ c, exec i s = .refused (.reservedWireCommand c)) ∨
    (i = .receiveWait ∧ exec i s = .next (concludePass (onVariant receiveOp (begin .receiveWait s)))) ∨
    (reservedWire i = false ∧ i ≠ .receiveWait ∧ exec i s = .next (perform i (bodyOf i) s)) := by
  cases i with
  | wWriteCrc | wReadCrc | wWriteSafe => exact .inl ⟨rfl, _, rfl⟩
  | receiveWait => exact .inr (.inl ⟨rfl, rfl⟩)
  | _ => exact .inr (.inr ⟨rfl, by simp, rfl⟩)

/-! ### Running on a wiped state -/

/-- The progress record and the result wiped. -/
def wipe : Tweak where
  onRun _ := .idle
  onIrq l := l
  onResult _ := none
  onLink l := l
  counts _ := rfl
  keeps _ _ := rfl
  records _ _ := rfl

/-- Everything as it is, the record of the link after the transactions `p`. -/
def recordedAfter (p : List Txn) : Tweak where
  onRun r := r
  onIrq l := l
  onResult r := r
  onLink l := p ++ l
  counts _ := rfl
  keeps _ _ := rfl
  records l x := (List.append_assoc p l [x]).symm

def blank (s : State) : State := { s with run := .idle, result := none }

theorem wipe_apply (s : State) : wipe.apply s = blank s := rfl

@[simp] theorem blank_blank (s : State) : blank (blank s) = blank s := rfl
@[simp] theorem blank_begin (i : Instr) (s : State) : blank (begin i s) = blank s := rfl
@[simp] theorem finish_blank (r : Result) (s : State) : finish r (blank s) = finish r s := rfl
@[simp] theorem captured_blank (s : State) (a n : Nat) : captured (blank s) a n = captured s a n := rfl
@[simp] theorem registerAnswer_blank (s : State) (a : Addr) : registerAnswer a (blank s) = registerAnswer a s := rfl
@[simp] theorem blank_cfg (s : State) : (blank s).cfg = s.cfg := rfl
@[simp] theorem blank_transport (s : State) : (blank s).transport = s.transport := rfl
@[simp] theorem resetNoted_blank (s : State) : resetNoted (blank s) = blank (resetDone s) := rfl
@[simp] theorem writeNoted_blank (a : Addr) (d : List Byte) (s : State) : writeNoted a d (blank s) = blank (writeDone a d s) := rfl

theorem afterCapture_blank (n : Nat) (s : State) : afterCapture n (blank s) = blank (afterCapture n s) := Tweak.afterCapture wipe n s

@[simp] theorem readNoted_blank (a : Addr) (n : Nat) (s : State) : readNoted a n (blank s) = blank (readDone a n s) := by
  simp only [readNoted, readDone, afterCapture_blank]; rfl

theorem Op.Blind.on_blank {α : Type} {m : Op α} (hm : m.Blind) {s t : State} {x : Except Result α} (h : m s = (x, t)) :
    m (blank s) = (x, blank t) := by rw [← wipe_apply, hm wipe s, h]; rfl

theorem conclude_blank (x : Except Result Value) (t : State) : conclude (x, blank t) = conclude (x, t) := by
  cases x <;> rfl

/-- An atomic operation run on the wiped state. -/
theorem perform_eq {m : Op Value} (hm : m.Blind) (i : Instr) {s : State} (hs : s.supported) :
    perform i m s = conclude (m (blank s)) := by
  have h : onVariant m (begin i s) = m (begin i s) := by
    simp only [onVariant, withConfig_run, begin_cfg, hs, Op.bind_run, require_true]
  rw [perform, h]
  have hb : m (blank s) = ((m (begin i s)).1, blank (m (begin i s)).2) := hm.on_blank (s := begin i s) rfl
  rw [hb, conclude_blank]

/-- Any other capability value (R7, R251). -/
theorem perform_unsupported (m : Op Value) (i : Instr) {s : State} (hs : s.cfg.cap.supported = false) :
    perform i m s = finish (.unsupported .variant) s := by
  simp only [perform, onVariant, withConfig_run, begin_cfg, hs, Op.bind_run, require_false, conclude]
  rfl

end Sys2Proof.Machine
end

