-- ==== Sys2Proof/Laws/Accesses.lean ====
section
/-! SUPPORT. The register and RAM accesses with no failure ahead, on a wiped state; the register addresses of FIFOs and
filters; what an admissible configuration gives the composite operations; the scan. -/

namespace Sys2Proof.Machine

/-! ### Registers -/

theorem blank_unfailing {s : State} (h : s.unfailing) : (blank s).unfailing := h

theorem readRegister_ok {s : State} (h : s.unfailing) {a : Addr} (ha : regAligned a = true) :
    readRegister a (blank s) = (.ok (registerAnswer a s), blank (readDone a 4 s)) := by
  unfold readRegister
  rw [ha, Op.bind_ok (require_true _ _), Op.map_ok (busRead_unfailing a 4 (blank_unfailing h)), readNoted_blank]
  rfl

theorem readRegister_misaligned {a : Addr} (ha : regAligned a = false) (s : State) :
    readRegister a s = (.error (.contractViolation .regAddr), s) := by
  unfold readRegister
  rw [ha, Op.bind_error (require_false _ _)]

theorem writeRegister_ok {s : State} (h : s.unfailing) {a : Addr} (ha : regAligned a = true) (v : Word) :
    writeRegister a v (blank s) = (.ok (), blank (writeDone a (bytes32 v) s)) := by
  unfold writeRegister
  rw [ha, Op.bind_ok (require_true _ _), busWrite_unfailing a _ (blank_unfailing h), writeNoted_blank]

theorem writeRegister_misaligned {a : Addr} (ha : regAligned a = false) (v : Word) (s : State) :
    writeRegister a v s = (.error (.contractViolation .regAddr), s) := by
  unfold writeRegister
  rw [ha, Op.bind_error (require_false _ _)]

theorem modifyRegister_ok {s : State} (h : s.unfailing) {a : Addr} (ha : regAligned a = true)
    (hm : s.cfg.cap.modifiable.contains a = true) (mask value : Word) :
    modifyRegister a mask value (blank s) = (.ok (), blank (modifyDone a mask value s)) := by
  unfold modifyRegister
  rw [ha, Op.bind_ok (require_true _ _), withConfig_run, blank_cfg, hm, Op.bind_ok (require_true _ _),
    Op.bind_ok (readRegister_ok h ha), writeRegister_ok (h.readDone a 4) ha]
  rfl

theorem modifyRegister_misaligned {a : Addr} (ha : regAligned a = false) (mask value : Word) (s : State) :
    modifyRegister a mask value s = (.error (.contractViolation .regAddr), s) := by
  unfold modifyRegister
  rw [ha, Op.bind_error (require_false _ _)]

theorem modifyRegister_foreign {s : State} {a : Addr} (ha : regAligned a = true)
    (hm : s.cfg.cap.modifiable.contains a = false) (mask value : Word) :
    modifyRegister a mask value s = (.error (.contractViolation .notModifiable), s) := by
  unfold modifyRegister
  rw [ha, Op.bind_ok (require_true _ _), withConfig_run, hm, Op.bind_error (require_false _ _)]

/-! ### The RAM window -/

theorem ramCheck_ok {off n : Nat} (hn : n % 4 = 0) (ho : off % 4 = 0) (hr : off + n ≤ 2048) (s : State) :
    ramCheck off n s = (.ok (), s) := by
  simp [ramCheck, hn, ho, ramSize, hr, Op.bind_run]

theorem ramCheck_length {off n : Nat} (hn : n % 4 ≠ 0) (s : State) :
    ramCheck off n s = (.error (.contractViolation .ramLength), s) := by
  simp [ramCheck, beq_false_of_ne hn, Op.bind_run]

theorem ramCheck_align {off n : Nat} (hn : n % 4 = 0) (ho : off % 4 ≠ 0) (s : State) :
    ramCheck off n s = (.error (.contractViolation .ramAlign), s) := by
  simp [ramCheck, hn, beq_false_of_ne ho, Op.bind_run]

theorem ramCheck_range {off n : Nat} (hn : n % 4 = 0) (ho : off % 4 = 0) (hr : off + n > 2048) (s : State) :
    ramCheck off n s = (.error (.contractViolation .ramRange), s) := by
  have : ¬ off + n ≤ ramSize := by simp only [ramSize]; omega
  simp [ramCheck, hn, ho, this, Op.bind_run]

/-- The four outcomes of the RAM checks, in their order (R57). -/
theorem ramCheck_cases (off n : Nat) (s : State) :
    (n % 4 = 0 ∧ off % 4 = 0 ∧ off + n ≤ 2048 ∧ ramCheck off n s = (.ok (), s)) ∨
      ∃ k, ramCheck off n s = (.error (.contractViolation k), s) ∧
        ((n % 4 ≠ 0 ∧ k = .ramLength) ∨ (n % 4 = 0 ∧ (k = .ramAlign ∨ k = .ramRange))) := by
  by_cases hn : n % 4 = 0
  · by_cases ho : off % 4 = 0
    · by_cases hr : off + n ≤ 2048
      · exact .inl ⟨hn, ho, hr, ramCheck_ok hn ho hr s⟩
      · exact .inr ⟨_, ramCheck_range hn ho (by omega) s, .inr ⟨hn, .inr rfl⟩⟩
    · exact .inr ⟨_, ramCheck_align hn ho s, .inr ⟨hn, .inl rfl⟩⟩
  · exact .inr ⟨_, ramCheck_length hn s, .inl ⟨hn, rfl⟩⟩

theorem ramAddress_eq (off : Nat) : ramAddress off = windowAddr off := rfl

theorem toNat_windowAddr {off : Nat} (h : off ≤ 2048) : (windowAddr off).toNat = 0x400 + off := by
  simp only [windowAddr, BitVec.toNat_ofNat]; omega

theorem readRam_ok {s : State} (h : s.unfailing) {off n : Nat} (hn : n % 4 = 0) (ho : off % 4 = 0) (hr : off + n ≤ 2048)
    (h0 : n ≠ 0) : readRam off n (blank s) = (.ok (captured s (windowAddr off).toNat n), blank (readDone (windowAddr off) n s)) := by
  unfold readRam
  rw [Op.bind_ok (ramCheck_ok hn ho hr _), if_neg h0, ramAddress_eq, busRead_unfailing _ _ (blank_unfailing h), readNoted_blank,
    captured_blank]

theorem readRam_empty {off : Nat} (ho : off % 4 = 0) (hr : off ≤ 2048) (s : State) : readRam off 0 s = (.ok [], s) := by
  unfold readRam
  rw [Op.bind_ok (ramCheck_ok rfl ho (by omega) _), if_pos rfl, Op.pure_run]

theorem readRam_refused {off n : Nat} {s : State} {k : Contract} (h : ramCheck off n s = (.error (.contractViolation k), s)) :
    readRam off n s = (.error (.contractViolation k), s) := Op.bind_error h

theorem writeRam_ok {s : State} (h : s.unfailing) {off : Nat} {data : List Byte} (hn : data.length % 4 = 0) (ho : off % 4 = 0)
    (hr : off + data.length ≤ 2048) (h0 : data ≠ []) :
    writeRam off data (blank s) = (.ok (), blank (writeDone (windowAddr off) data s)) := by
  unfold writeRam
  rw [Op.bind_ok (ramCheck_ok hn ho hr _), if_neg (by simpa using h0), ramAddress_eq, busWrite_unfailing _ _ (blank_unfailing h),
    writeNoted_blank]

theorem writeRam_empty {off : Nat} (ho : off % 4 = 0) (hr : off ≤ 2048) (s : State) : writeRam off [] s = (.ok (), s) := by
  unfold writeRam
  rw [Op.bind_ok (ramCheck_ok rfl ho (by simpa using hr) _), if_pos List.length_nil, Op.pure_run]

theorem writeRam_refused {off : Nat} {data : List Byte} {s : State} {k : Contract}
    (h : ramCheck off data.length s = (.error (.contractViolation k), s)) :
    writeRam off data s = (.error (.contractViolation k), s) := Op.bind_error h

/-! ### Raw transactions -/

theorem rawCheck_cases (a : Addr) (n : Nat) (s : State) :
    (addressable a.toNat n = true ∧ rawCheck a n s = (.ok (), s)) ∨
      (addressable a.toNat n = false ∧ ∃ k, rawCheck a n s = (.error (.contractViolation k), s) ∧
        (k = .regAddr ∨ k = .ramLength ∨ k = .ramAlign ∨ k = .ramRange)) := by
  unfold rawCheck addressable
  by_cases ha : a.toNat % 4 = 0
  · by_cases h4 : n = 4
    · simp [h4, regAligned, ha]
    · by_cases hl : n % 4 = 0 ∧ 4 ≤ n
      · by_cases hr : 0x400 ≤ a.toNat ∧ a.toNat + n ≤ 0xC00
        · left; simp [h4, ha, hl, burstLengthOk, ramBase, ramSize, hr, Op.bind_run]; omega
        · right
          have : ¬ (1024 ≤ a.toNat ∧ a.toNat + n ≤ 3072) := hr
          simp [h4, ha, hl, burstLengthOk, ramBase, ramSize, this, Op.bind_run]; omega
      · right
        have hb : burstLengthOk n = false := by simp [burstLengthOk]; omega
        simp [h4, ha, hb, Op.bind_run]
        omega
  · right
    by_cases h4 : n = 4
    · simp [h4, regAligned, beq_false_of_ne ha]
    · by_cases hb : burstLengthOk n = true
      · simp [h4, beq_false_of_ne ha, hb, Op.bind_run]
      · simp only [Bool.not_eq_true] at hb
        simp [h4, beq_false_of_ne ha, hb, Op.bind_run]

/-! ### Register addresses (R180, R182) -/

theorem fifoRegs_eq {i : Nat} (h1 : 1 ≤ i) (h2 : i ≤ 31) : fifoRegs i = some { con := conOf i, sta := staOf i, ua := uaOf i } := by
  interval_cases i <;> rfl

theorem fifoRegs_none {i : Nat} (h : i < 1 ∨ 31 < i) : fifoRegs i = none := by
  unfold fifoRegs; exact if_pos (by simp only [nFifo]; omega)

theorem fifoRegs_some {i : Nat} {r : FifoRegs} (h : fifoRegs i = some r) :
    1 ≤ i ∧ i ≤ 31 ∧ r = { con := conOf i, sta := staOf i, ua := uaOf i } := by
  by_cases hi : i < 1 ∨ 31 < i
  · simp [fifoRegs_none hi] at h
  · have h1 : 1 ≤ i := by omega
    have h2 : i ≤ 31 := by omega
    rw [fifoRegs_eq h1 h2] at h
    exact ⟨h1, h2, (Option.some.inj h).symm⟩

theorem toNat_conOf {i : Nat} (h : i ≤ 31) : (conOf i).toNat = 0x050 + 12 * i := by
  simp only [conOf, BitVec.toNat_ofNat]; omega

theorem toNat_staOf {i : Nat} (h : i ≤ 31) : (staOf i).toNat = 0x054 + 12 * i := by
  simp only [staOf, BitVec.toNat_ofNat]; omega

theorem toNat_uaOf {i : Nat} (h : i ≤ 31) : (uaOf i).toNat = 0x058 + 12 * i := by
  simp only [uaOf, BitVec.toNat_ofNat]; omega

theorem aligned_conOf {i : Nat} (h : i ≤ 31) : regAligned (conOf i) = true := by
  simp only [regAligned, toNat_conOf h, beq_iff_eq]; omega

theorem aligned_staOf {i : Nat} (h : i ≤ 31) : regAligned (staOf i) = true := by
  simp only [regAligned, toNat_staOf h, beq_iff_eq]; omega

theorem aligned_uaOf {i : Nat} (h : i ≤ 31) : regAligned (uaOf i) = true := by
  simp only [regAligned, toNat_uaOf h, beq_iff_eq]; omega

/-! ### Admissible configurations (R9) -/

/-- The parts of `Config.wf` the operations rest on. -/
structure Admits (c : Config) : Prop where
  con     : fieldsFit 32 c.schema.conFields = true
  slot    : fieldsFit c.schema.fltconSlotBits c.schema.slotFields = true
  slots   : c.schema.fltconSlotsPerReg * c.schema.fltconSlotBits ≤ 32
  enough  : 32 ≤ 8 * c.schema.fltconSlotsPerReg
  object  : fieldsFit 32 c.schema.objectFields = true
  header  : fieldsFit 32 (c.schema.headerFlagFields ++ [(c.schema.hdrSeqLsb, 23)]) = true
  intAddr : addrFits c.schema.addrInt = true
  rxif    : addrFits c.schema.addrRxif = true
  fltcon  : addrFits c.schema.addrFltconBase = true
  targets : ∀ a ∈ composedTargets c.schema.addrInt c.schema.addrFltconBase, c.cap.modifiable.contains a = true

theorem admits_of_wf {c : Config} (h : c.wf = true) : Admits c := by
  simp only [Config.wf, Bool.and_eq_true, decide_eq_true_eq, List.all_eq_true] at h
  obtain ⟨⟨⟨⟨⟨⟨⟨⟨⟨⟨⟨⟨⟨⟨⟨h1, h2⟩, h3⟩, h4⟩, h5⟩, h6⟩, h7⟩, h8⟩, h9⟩, h10⟩, h11⟩, h12⟩, h13⟩, h14⟩, h15⟩, h16⟩ := h
  exact ⟨h3, h4, h5, h6, h7, h8, h13, h14, h15, h16⟩

theorem aligned_of_addrFits {a : Addr} (h : addrFits a = true) : regAligned a = true := by
  simp only [addrFits, Bool.and_eq_true] at h; exact h.1

theorem lt_of_addrFits {a : Addr} (h : addrFits a = true) : a.toNat % 4 = 0 ∧ a.toNat < 0x400 := by
  simpa [addrFits] using h

theorem Admits.modifiable_int {c : Config} (h : Admits c) : c.cap.modifiable.contains c.schema.addrInt = true :=
  h.targets _ (by simp [composedTargets])

theorem Admits.modifiable_con {c : Config} (h : Admits c) {i : Nat} (h1 : 1 ≤ i) (h2 : i ≤ 31) :
    c.cap.modifiable.contains (conOf i) = true := by
  apply h.targets
  simp only [composedTargets, List.mem_append, List.mem_cons, List.mem_map, List.mem_range]
  refine .inl (.inr ⟨i - 1, by omega, ?_⟩)
  simp only [conOf, fifoBase, fifoStride]
  congr 1; omega

theorem filterRegs_eq {s : Schema} {n : Nat} (h : n ≤ 31) :
    filterRegs s n = some { obj := BitVec.ofNat 12 (0x1F0 + 8 * n), mask := BitVec.ofNat 12 (0x1F4 + 8 * n)
                            fltcon := BitVec.ofNat 12 (s.addrFltconBase.toNat + 4 * (n / s.fltconSlotsPerReg))
                            shift := s.fltconSlotBits * (n % s.fltconSlotsPerReg) } := by
  unfold filterRegs
  rw [if_neg (by simp only [nFilter]; omega)]
  simp only [fltObjBase, maskBase, filterStride, Nat.mul_comm n 8]

theorem filterRegs_none {s : Schema} {n : Nat} (h : 31 < n) : filterRegs s n = none := by
  unfold filterRegs; exact if_pos (by simp only [nFilter]; omega)

theorem Admits.slot_lt {c : Config} (h : Admits c) {n : Nat} (hn : n ≤ 31) : n / c.schema.fltconSlotsPerReg < 8 :=
  Nat.div_lt_of_lt_mul (by have := h.enough; omega)

theorem Admits.toNat_fltcon {c : Config} (h : Admits c) {n : Nat} (hn : n ≤ 31) :
    (BitVec.ofNat 12 (c.schema.addrFltconBase.toNat + 4 * (n / c.schema.fltconSlotsPerReg)) : Addr).toNat
      = c.schema.addrFltconBase.toNat + 4 * (n / c.schema.fltconSlotsPerReg) := by
  have h1 := lt_of_addrFits h.fltcon
  have h2 := h.slot_lt hn
  rw [BitVec.toNat_ofNat]; omega

theorem Admits.aligned_fltcon {c : Config} (h : Admits c) {n : Nat} (hn : n ≤ 31) :
    regAligned (BitVec.ofNat 12 (c.schema.addrFltconBase.toNat + 4 * (n / c.schema.fltconSlotsPerReg))) = true := by
  have h1 := lt_of_addrFits h.fltcon
  simp only [regAligned, h.toNat_fltcon hn, beq_iff_eq]; omega

theorem Admits.modifiable_fltcon {c : Config} (h : Admits c) {n : Nat} (hn : n ≤ 31) :
    c.cap.modifiable.contains (BitVec.ofNat 12 (c.schema.addrFltconBase.toNat + 4 * (n / c.schema.fltconSlotsPerReg))) = true := by
  apply h.targets
  simp only [composedTargets, List.mem_append, List.mem_cons, List.mem_map, List.mem_range]
  exact .inr ⟨_, h.slot_lt hn, rfl⟩

theorem aligned_obj (n : Nat) : regAligned (BitVec.ofNat 12 (0x1F0 + 8 * n)) = true := by
  simp only [regAligned, BitVec.toNat_ofNat, beq_iff_eq]; omega

theorem aligned_mask (n : Nat) : regAligned (BitVec.ofNat 12 (0x1F4 + 8 * n)) = true := by
  simp only [regAligned, BitVec.toNat_ofNat, beq_iff_eq]; omega

/-! ### The scan (R184) -/

theorem mem_scanOrder {i : Nat} : i ∈ scanOrder ↔ 1 ≤ i ∧ i ≤ 31 := by
  simp only [scanOrder, nFifo, List.mem_map, List.mem_range]
  exact ⟨fun ⟨k, hk, h⟩ => by omega, fun h => ⟨i - 1, by omega, by omega⟩⟩

theorem scan_some {bitmap : Word} {i : Nat} (h : scan bitmap = some i) : 1 ≤ i ∧ i ≤ 31 ∧ bitSet bitmap i = true :=
  have hi := mem_scanOrder.1 (List.mem_of_find?_eq_some h)
  ⟨hi.1, hi.2, List.find?_some h⟩

theorem scan_none {bitmap : Word} (h : ∀ i, 1 ≤ i → i ≤ 31 → bitSet bitmap i = false) : scan bitmap = none := by
  refine List.find?_eq_none.2 fun i hi => ?_
  have := mem_scanOrder.1 hi
  simp [fifoFlag, h i this.1 this.2]

theorem find?_range_map {p : Nat → Bool} : ∀ {n i : Nat}, i < n → p (i + 1) = true → (∀ j, j < i → p (j + 1) = false) →
    ((List.range n).map (· + 1)).find? p = some (i + 1)
  | n, i, hi, hp, hn => by
    rw [List.find?_map, Option.map_eq_some_iff]
    refine ⟨i, ?_, rfl⟩
    rw [List.find?_range_eq_some]
    exact ⟨hp, List.mem_range.2 hi, fun j hj => by simpa using hn j hj⟩

theorem scan_first {bitmap : Word} {i : Nat} (h : FirstSet bitmap i) : scan bitmap = some i := by
  obtain ⟨h1, h2, h3, h4⟩ := h
  obtain ⟨j, rfl⟩ : ∃ j, i = j + 1 := ⟨i - 1, by omega⟩
  exact find?_range_map (by simp only [nFifo]; omega) h3 fun k hk => h4 _ (by omega) (by omega)

end Sys2Proof.Machine
end

