-- ==== Sys2Proof/Laws/Codec.lean ====
section
/-! SUPPORT. Facts of the operand forms: little-endian words, the DLC table, identifier split, fields placed in words,
rounding to a multiple of 4. -/

namespace Sys2Proof.Machine

theorem le32_bytes32 (v : Word) : le32 (bytes32 v) = v := by
  simp only [le32, bytes32, List.getD_cons_succ, List.getD_cons_zero]
  ext i hi
  simp only [BitVec.getElem_append, BitVec.getElem_extractLsb']
  interval_cases i <;> simp

/-- R55: bit k of the word is bit k mod 8 of byte k / 8. -/
theorem getLsbD_le32 (b : List Byte) {k : Nat} (hk : k < 32) : (le32 b).getLsbD k = (b[k / 8]?.getD 0).getLsbD (k % 8) := by
  simp only [le32, BitVec.getLsbD_append, List.getD_eq_getElem?_getD]
  interval_cases k <;> rfl

theorem dlcBytes_mono : ∀ c d : BitVec 4, c.toNat ≤ d.toNat → dlcBytes c ≤ dlcBytes d := by decide

theorem find?_dlcCodes : ∀ n, n ≤ 64 → ∃ c : BitVec 4, dlcCodes.find? (fun c => n ≤ dlcBytes c) = some c ∧ n ≤ dlcBytes c ∧
      ∀ d : BitVec 4, n ≤ dlcBytes d → c.toNat ≤ d.toNat := by
  decide +kernel

theorem lenToDlc_some {n : Nat} (h : n ≤ 64) : ∃ c : BitVec 4, lenToDlc n = some c ∧ n ≤ dlcBytes c ∧
      ∀ d : BitVec 4, n ≤ dlcBytes d → c.toNat ≤ d.toNat := by
  unfold lenToDlc; rw [if_neg (by simp [maxPayload]; omega)]; exact find?_dlcCodes n h

theorem lenToDlc_none {n : Nat} (h : n > 64) : lenToDlc n = none := by
  unfold lenToDlc; exact if_pos h

theorem dlcBytes_le (c : BitVec 4) : dlcBytes c ≤ 64 := by revert c; decide

theorem joinBits_eq (sid : BitVec 11) (eid : BitVec 18) : sid.setWidth 29 ||| (eid.setWidth 29 <<< 11) = eid ++ sid := by
  ext i hi
  simp only [BitVec.getElem_or, BitVec.getElem_setWidth, BitVec.getElem_shiftLeft]
  rw [BitVec.getElem_append]
  by_cases h : i < 11
  · simp [h]
  · have : sid.getLsbD i = false := BitVec.getLsbD_of_ge _ _ (by omega)
    simp [h, this, show i - 11 < 18 by omega]

theorem splitBits_join (x : BitVec 29) : x.extractLsb' 11 18 ++ x.extractLsb' 0 11 = x := by
  ext i hi
  rw [BitVec.getElem_append]
  by_cases h : i < 11
  · simp [h, BitVec.getLsbD_eq_getElem (show i < 29 by omega)]
  · simp only [h, dite_false, BitVec.getElem_extractLsb']
    rw [show 11 + (i - 11) = i by omega, BitVec.getLsbD_eq_getElem hi]

theorem getLsbD_put {w : Nat} (lsb : Nat) (v : BitVec w) (k : Nat) (hk : k < 32) :
    (put lsb v).getLsbD k = (decide (lsb ≤ k) && v.getLsbD (k - lsb)) := by
  simp only [put, BitVec.getLsbD_shiftLeft, BitVec.getLsbD_setWidth, hk, decide_true, Bool.true_and]
  by_cases h : k < lsb
  · simp [h, Nat.not_le.2 h]
  · simp [h, Nat.not_lt.1 h, show k - lsb < 32 by omega]

theorem getLsbD_putBit (lsb : Nat) (b : Bool) (k : Nat) (hk : k < 32) :
    (putBit lsb b).getLsbD k = (decide (k = lsb) && b) := by
  rw [putBit, getLsbD_put _ _ _ hk]
  rcases Nat.lt_trichotomy k lsb with h | h | h
  · simp [Nat.not_le.2 h, Nat.ne_of_lt h]
  · subst h; simp
  · have : k - lsb ≠ 0 := by omega
    simp [BitVec.getLsbD_ofBool, this, Nat.ne_of_gt h]

theorem put_apart {w : Nat} {lsb : Nat} (v : BitVec w) {l n i : Nat} (h : fieldsApart (l, n) (lsb, w) = true ∨ fieldsApart (lsb, w) (l, n) = true) (hi : i < n) (hl : l + n ≤ 32) :
    (put lsb v).getLsbD (l + i) = false := by
  rw [getLsbD_put _ _ _ (by omega)]
  simp only [fieldsApart, Bool.or_eq_true, decide_eq_true_eq] at h
  by_cases hle : lsb ≤ l + i
  · rw [BitVec.getLsbD_of_ge _ _ (by omega)]; simp
  · simp [hle]

theorem put_same {w : Nat} {lsb : Nat} (v : BitVec w) {i : Nat} (hi : i < w) (hl : lsb + w ≤ 32) :
    (put lsb v).getLsbD (lsb + i) = v.getLsbD i := by
  rw [getLsbD_put _ _ _ (by omega)]; simp

theorem pad4_eq (n : Nat) : pad4 n = (n + 3) / 4 * 4 := by
  simp [pad4, Nat.shiftRight_eq_div_pow, Nat.shiftLeft_eq]

theorem pad4_mod (n : Nat) : pad4 n % 4 = 0 := by rw [pad4_eq]; omega

theorem le_pad4 (n : Nat) : n ≤ pad4 n := by rw [pad4_eq]; omega

end Sys2Proof.Machine
end

