-- ==== Sys2Proof/Laws/Encoding.lean ====
section
/-! SUPPORT. Every reader of a request record reads back what its writer wrote, whatever bytes follow. -/

namespace Sys2Proof

theorem Reader.map_run {α β : Type} (r : Reader α) (f : α → β) (bs : List Byte) {a : α} {rest : List Byte} (h : r bs = .ok (a, rest)) : (r.map f) bs = .ok (f a, rest) := by
  simp [Reader.map, Reader.bind, h, Reader.pure]

theorem Reader.bind_run {α β : Type} {r : Reader α} {k : α → Reader β} {bs : List Byte} {a : α} {rest : List Byte} (h : r bs = .ok (a, rest)) : (r.bind k) bs = k a rest := by
  simp [Reader.bind, h]

theorem readNat_natBytes : ∀ (k v : Nat) (rest : List Byte), v < 256 ^ k → readNat k (natBytes k v ++ rest) = .ok (v, rest)
  | 0, v, rest, h => by simp at h; subst h; rfl
  | k + 1, v, rest, h => by
    simp only [natBytes, List.cons_append, readNat]
    rw [Reader.map_run _ _ _ (readNat_natBytes k (v / 256) rest (by rw [pow_succ] at h; omega))]
    simp; omega

theorem readBits_bitsBytes (k w : Nat) (v : BitVec w) (rest : List Byte) (h : 2 ^ w ≤ 256 ^ k) : readBits k w (bitsBytes k v ++ rest) = .ok (v, rest) := by
  have := v.isLt
  unfold readBits bitsBytes
  rw [Reader.bind_run (readNat_natBytes k v.toNat rest (by omega))]
  simp [Reader.guard, this]

theorem readBool_boolBytes (b : Bool) (rest : List Byte) : readBool (boolBytes b ++ rest) = .ok (b, rest) := by
  unfold readBool boolBytes
  rw [Reader.bind_run (readNat_natBytes 1 b.toNat rest (by cases b <;> decide))]
  cases b <;> rfl

theorem readRaw_append (d rest : List Byte) : readRaw d.length (d ++ rest) = .ok (d, rest) := by
  simp [readRaw]

theorem readSeq_seqBytes (d rest : List Byte) (h : recordable d = true) : readSeq (seqBytes d ++ rest) = .ok (d, rest) := by
  have : d.length < 2 ^ 32 := by simpa [recordable] using h
  unfold readSeq seqBytes
  rw [List.append_assoc, Reader.bind_run (readNat_natBytes 4 d.length _ (by omega)), readRaw_append]

theorem readId_idBytes (i : Id) (rest : List Byte) : readId (idBytes i ++ rest) = .ok (i, rest) := by
  cases i with
  | std s => unfold readId idBytes; rw [List.append_assoc, Reader.bind_run (readBool_boolBytes _ _)]; exact Reader.map_run _ _ _ (readBits_bitsBytes 4 11 s rest (by decide))
  | ext s => unfold readId idBytes; rw [List.append_assoc, Reader.bind_run (readBool_boolBytes _ _)]; exact Reader.map_run _ _ _ (readBits_bitsBytes 4 29 s rest (by decide))

theorem readSeqNo_seqNoBytes (q : Option (BitVec 23)) (rest : List Byte) : readSeqNo (seqNoBytes q ++ rest) = .ok (q, rest) := by
  cases q with
  | none => unfold readSeqNo seqNoBytes; rw [List.append_assoc, Reader.bind_run (readBool_boolBytes _ _)]; exact (Reader.bind_run (readNat_natBytes 3 0 rest (by decide)) : ((readNat 3).bind fun v => Reader.guard (v == 0) none) (natBytes 3 0 ++ rest) = _)
  | some q => unfold readSeqNo seqNoBytes; rw [List.append_assoc, Reader.bind_run (readBool_boolBytes _ _)]; exact Reader.map_run _ _ _ (readBits_bitsBytes 3 23 q rest (by decide))

theorem readFrame_frameBytes (f : Frame) (rest : List Byte) (h : f.wf = true) : readFrame (frameBytes f ++ rest) = .ok (f, rest) := by
  have hl : f.data.length = maxPayload := by simpa [Frame.wf] using h
  unfold readFrame frameBytes
  simp only [List.append_assoc]
  rw [Reader.bind_run (readId_idBytes _ _), Reader.bind_run (readBits_bitsBytes 1 4 f.dlc _ (by decide)), ← hl, Reader.bind_run (readRaw_append _ _), Reader.map_run _ _ _ (readSeqNo_seqNoBytes _ _)]

theorem readHeader_headerBytes (h : Header) (rest : List Byte) : readHeader (headerBytes h ++ rest) = .ok (h, rest) := by
  unfold readHeader headerBytes
  simp only [List.append_assoc]
  rw [Reader.bind_run (readBits_bitsBytes 2 11 h.sid _ (by decide)), Reader.bind_run (readBits_bitsBytes 3 18 h.eid _ (by decide)), Reader.bind_run (readBits_bitsBytes 1 4 h.dlc _ (by decide)),
   Reader.bind_run (readBool_boolBytes _ _), Reader.bind_run (readBool_boolBytes _ _), Reader.bind_run (readBool_boolBytes _ _), Reader.bind_run (readBool_boolBytes _ _), Reader.bind_run (readBool_boolBytes _ _), Reader.map_run _ _ _ (readBits_bitsBytes 3 23 h.tail _ (by decide))]

theorem readRetransmit_retransmitBytes (r : Retransmit) (rest : List Byte) : readRetransmit (retransmitBytes r ++ rest) = .ok (r, rest) := by
  cases r <;> rfl

theorem readFifoSpec_fifoSpecBytes (r : FifoSpec) (rest : List Byte) : readFifoSpec (fifoSpecBytes r ++ rest) = .ok (r, rest) := by
  cases r with
  | tx d z p r =>
    unfold readFifoSpec fifoSpecBytes; simp only [List.append_assoc]
    rw [Reader.bind_run (readBool_boolBytes _ _), Reader.bind_run (readBits_bitsBytes 1 8 d _ (by decide)), Reader.bind_run (readBits_bitsBytes 1 8 z _ (by decide))]
    simp only [Bool.false_eq_true, if_false]
    rw [Reader.bind_run (readBits_bitsBytes 1 8 p _ (by decide)), Reader.map_run _ _ _ (readRetransmit_retransmitBytes _ _)]
  | rx d z ts =>
    unfold readFifoSpec fifoSpecBytes; simp only [List.append_assoc]
    rw [Reader.bind_run (readBool_boolBytes _ _), Reader.bind_run (readBits_bitsBytes 1 8 d _ (by decide)), Reader.bind_run (readBits_bitsBytes 1 8 z _ (by decide))]
    simp only [if_true]
    rw [Reader.map_run _ _ _ (readBool_boolBytes _ _)]

theorem readFilterSpec_filterSpecBytes (r : FilterSpec) (rest : List Byte) : readFilterSpec (filterSpecBytes r ++ rest) = .ok (r, rest) := by
  unfold readFilterSpec filterSpecBytes; simp only [List.append_assoc]
  rw [Reader.bind_run (readId_idBytes _ _), Reader.map_run _ _ _ (readBits_bitsBytes 1 8 r.fifo _ (by decide))]

theorem readMaskSpec_maskSpecBytes (r : MaskSpec) (rest : List Byte) : readMaskSpec (maskSpecBytes r ++ rest) = .ok (r, rest) := by
  unfold readMaskSpec maskSpecBytes; simp only [List.append_assoc]
  rw [Reader.bind_run (readId_idBytes _ _), Reader.map_run _ _ _ (readBool_boolBytes _ _)]

end Sys2Proof
end

