-- ==== Sys2Proof/Laws/Follows.lean ====
section
/-! SUPPORT. What a transport failure makes of a piece of an operation (R122): `m.Follows` says that the piece does what it
does with no failure planned, up to the first failure among the primitives it uses, and that it ends there with that
failure's token. -/

namespace Sys2Proof.Machine

def Op.Follows {α : Type} (m : Op α) : Prop :=
  ∀ s : State, s.cs = .released → s.wire = none → ∃ (x : Except Result α) (u : State) (planned : List Txn),
    m (faultFree s) = (x, u) ∧ u.link = s.link ++ planned ∧ u.transport = [] ∧ u.cs = .released ∧ u.wire = none ∧
    ((∀ j, j < primitives planned → s.transport[j]?.getD none = none) →
      m s = (x, { u with transport := s.transport.drop (primitives planned) })) ∧
    ∀ j f, j < primitives planned → FirstFailure s.transport j f →
      ∃ t, m s = (.error (.transport f.err), t) ∧ StoppedAt planned j s t

@[simp] theorem primitives_nil : primitives [] = 0 := rfl
@[simp] theorem primitives_cons (x : Txn) (l : List Txn) : primitives (x :: l) = x.primitives + primitives l := rfl
@[simp] theorem primitives_append (l m : List Txn) : primitives (l ++ m) = primitives l + primitives m := by
  simp [primitives]

/-! ### Putting pieces together -/

section
variable {α β : Type}

/-- A piece that uses no primitive. -/
theorem Op.Follows.silent {m : Op α} (x : Except Result α) (h : ∀ s, m s = (x, s)) : m.Follows := by
  intro s hcs hw
  refine ⟨x, faultFree s, [], h _, (List.append_nil _).symm, rfl, hcs, hw, fun _ => ?_, fun j _ hj => absurd hj (Nat.not_lt_zero j)⟩
  rw [h]; rfl

theorem Op.Follows.pure (a : α) : (Op.pure a).Follows := .silent _ fun _ => rfl

theorem Op.Follows.endWith (r : Result) : (Machine.endWith r : Op α).Follows := .silent _ fun _ => rfl

/-- The failing transaction of a later piece, seen from the beginning. -/
theorem StoppedAt.after {p q : List Txn} {j : Nat} {s u t : State} (hl : u.link = s.link ++ p)
    (ht : u.transport = s.transport.drop (primitives p)) (h : StoppedAt q j u t) : StoppedAt (p ++ q) (primitives p + j) s t := by
  obtain ⟨whole, rest, part, next, h1, h2, h3, h4, h5, h6, h7, h8⟩ := h
  refine ⟨p ++ whole, rest, part, next, by simp [h1], by simp [h2, hl], h3, h4, by simp; omega, by simp; omega, fun e => ?_, fun e => ?_⟩
  · obtain ⟨e1, e2⟩ := h7 (by simp at e; omega)
    exact ⟨e1, by rw [e2, ht, List.drop_drop]; congr 1⟩
  · obtain ⟨e1, e2⟩ := h8 (by simp at e; omega)
    exact ⟨by rw [e1, ht, List.drop_drop]; congr 1, e2⟩

/-- The failing transaction lies in the first piece. -/
theorem StoppedAt.before {p : List Txn} (q : List Txn) {j : Nat} {s t : State} (h : StoppedAt p j s t) : StoppedAt (p ++ q) j s t := by
  obtain ⟨whole, rest, part, next, h1, h2, h3⟩ := h
  exact ⟨whole, rest ++ q, part, next, by simp [h1], h2, h3⟩

theorem FirstFailure.drop {plan : List (Option Failure)} {n j : Nat} {f : Failure} (h : FirstFailure plan (n + j) f) :
    FirstFailure (plan.drop n) j f :=
  ⟨by rw [List.getElem?_drop]; exact h.1, fun k hk => by rw [List.getElem?_drop]; exact h.2 _ (by omega)⟩

theorem Op.Follows.bind {m : Op α} {k : α → Op β} (hm : m.Follows) (hk : ∀ a, (k a).Follows) : (m.bind k).Follows := by
  intro s hcs hw
  obtain ⟨x, u, p, h1, h2, h3, h4, h5, h6, h7⟩ := hm s hcs hw
  cases x with
  | error r =>
    refine ⟨.error r, u, p, Op.bind_error h1, h2, h3, h4, h5, fun hn => Op.bind_error (h6 hn), fun j f hj hf => ?_⟩
    obtain ⟨t, ht, hs⟩ := h7 j f hj hf
    exact ⟨t, Op.bind_error ht, hs⟩
  | ok a =>
    obtain ⟨y, v, q, g1, g2, g3, g4, g5, g6, g7⟩ := hk a { u with transport := s.transport.drop (primitives p) } h4 h5
    have hu : faultFree { u with transport := s.transport.drop (primitives p) } = u := by
      simp only [faultFree]; rw [← h3]
    rw [hu] at g1
    refine ⟨y, v, p ++ q, (Op.bind_ok h1).trans g1, by rw [g2]; simp [h2], g3, g4, g5, fun hn => ?_, fun j f hj hf => ?_⟩
    · rw [Op.bind_ok (h6 fun j hj => hn j (by simp; omega)), g6 fun j hj => ?_]
      · simp [List.drop_drop]
      · simp only [List.getElem?_drop]; exact hn _ (by simp; omega)
    · by_cases hjp : j < primitives p
      · obtain ⟨t, ht, hs⟩ := h7 j f hjp hf
        exact ⟨t, Op.bind_error ht, hs.before q⟩
      · obtain ⟨i, rfl⟩ := Nat.exists_eq_add_of_le (Nat.not_lt.1 hjp)
        obtain ⟨t, ht, hs⟩ := g7 i f (by simp at hj; omega) hf.drop
        refine ⟨t, ?_, hs.after (u := { u with transport := s.transport.drop (primitives p) }) h2 rfl⟩
        rw [Op.bind_ok (h6 fun j hj => hf.2 j (by omega)), ht]

theorem Op.Follows.map {m : Op α} (f : α → β) (hm : m.Follows) : (m.map f).Follows := hm.bind fun a => .pure (f a)

theorem Op.Follows.unitValue {m : Op Unit} (hm : m.Follows) : (Machine.unitValue m).Follows := hm.map _

theorem Op.Follows.require (b : Bool) (r : Result) : (Machine.require b r).Follows := by
  cases b
  · exact .endWith r
  · exact .pure ()

theorem Op.Follows.orEnd (r : Result) (o : Option α) : (Machine.orEnd r o).Follows := by
  cases o
  · exact .endWith r
  · exact .pure _

theorem Op.Follows.withConfig {f : Config → Op α} (hf : ∀ c, (f c).Follows) : (Machine.withConfig f).Follows :=
  fun s => hf s.cfg s

end

/-! ### Transactions -/

section
variable {s : State}

theorem outcome_eq (s : State) : outcome s = s.transport[0]?.getD none := by
  unfold outcome; cases s.transport <;> rfl

theorem outcome_eq₁ (s : State) : outcome (afterOutcome s) = s.transport[1]?.getD none := by
  rw [outcome_eq]; simp

theorem outcome_eq₂ (s : State) : outcome (afterOutcome (afterOutcome s)) = s.transport[2]?.getD none := by
  rw [outcome_eq]; simp

theorem outcome_eq₃ (s : State) : outcome (afterOutcome (afterOutcome (afterOutcome s))) = s.transport[3]?.getD none := by
  rw [outcome_eq]; simp

theorem FirstFailure.getD {plan : List (Option Failure)} {j : Nat} {f : Failure} (h : FirstFailure plan j f) :
    plan[j]?.getD none = some f := by rw [h.1]; rfl

/-- `CsAssert` failing: nothing was sent. -/
theorem stopped_assert (next : Txn) (hcs : s.cs = .released) (hw : s.wire = none) :
    StoppedAt [next] 0 s (releaseAfterFailure (afterOutcome s)) := by
  have : releaseAfterFailure (afterOutcome s) = afterOutcome s := by simp [releaseAfterFailure, hcs]
  rw [this]
  refine ⟨[], [], [], next, rfl, by simp, hcs, hw, Nat.le_refl _, ?_, fun _ => ⟨rfl, by simp⟩, fun h => absurd h (Nat.lt_irrefl _)⟩
  simp only [primitives_nil, Txn.primitives]; split <;> omega

/-- A later primitive failing: a front part was sent, and the release is tried. -/
theorem stopped_open (next : Txn) {w : OpenTxn} {t : State} {j : Nat} (hcs : t.cs = .asserted) (hw : t.wire = some w)
    (hl : t.link = s.link) (ht : t.transport = s.transport.drop (j + 1)) (h0 : 0 < j) (hj : j < next.primitives)
    (h1 : w.mosi <+: next.mosi) (h2 : w.miso <+: next.miso) : StoppedAt [next] j s (releaseAfterFailure t) := by
  simp only [releaseAfterFailure, hcs, closeTxn, afterOutcome_wire, hw]
  refine ⟨[], [], [{ mosi := w.mosi, miso := w.miso, whole := false }], next, rfl, by simp [hl], rfl, rfl, Nat.zero_le _, by simpa using hj, fun h => ?_, fun _ => ⟨by simp [ht], _, rfl, rfl, h1, h2⟩⟩
  simp at h; omega

theorem tail_two {α : Type} : ∀ l : List α, l.tail.tail = l.drop 2
  | [] => rfl
  | [_] => rfl
  | _ :: _ :: _ => rfl

/-- The send-only transactions. -/
theorem framed_spiWrite_follows {bs : List Byte} {done : State → State}
    (hok : ∀ s, outcome s = none → outcome (afterOutcome s) = none → outcome (afterOutcome (afterOutcome s)) = none →
      framed (spiWrite bs) s = (.ok (), done s))
    (hdone : ∀ s, (done s).link = s.link ++ [{ mosi := bs, miso := [], whole := true }] ∧ (done s).cs = .released ∧
      (done s).wire = none ∧ done s = { done (faultFree s) with transport := s.transport.drop 3 }) :
    (framed (spiWrite bs)).Follows := by
  intro s hcs hw
  refine ⟨.ok (), done (faultFree s), [{ mosi := bs, miso := [], whole := true }], hok _ rfl rfl rfl, (hdone _).1, ?_, (hdone _).2.1,
    (hdone _).2.2.1, fun hn => ?_, fun j f hj hf => ?_⟩
  · rw [(hdone _).2.2.2]; rfl
  · have hn : ∀ j, j < 3 → s.transport[j]?.getD none = none := hn
    rw [hok s (by rw [outcome_eq]; exact hn 0 (by decide)) (by rw [outcome_eq₁]; exact hn 1 (by decide)) (by rw [outcome_eq₂]; exact hn 2 (by decide)),
      (hdone s).2.2.2]
    rfl
  · have hj3 : j < 3 := hj
    have h0 : 0 < j → outcome s = none := fun h => by rw [outcome_eq]; exact hf.2 0 h
    have h1 : 1 < j → outcome (afterOutcome s) = none := fun h => by rw [outcome_eq₁]; exact hf.2 1 h
    have hg := hf.getD
    obtain rfl | rfl | rfl : j = 0 ∨ j = 1 ∨ j = 2 := by omega
    · exact ⟨_, framed_assert_fails (by rw [outcome_eq, hg]), stopped_assert _ hcs hw⟩
    · refine ⟨_, framed_body_fails (h0 (by decide)) (spiWrite_fails (s := opened s) bs (f := f) ((outcome_eq₁ s).trans hg)), ?_⟩
      exact stopped_open (w := { mosi := bs.take f.sent, miso := [], landed := some f.landed }) _ rfl rfl rfl
        (by simp only [opened]; exact tail_two _) (by decide) hj3 (List.take_prefix _ _) List.prefix_rfl
    · refine ⟨_, framed_release_fails (h0 (by decide)) (spiWrite_ok (s := opened s) bs (h1 (by decide))) (f := f) ((outcome_eq₂ s).trans hg), ?_⟩
      exact stopped_open (w := { mosi := bs, miso := [], landed := some f.landed }) _ rfl rfl rfl
        (by simp only [opened]; exact tail_three _) (by decide) hj3 List.prefix_rfl List.prefix_rfl

theorem busReset_follows : busReset.Follows :=
  framed_spiWrite_follows (done := resetNoted) (fun _ => busReset_ok) fun _ => ⟨rfl, rfl, rfl, rfl⟩

theorem busWrite_follows (a : Addr) (data : List Byte) : (busWrite a data).Follows :=
  framed_spiWrite_follows (done := writeNoted a data) (fun _ => busWrite_ok a data) fun _ => ⟨rfl, rfl, rfl, rfl⟩

/-- The state after a READ with no failure planned, but for the outcomes used up. -/
theorem readNoted_faultFree (a : Addr) (n : Nat) (s : State) :
    readNoted a n s = { readNoted a n (faultFree s) with transport := s.transport.drop 4 } := by
  have h : afterCapture n (faultFree s) = faultFree (afterCapture n s) := by
    unfold afterCapture faultFree; cases hc : s.chip <;> simp only [hc]
  simp only [readNoted, readDone, h]
  rfl

/-- A READ of at least one byte. -/
theorem busRead_follows (a : Addr) {n : Nat} (hn0 : n ≠ 0) : (busRead a n).Follows := by
  intro s hcs hw
  have hp : (readTxn a n s).primitives = 4 := by
    have : captured s a.toNat n ≠ [] := fun h => hn0 (by rw [← length_captured s a.toNat n, h]; rfl)
    simp only [Txn.primitives, readTxn, this, if_false]
  have hpl : primitives [readTxn a n s] = 4 := by rw [primitives_cons, hp]; rfl
  refine ⟨.ok (captured s a.toNat n), readNoted a n (faultFree s), [readTxn a n s], busRead_ok a n rfl rfl rfl rfl, rfl, ?_, rfl, rfl,
    fun hn => ?_, fun j f hj hf => ?_⟩
  · rfl
  · rw [hpl] at hn ⊢
    rw [busRead_ok a n (by rw [outcome_eq]; exact hn 0 (by decide)) (by rw [outcome_eq₁]; exact hn 1 (by decide))
      (by rw [outcome_eq₂]; exact hn 2 (by decide)) (by rw [outcome_eq₃]; exact hn 3 (by decide)), readNoted_faultFree]
  · rw [hpl] at hj
    have h0 : 0 < j → outcome s = none := fun h => by rw [outcome_eq]; exact hf.2 0 h
    have h1 : 1 < j → outcome (afterOutcome s) = none := fun h => by rw [outcome_eq₁]; exact hf.2 1 h
    have h2 : 2 < j → outcome (afterOutcome (afterOutcome s)) = none := fun h => by rw [outcome_eq₂]; exact hf.2 2 h
    have hg := hf.getD
    have ws := fun h => spiWrite_ok (s := opened s) (wireCommand opRead a) (h1 h)
    have hadr : openAddress (wireCommand opRead a) = a.toNat := by simpa using openAddress_wireCommand opRead a []
    have hcap : captured (sendBytes (wireCommand opRead a) (afterOutcome (opened s))) a.toNat n = captured s a.toNat n :=
      captured_congr rfl rfl rfl rfl _ _
    obtain rfl | rfl | rfl | rfl : j = 0 ∨ j = 1 ∨ j = 2 ∨ j = 3 := by omega
    · exact ⟨_, framed_assert_fails (by rw [outcome_eq, hg]), stopped_assert _ hcs hw⟩
    · refine ⟨_, framed_body_fails (h0 (by decide)) (Op.bind_error (spiWrite_fails (s := opened s) _ (f := f) ((outcome_eq₁ s).trans hg))), ?_⟩
      exact stopped_open (w := { mosi := (wireCommand opRead a).take f.sent, miso := [], landed := some f.landed }) _ rfl rfl rfl
        (by simp only [opened]; exact tail_two _) (by decide) (by rw [hp]; decide) ((List.take_prefix _ _).trans (List.prefix_append _ _)) List.nil_prefix
    · refine ⟨_, framed_body_fails (h0 (by decide)) ((Op.bind_ok (ws (by decide))).trans
        (spiTransfer_fails (s := sendBytes (wireCommand opRead a) (afterOutcome (opened s))) n (f := f) ((outcome_eq₂ s).trans hg))), ?_⟩
      exact stopped_open (w := { mosi := wireCommand opRead a ++ (zeros n).take f.sent, miso := [], landed := some f.landed }) _ rfl rfl rfl
        (by simp only [opened]; exact tail_three _) (by decide) (by rw [hp]; decide) ((List.prefix_append_right_inj _).2 (List.take_prefix _ _)) List.nil_prefix
    · have wt := spiTransfer_ok (s := sendBytes (wireCommand opRead a) (afterOutcome (opened s))) n (h2 (by decide))
      refine ⟨_, framed_release_fails (h0 (by decide)) ((Op.bind_ok (ws (by decide))).trans wt) (f := f) ((outcome_eq_of_transport (by
        simp [transferred, opened])).trans ((outcome_eq₃ s).trans hg)), ?_⟩
      refine stopped_open (w := { mosi := wireCommand opRead a ++ zeros n, miso := captured s a.toNat n, landed := some f.landed }) _
        (by simp [transferred, opened]) ?_ (by simp [transferred, opened]) ?_ (by decide) (by rw [hp]; decide) List.prefix_rfl List.prefix_rfl
      · simp only [transferred, opened, afterOutcome_wire, markLanded_wire, sendBytes_wire, afterCapture_wire, Option.map_some, Option.elim_some,
          List.nil_append, hadr]
        simp only [opened] at hcap
        rw [hcap]; rfl
      · simp only [transferred, opened, afterOutcome_transport, markLanded_transport, sendBytes_transport, afterCapture_transport, tail_four]

end

/-! ### Accesses -/

theorem readRegister_follows (a : Addr) : (readRegister a).Follows :=
  .bind (.require _ _) fun _ => .map _ (busRead_follows a (by decide))

theorem writeRegister_follows (a : Addr) (v : Word) : (writeRegister a v).Follows :=
  .bind (.require _ _) fun _ => busWrite_follows a _

theorem modifyRegister_follows (a : Addr) (mask value : Word) : (modifyRegister a mask value).Follows :=
  .bind (.require _ _) fun _ => .withConfig fun _ => .bind (.require _ _) fun _ =>
    .bind (readRegister_follows a) fun _ => writeRegister_follows a _

theorem ramCheck_follows (off n : Nat) : (ramCheck off n).Follows :=
  .bind (.require _ _) fun _ => .bind (.require _ _) fun _ => .require _ _

theorem readRam_follows (off n : Nat) : (readRam off n).Follows :=
  .bind (ramCheck_follows _ _) fun _ => by
    split
    · exact .pure []
    · exact busRead_follows _ ‹_›

theorem writeRam_follows (off : Nat) (data : List Byte) : (writeRam off data).Follows :=
  .bind (ramCheck_follows _ _) fun _ => by
    split
    · exact .pure ()
    · exact busWrite_follows _ _

theorem rawCheck_follows (a : Addr) (n : Nat) : (rawCheck a n).Follows := by
  unfold rawCheck
  split
  · exact .require _ _
  · exact .bind (.require _ _) fun _ => .bind (.require _ _) fun _ => .require _ _

/-- A raw READ: the checks let no empty one through. -/
theorem rawRead_follows (a : Addr) (n : Nat) : ((rawCheck a n).bind fun _ => (busRead a n).map Value.bytes).Follows := by
  by_cases hn : n = 0
  · subst hn
    exact .silent (.error (.contractViolation .ramLength)) fun _ => rfl
  · exact .bind (rawCheck_follows a n) fun _ => .map _ (busRead_follows a hn)

/-! ### Composite operations -/

theorem sendFrame_follows (regs : FifoRegs) (f : Frame) : (sendFrame regs f).Follows :=
  .withConfig fun _ => .bind (readRegister_follows _) fun _ => .bind (writeRam_follows _ _) fun _ => .unitValue (modifyRegister_follows _ _ _)

theorem transmitOp_follows (i : Nat) (f : Frame) : (transmitOp i f).Follows :=
  .bind (.orEnd _ _) fun regs => .withConfig fun _ => .bind (readRegister_follows _) fun _ => by
    split
    · exact sendFrame_follows regs f
    · exact .endWith _

theorem receiveFrom_follows (i : Nat) : (receiveFrom i).Follows :=
  .bind (.orEnd _ _) fun _ => .withConfig fun _ => .bind (readRegister_follows _) fun _ => .bind (readRam_follows _ _) fun _ =>
    .bind (.bind (readRam_follows _ _) fun _ => .orEnd _ _) fun _ => .map _ (modifyRegister_follows _ _ _)

theorem receiveOp_follows : receiveOp.Follows :=
  .withConfig fun _ => .bind (readRegister_follows _) fun _ => by
    split
    · exact .withConfig fun _ => .bind (modifyRegister_follows _ _ _) fun _ => .endWith _
    · exact .withConfig fun _ => .bind (readRegister_follows _) fun _ => by
        split
        · exact receiveFrom_follows _
        · exact .endWith _
    · exact .endWith _

/-- Every operation. -/
theorem bodyOf_follows (i : Instr) : (bodyOf i).Follows := by
  cases i with
  | wReset | reset => exact .unitValue busReset_follows
  | wRead a n => exact rawRead_follows a n
  | wWrite a data => exact .bind (rawCheck_follows _ _) fun _ => .unitValue (busWrite_follows _ _)
  | wWriteCrc | wReadCrc | wWriteSafe | dlcToLen | encode | scan => exact .pure _
  | readReg a => exact .map _ (readRegister_follows a)
  | writeReg a v => exact .unitValue (writeRegister_follows a v)
  | modifyReg a mask value => exact .unitValue (modifyRegister_follows a mask value)
  | readBytes off n => exact .map _ (readRam_follows _ _)
  | writeBytes off data => exact .unitValue (writeRam_follows _ _)
  | requestToTransmit | readStatus => exact .endWith _
  | lenToDlc | frameNew | decode | fifoAddr => exact .map _ (.orEnd _ _)
  | hdrToBytes h => exact .withConfig fun c => .pure (Value.bytes (headerToBytes c.schema h))
  | bytesToHdr b => exact .withConfig fun c => .pure (Value.header (bytesToHeader c.schema b))
  | arbitrate w => exact .withConfig fun c => .pure (Value.arbitration (Machine.arbitrate c.schema w))
  | filterAddr n => exact .map _ (.withConfig fun _ => .orEnd _ _)
  | transmit i f => exact transmitOp_follows _ _
  | receive | receiveWait => exact receiveOp_follows
  | configureFifo i spec =>
    exact .bind (.orEnd _ _) fun _ => .bind (.require _ _) fun _ => .withConfig fun _ => .unitValue (writeRegister_follows _ _)
  | configureFilter n f m =>
    exact .bind (.withConfig fun _ => .orEnd _ _) fun _ => .bind (.orEnd _ _) fun _ => .withConfig fun _ =>
      .bind (writeRegister_follows _ _) fun _ => .bind (writeRegister_follows _ _) fun _ => .unitValue (modifyRegister_follows _ _ _)

theorem onVariant_follows {α : Type} {m : Op α} (hm : m.Follows) : (onVariant m).Follows :=
  .withConfig fun _ => .bind (.require _ _) fun _ => hm

end Sys2Proof.Machine
end

