-- ==== Sys2Proof/Laws/PerInstr.lean ====
section
/-! SUPPORT. Facts about instructions as syntax, one lemma per constructor: the code an instruction's encoding leads with
is the one its row of spec/opcode_table.json fixes. -/

namespace Sys2Proof.Laws.LeadByte

/-- The fixed bits of an instruction's row: the nibble of a wire command (R81 to R86), the opc of a host operation (R100). -/
def tableCode : Instr → Nat
  | .wReset => 0x0
  | .wRead _ _ => 0x3
  | .wWrite _ _ => 0x2
  | .wWriteCrc _ _ => 0xA
  | .wReadCrc _ _ => 0xB
  | .wWriteSafe _ _ => 0xC
  | .reset => 0x00
  | .readReg _ => 0x01
  | .writeReg _ _ => 0x02
  | .modifyReg _ _ _ => 0x03
  | .readBytes _ _ => 0x04
  | .writeBytes _ _ => 0x05
  | .requestToTransmit _ => 0x06
  | .readStatus => 0x07
  | .dlcToLen _ => 0x10
  | .lenToDlc _ => 0x11
  | .frameNew _ _ _ => 0x12
  | .encode _ => 0x13
  | .decode _ _ => 0x14
  | .hdrToBytes _ => 0x15
  | .bytesToHdr _ => 0x16
  | .fifoAddr _ => 0x20
  | .filterAddr _ => 0x21
  | .arbitrate _ => 0x22
  | .scan _ => 0x23
  | .transmit _ _ => 0x30
  | .receive => 0x31
  | .receiveWait => 0x32
  | .configureFifo _ _ => 0x40
  | .configureFilter _ _ _ => 0x41

/-- The code a request leads with: the opc of a host operation, the top nibble of a wire frame. -/
def leads : Request → Option Nat
  | .host bytes => bytes.head?.map fun b => b.toNat
  | .wire frame => frame.head?.map fun b => (wireNibble b).toNat

/-- The encoding leads with the table's code. -/
def Statement (i : Instr) : Prop := leads (Sys2Proof.encode i) = some (tableCode i)

/-- R84: the top nibble of a wire command's first byte is the command's. -/
theorem wireNibble_first (c : BitVec 4) (a : Addr) :
    wireNibble ((c.setWidth 8 <<< 4) ||| (a.extractLsb' 8 4).setWidth 8) = c := by
  unfold wireNibble
  ext i hi
  simp only [BitVec.getElem_extractLsb', BitVec.getLsbD_or, BitVec.getLsbD_shiftLeft, BitVec.getLsbD_setWidth,
    BitVec.getLsbD_extractLsb']
  interval_cases i <;> simp

theorem leads_command (c : BitVec 4) (a : Addr) (rest : List Byte) : leads (.wire (wireCommand c a ++ rest)) = some c.toNat := by
  simp only [leads, wireCommand, List.cons_append, List.head?_cons, Option.map_some, wireNibble_first]

theorem wReset : Statement .wReset := rfl
theorem wRead (a : Addr) (n : Nat) : Statement (.wRead a n) := leads_command _ _ _
theorem wWrite (a : Addr) (data : List Byte) : Statement (.wWrite a data) := leads_command _ _ _
theorem wWriteCrc (a : Addr) (rest : List Byte) : Statement (.wWriteCrc a rest) := leads_command _ _ _
theorem wReadCrc (a : Addr) (rest : List Byte) : Statement (.wReadCrc a rest) := leads_command _ _ _
theorem wWriteSafe (a : Addr) (rest : List Byte) : Statement (.wWriteSafe a rest) := leads_command _ _ _
theorem reset : Statement .reset := rfl
theorem readReg (addr : Addr) : Statement (.readReg addr) := rfl
theorem writeReg (addr : Addr) (value : Word) : Statement (.writeReg addr value) := rfl
theorem modifyReg (addr : Addr) (mask value : Word) : Statement (.modifyReg addr mask value) := rfl
theorem readBytes (off n : Word) : Statement (.readBytes off n) := rfl
theorem writeBytes (off : Word) (data : List Byte) : Statement (.writeBytes off data) := rfl
theorem requestToTransmit (queue : Byte) : Statement (.requestToTransmit queue) := rfl
theorem readStatus : Statement .readStatus := rfl
theorem dlcToLen (dlc : BitVec 4) : Statement (.dlcToLen dlc) := rfl
theorem lenToDlc (len : Word) : Statement (.lenToDlc len) := rfl
theorem frameNew (id : Id) (data : List Byte) (seq : Option (BitVec 23)) : Statement (.frameNew id data seq) := rfl
theorem encode (frame : Frame) : Statement (.encode frame) := rfl
theorem decode (header : Header) (payload : List Byte) : Statement (.decode header payload) := rfl
theorem hdrToBytes (header : Header) : Statement (.hdrToBytes header) := rfl
theorem bytesToHdr (b : List Byte) : Statement (.bytesToHdr b) := rfl
theorem fifoAddr (i : Byte) : Statement (.fifoAddr i) := rfl
theorem filterAddr (n : Byte) : Statement (.filterAddr n) := rfl
theorem arbitrate (intStatus : Word) : Statement (.arbitrate intStatus) := rfl
theorem scan (bitmap : Word) : Statement (.scan bitmap) := rfl
theorem transmit (i : Byte) (frame : Frame) : Statement (.transmit i frame) := rfl
theorem receive : Statement .receive := rfl
theorem receiveWait : Statement .receiveWait := rfl
theorem configureFifo (i : Byte) (spec : FifoSpec) : Statement (.configureFifo i spec) := rfl
theorem configureFilter (n : Byte) (filter : FilterSpec) (mask : MaskSpec) : Statement (.configureFilter n filter mask) := rfl

end Sys2Proof.Laws.LeadByte
end

