-- ==== Sys2Proof/Laws/Ran.lean ====
section
/-! SUPPORT. Everything a piece of an operation can do, whatever the transport does: `Ran n W s t fail` says that from `s`
to `t` at most `n` transactions were recorded, only bytes in `W` were stored, and `fail` is the token of the transport
failure that ended the piece, if one did. -/

namespace Sys2Proof.Machine

/-- The token of a transport failure. -/
def failOf {α : Type} : Except Result α → Option Nat
  | .error (.transport e) => some e
  | _ => none

structure Ran (n : Nat) (W : Nat → Prop) (s t : State) (fail : Option Nat) : Prop where
  cfg       : t.cfg = s.cfg
  irq       : t.irq = s.irq
  requests  : t.requests = s.requests
  events    : t.events = s.events
  chip      : t.chip = s.chip
  result    : t.result = s.result
  plan      : t.transport <:+ s.transport
  released  : t.cs = .released
  noOpenTxn : t.wire = none
  memWf     : Memory.wf s.mem = true → Memory.wf t.mem = true
  mem       : ∀ x, ¬ W x → Memory.read t.mem x = Memory.read s.mem x
  link      : ∃ whole part : List Txn, t.link = s.link ++ whole ++ part ∧ (∀ x ∈ whole, x.whole = true ∧ x.legal) ∧
                (∀ x ∈ part, x.whole = false ∧ x.legal) ∧ part.length ≤ 1 ∧ whole.length + part.length ≤ n ∧
                (fail = none → part = [])
  fails     : ∀ e, fail = some e → ∃ f : Failure, some f ∈ s.transport ∧ f.err = e
  run       : fail = none → ∀ op k sc, s.run = .running op k sc →
                ∃ sc', t.run = .running op (k + (t.link.length - s.link.length)) sc'

section
variable {n m : Nat} {W V : Nat → Prop} {s t u : State} {fail : Option Nat}

theorem Ran.refl (hcs : s.cs = .released) (hw : s.wire = none) : Ran 0 W s s none where
  cfg := rfl
  irq := rfl
  requests := rfl
  events := rfl
  chip := rfl
  result := rfl
  plan := List.suffix_rfl
  released := hcs
  noOpenTxn := hw
  memWf h := h
  mem _ _ := rfl
  link := ⟨[], [], by simp, by simp, by simp, by simp, by simp, fun _ => rfl⟩
  fails _ h := by cases h
  run _ op k sc h := ⟨sc, by simpa using h⟩

theorem Ran.link_none (h : Ran n W s t none) :
    ∃ whole : List Txn, t.link = s.link ++ whole ∧ (∀ x ∈ whole, x.whole = true ∧ x.legal) ∧ whole.length ≤ n := by
  obtain ⟨whole, part, h1, h2, _, _, h5, h6⟩ := h.link
  rw [h6 rfl] at h1 h5
  exact ⟨whole, by simpa using h1, h2, by simpa using h5⟩

/-- One piece after another that ended well. -/
theorem Ran.trans (h1 : Ran n W s t none) (h2 : Ran m W t u fail) : Ran (n + m) W s u fail where
  cfg := h2.cfg.trans h1.cfg
  irq := h2.irq.trans h1.irq
  requests := h2.requests.trans h1.requests
  events := h2.events.trans h1.events
  chip := h2.chip.trans h1.chip
  result := h2.result.trans h1.result
  plan := h2.plan.trans h1.plan
  released := h2.released
  noOpenTxn := h2.noOpenTxn
  memWf h := h2.memWf (h1.memWf h)
  mem x hx := (h2.mem x hx).trans (h1.mem x hx)
  link := by
    obtain ⟨w1, e1, l1, c1⟩ := h1.link_none
    obtain ⟨w2, p, e2, l2, l3, c2, c3, hp⟩ := h2.link
    refine ⟨w1 ++ w2, p, by rw [e2, e1]; simp, ?_, l3, c2, by simp; omega, hp⟩
    intro x hx
    rcases List.mem_append.1 hx with hx | hx
    · exact l1 x hx
    · exact l2 x hx
  fails e he := by
    obtain ⟨f, hf, h⟩ := h2.fails e he
    exact ⟨f, h1.plan.subset hf, h⟩
  run hf op k sc h := by
    obtain ⟨sc1, e1⟩ := h1.run rfl op k sc h
    obtain ⟨sc2, e2⟩ := h2.run hf op _ _ e1
    refine ⟨sc2, e2.trans ?_⟩
    obtain ⟨w1, q1, _, _⟩ := h1.link_none
    obtain ⟨w2, q2, _, _⟩ := (hf ▸ h2 : Ran m W t u none).link_none
    congr 1
    rw [q2, q1]; simp; omega

theorem Ran.mono (h : Ran n W s t fail) (hn : n ≤ m) (hW : ∀ x, W x → V x) : Ran m V s t fail :=
  { h with
    mem := fun x hx => h.mem x fun hw => hx (hW x hw)
    link := by
      obtain ⟨w, p, h1, h2, h3, h4, h5, h6⟩ := h.link
      exact ⟨w, p, h1, h2, h3, h4, Nat.le_trans h5 hn, h6⟩ }

end

/-! ### Transactions -/

/-- The bytes of a run. -/
def inRun (a n : Nat) (x : Nat) : Prop := a ≤ x ∧ x < a + n

theorem not_inRun {a n x : Nat} : ¬ inRun a n x ↔ x < a ∨ a + n ≤ x := by simp only [inRun]; omega

theorem emittable_read {a : Addr} {n : Nat} (h : addressable a.toNat n = true) {miso : List Byte} (hm : miso.length = n) :
    emittable (wireCommand opRead a ++ zeros n) miso = true := by
  have hn : (((opRead.setWidth 8 <<< 4) ||| (a.extractLsb' 8 4).setWidth 8 : Byte).extractLsb' 4 4 : BitVec 4) = opRead :=
    wireNibble_wireCommand opRead a
  simp only [emittable, wireCommand, List.cons_append, List.nil_append, wireAddress_wireCommand, hn]
  simp [zeros, h, hm, opRead]

theorem emittable_write {a : Addr} {data : List Byte} (h : addressable a.toNat data.length = true) :
    emittable (wireCommand opWrite a ++ data) [] = true := by
  have hn : (((opWrite.setWidth 8 <<< 4) ||| (a.extractLsb' 8 4).setWidth 8 : Byte).extractLsb' 4 4 : BitVec 4) = opWrite :=
    wireNibble_wireCommand opWrite a
  simp only [emittable, wireCommand, List.cons_append, List.nil_append, wireAddress_wireCommand, hn]
  simp [h, opWrite]

theorem legal_of_emittable {mosi miso : List Byte} (h : emittable mosi miso = true) :
    Txn.legal { mosi := mosi, miso := miso, whole := true } :=
  ⟨fun _ => h, mosi, miso, h, List.prefix_rfl, List.prefix_rfl⟩

theorem legal_of_front {mosi miso p q : List Byte} (h : emittable mosi miso = true) (hp : p <+: mosi) (hq : q <+: miso) :
    Txn.legal { mosi := p, miso := q, whole := false } :=
  ⟨fun h => (Bool.noConfusion h), mosi, miso, h, hp, hq⟩

/-- A transaction that was cut short. -/
theorem Cut.ran {mosi miso : List Byte} {s t : State} {f : Failure} {W : Nat → Prop} (h : Cut mosi miso s t)
    (hf : some f ∈ s.transport) (he : emittable mosi miso = true)
    (hwf : Memory.wf s.mem = true → ∀ p l, p <+: mosi → Memory.wf (chipMemory p l s.mem) = true)
    (hm : ∀ p l x, p <+: mosi → ¬ W x → Memory.read (chipMemory p l s.mem) x = Memory.read s.mem x) :
    Ran 1 W s t (some f.err) where
  cfg := h.cfg
  irq := h.irq
  requests := h.requests
  events := h.events
  chip := h.chip
  result := h.result
  plan := h.plan
  released := h.released
  noOpenTxn := h.noOpenTxn
  memWf hs := by
    rcases h.mem with e | ⟨p, l, hp, e⟩
    · rw [e]; exact hs
    · rw [e]; exact hwf hs p l hp
  mem x hx := by
    rcases h.mem with e | ⟨p, l, hp, e⟩
    · rw [e]
    · rw [e]; exact hm p l x hp hx
  link := by
    rcases h.link with e | ⟨p, q, e, hp, hq⟩
    · exact ⟨[], [], by simpa using e, by simp, by simp, by simp, by simp, fun h => by cases h⟩
    · refine ⟨[], [_], by simpa using e, by simp, ?_, by simp, by simp, fun h => by cases h⟩
      intro x hx
      rw [List.mem_singleton.1 hx]
      exact ⟨rfl, legal_of_front he hp hq⟩
  fails e h := ⟨f, hf, Option.some.inj h⟩
  run h := by cases h

/-- What a piece gives for the state it ran in. -/
def Op.Runs {α : Type} (c : Config) (n : Nat) (W : Nat → Prop) (m : Op α) : Prop :=
  ∀ s : State, s.cfg = c → s.cs = .released → s.wire = none → Ran n W s (m s).2 (failOf (m s).1)

theorem busReset_runs (c : Config) (W : Nat → Prop) : busReset.Runs c 1 W := by
  intro s _ hcs hw
  rcases busReset_cases hcs hw with h | ⟨f, t, hf, h, hc⟩
  · rw [h]
    exact { cfg := rfl, irq := rfl, requests := rfl, events := rfl, chip := rfl, result := rfl
            plan := List.drop_suffix _ _, released := rfl, noOpenTxn := rfl, memWf := fun h => h, mem := fun _ _ => rfl
            link := ⟨[resetTxn], [], by simp [resetNoted, resetDone],
              by intro x hx; rw [List.mem_singleton.1 hx]; exact ⟨rfl, legal_of_emittable (by decide)⟩,
              by simp, by simp, by simp, fun _ => rfl⟩
            fails := fun _ h => by cases h
            run := fun _ op k sc h => ⟨sc, by simp [resetNoted, resetDone, h, countTxn]⟩ }
  · rw [h]
    refine hc.ran hf (by decide) (fun hs p l hp => ?_) (fun p l x hp _ => ?_) <;> rw [chipMemory_front_reset l _ hp]
    exact hs

theorem busRead_runs (c : Config) (W : Nat → Prop) {a : Addr} {n : Nat} (h : addressable a.toNat n = true) :
    (busRead a n).Runs c 1 W := by
  intro s _ hcs hw
  rcases busRead_cases a n hcs hw with e | ⟨f, t, hf, e, hc⟩
  · rw [e]
    exact { cfg := rfl, irq := rfl, requests := rfl, events := rfl, chip := rfl, result := rfl
            plan := List.drop_suffix _ _, released := rfl, noOpenTxn := rfl, memWf := fun h => h, mem := fun _ _ => rfl
            link := ⟨[readTxn a n s], [], by simp [readNoted, readDone],
              by intro x hx; rw [List.mem_singleton.1 hx]; exact ⟨rfl, legal_of_emittable (emittable_read h (by simp))⟩,
              by simp, by simp, by simp, fun _ => rfl⟩
            fails := fun _ h => by cases h
            run := fun _ op k sc h => ⟨sc ++ captured s a.toNat n, by simp [readNoted, readDone, h, countTxn, keepScratch]⟩ }
  · rw [e]
    refine hc.ran hf (emittable_read h (by simp)) (fun hs p l hp => ?_) (fun p l x hp _ => ?_) <;>
      rw [chipMemory_front_read l _ hp]
    exact hs

theorem addressable_fits {a : Addr} {n : Nat} (h : addressable a.toNat n = true) : a.toNat + n ≤ chipSpace := by
  have := a.isLt
  simp [addressable] at h
  simp only [chipSpace]; omega

theorem busWrite_runs (c : Config) {a : Addr} {data : List Byte} (h : addressable a.toNat data.length = true) :
    (busWrite a data).Runs c 1 (inRun a.toNat data.length) := by
  intro s _ hcs hw
  have hfit := addressable_fits h
  rcases busWrite_cases a data hcs hw with e | ⟨f, t, hf, e, hc⟩
  · rw [e]
    exact { cfg := rfl, irq := rfl, requests := rfl, events := rfl, chip := rfl, result := rfl
            plan := List.drop_suffix _ _, released := rfl, noOpenTxn := rfl
            memWf := fun h => Memory.writeBytes_wf hfit h
            mem := fun x hx => Memory.read_writeBytes_other (not_inRun.1 hx)
            link := ⟨[writeTxn a data], [], by simp [writeNoted, writeDone],
              by intro x hx; rw [List.mem_singleton.1 hx]; exact ⟨rfl, legal_of_emittable (emittable_write h)⟩,
              by simp, by simp, by simp, fun _ => rfl⟩
            fails := fun _ h => by cases h
            run := fun _ op k sc h => ⟨sc, by simp [writeNoted, writeDone, h, countTxn]⟩ }
  · rw [e]
    refine hc.ran hf (emittable_write h) (fun hs p l hp => ?_) (fun p l x hp hx => ?_)
    · obtain ⟨d, hd, e⟩ := chipMemory_front_write l s.mem hp
      rw [e]; exact Memory.writeBytes_wf (Nat.le_trans (Nat.add_le_add_left hd.length_le _) hfit) hs
    · obtain ⟨d, hd, e⟩ := chipMemory_front_write l s.mem hp
      rw [e]
      exact Memory.read_writeBytes_other ((not_inRun.1 hx).imp_right (Nat.le_trans (Nat.add_le_add_left hd.length_le _)))

/-! ### Putting pieces together -/

section
variable {α β : Type} {c : Config} {n m : Nat} {W V : Nat → Prop}

theorem Op.Runs.mono {x : Op α} (h : x.Runs c n W) (hn : n ≤ m) (hW : ∀ y, W y → V y) : x.Runs c m V :=
  fun s hc hcs hw => (h s hc hcs hw).mono hn hW

theorem Op.Runs.pure (a : α) : (Op.pure a).Runs c 0 W := fun _ _ hcs hw => .refl hcs hw

/-- Ending with any result but a transport error of its own making. -/
theorem Op.Runs.endWith {r : Result} (hr : ∀ e, r ≠ .transport e) : (Machine.endWith r : Op α).Runs c 0 W := by
  intro s _ hcs hw
  have : failOf (.error r : Except Result α) = none := by cases r <;> first | rfl | exact absurd rfl (hr _)
  rw [endWith_run, this]
  exact .refl hcs hw

theorem Op.Runs.bind {x : Op α} {k : α → Op β} (hx : x.Runs c n W) (hk : ∀ a, (k a).Runs c m W) : (x.bind k).Runs c (n + m) W := by
  intro s hc hcs hw
  have h := hx s hc hcs hw
  rw [Op.bind_run]
  generalize x s = y at h
  obtain ⟨r, t⟩ := y
  cases r with
  | ok a => exact h.trans (hk a t (h.cfg.trans hc) h.released h.noOpenTxn)
  | error r =>
    have : failOf (.error r : Except Result β) = failOf (.error r : Except Result α) := by cases r <;> rfl
    simp only [this]
    exact h.mono (Nat.le_add_right _ _) fun _ hy => hy

theorem Op.Runs.map {x : Op α} (f : α → β) (hx : x.Runs c n W) : (x.map f).Runs c n W := hx.bind fun a => .pure (f a)

theorem Op.Runs.unitValue {x : Op Unit} (hx : x.Runs c n W) : (Machine.unitValue x).Runs c n W := hx.map _

/-- A check, and what follows it when it holds. -/
theorem Op.Runs.require {b : Bool} {r : Result} {k : Unit → Op β} (hr : ∀ e, r ≠ .transport e)
    (hk : b = true → (k ()).Runs c n W) : ((Machine.require b r).bind k).Runs c n W := by
  cases b with
  | false =>
    intro s hc hcs hw
    rw [Op.bind_error (require_false r s)]
    exact ((Op.Runs.endWith (α := β) hr) s hc hcs hw).mono (Nat.zero_le _) fun _ h => h
  | true => exact fun s hc hcs hw => hk rfl s hc hcs hw

theorem Op.Runs.withConfig {f : Config → Op α} (hf : (f c).Runs c n W) : (Machine.withConfig f).Runs c n W := by
  intro s hc hcs hw
  rw [withConfig_run, hc]
  exact hf s hc hcs hw

theorem Op.Runs.orEnd {r : Result} {o : Option α} {k : α → Op β} (hr : ∀ e, r ≠ .transport e)
    (hk : ∀ a, o = some a → (k a).Runs c n W) : ((Machine.orEnd r o).bind k).Runs c n W := by
  cases o with
  | none =>
    intro s hc hcs hw
    rw [Op.bind_error (orEnd_none r s)]
    exact ((Op.Runs.endWith (α := β) hr) s hc hcs hw).mono (Nat.zero_le _) fun _ h => h
  | some a => exact fun s hc hcs hw => hk a rfl s hc hcs hw

end

/-! ### Accesses -/

section
variable {c : Config} {W : Nat → Prop}

theorem addressable_reg {a : Addr} (h : regAligned a = true) : addressable a.toNat 4 = true := by
  have : a.toNat % 4 = 0 := by simpa [regAligned] using h
  simp [addressable, this]

theorem readRegister_runs (a : Addr) : (readRegister a).Runs c 1 W :=
  .require (fun _ => by simp) fun h => (busRead_runs c W (addressable_reg h)).map _

theorem writeRegister_runs (a : Addr) (v : Word) : (writeRegister a v).Runs c 1 (inRun a.toNat 4) :=
  .require (fun _ => by simp) fun h => busWrite_runs (data := bytes32 v) c (addressable_reg h)

theorem modifyRegister_runs (a : Addr) (mask value : Word) : (modifyRegister a mask value).Runs c 2 (inRun a.toNat 4) :=
  .require (fun _ => by simp) fun _ => .withConfig (.require (fun _ => by simp) fun _ =>
    .bind (m := 1) (readRegister_runs a) fun _ => writeRegister_runs a _)

theorem addressable_ram {off n : Nat} (hn : n % 4 = 0) (ho : off % 4 = 0) (hr : off + n ≤ 2048) (h0 : n ≠ 0) :
    addressable (windowAddr off).toNat n = true := by
  rw [toNat_windowAddr (by omega)]
  simp only [addressable, Bool.and_eq_true, Bool.or_eq_true, beq_iff_eq, decide_eq_true_eq]
  omega

/-- What follows the RAM checks. -/
theorem ramCheck_runs {α : Type} {k : Unit → Op α} {off n m : Nat}
    (hk : n % 4 = 0 → off % 4 = 0 → off + n ≤ 2048 → (k ()).Runs c m W) : ((ramCheck off n).bind k).Runs c m W := by
  intro s hc hcs hw
  rcases ramCheck_cases off n s with ⟨h1, h2, h3, h⟩ | ⟨v, h, _⟩
  · rw [Op.bind_ok h]; exact hk h1 h2 h3 s hc hcs hw
  · rw [Op.bind_error h]; exact (Ran.refl hcs hw).mono (Nat.zero_le _) fun _ h => h

theorem readRam_runs (off n : Nat) : (readRam off n).Runs c 1 W :=
  ramCheck_runs fun h1 h2 h3 => by
    by_cases h0 : n = 0
    · rw [if_pos h0]; exact (Op.Runs.pure []).mono (Nat.zero_le _) fun _ h => h
    · rw [if_neg h0]; exact busRead_runs c W (addressable_ram h1 h2 h3 h0)

theorem writeRam_runs (off : Nat) (data : List Byte) : (writeRam off data).Runs c 1 (inRun (windowAddr off).toNat data.length) :=
  ramCheck_runs fun h1 h2 h3 => by
    by_cases h0 : data.length = 0
    · rw [if_pos h0]; exact (Op.Runs.pure ()).mono (Nat.zero_le _) fun _ h => h
    · rw [if_neg h0]; exact busWrite_runs c (addressable_ram h1 h2 h3 h0)

theorem rawCheck_runs {α : Type} {k : Unit → Op α} {a : Addr} {n m : Nat}
    (hk : addressable a.toNat n = true → (k ()).Runs c m W) : ((rawCheck a n).bind k).Runs c m W := by
  intro s hc hcs hw
  rcases rawCheck_cases a n s with ⟨h1, h⟩ | ⟨_, v, h, _⟩
  · rw [Op.bind_ok h]; exact hk h1 s hc hcs hw
  · rw [Op.bind_error h]; exact (Ran.refl hcs hw).mono (Nat.zero_le _) fun _ h => h

/-! ### Composite operations -/

/-- Everywhere: for pieces whose stores are not confined. -/
def anywhere (_ : Nat) : Prop := True

theorem sendFrame_runs (regs : FifoRegs) (f : Frame) : (sendFrame regs f).Runs c 4 anywhere :=
  .withConfig (.bind (m := 3) (readRegister_runs regs.ua) fun _ => .bind (m := 2) ((writeRam_runs _ _).mono (Nat.le_refl _) fun _ _ => trivial) fun _ =>
    ((modifyRegister_runs _ _ _).mono (Nat.le_refl _) fun _ _ => trivial).unitValue)

theorem transmitOp_runs (i : Nat) (f : Frame) : (transmitOp i f).Runs c 5 anywhere :=
  .orEnd (fun _ => by simp) fun regs _ => .withConfig (.bind (m := 4) (readRegister_runs regs.sta) fun _ => by
    split
    · exact sendFrame_runs regs f
    · exact (Op.Runs.endWith fun _ => by simp).mono (Nat.zero_le _) fun _ h => h)

theorem decodeOp_runs (h : Header) (payload : List Byte) : (decodeOp h payload).Runs c 0 W := by
  unfold decodeOp
  cases decodeFrame h payload with
  | none => exact .endWith fun _ => by simp
  | some f => exact .pure f

theorem readPayload_runs (cfg : Config) (a : Nat) (h : Header) : (readPayload cfg a h).Runs c 1 W :=
  .bind (m := 0) (readRam_runs _ _) fun _ => decodeOp_runs _ _

theorem receiveFrom_runs (i : Nat) : (receiveFrom i).Runs c 5 (inRun (conOf i).toNat 4) :=
  .orEnd (fun _ => by simp) fun regs hregs => .withConfig (.bind (m := 4) (readRegister_runs _) fun _ => .bind (m := 3) (readRam_runs _ _) fun _ =>
    .bind (m := 2) (readPayload_runs _ _ _) fun _ => .map _ (by
      rw [(fifoRegs_some hregs).2.2]; exact modifyRegister_runs _ _ _))

theorem scanAndReceive_runs : scanAndReceive.Runs c 6 anywhere :=
  .withConfig (.bind (m := 5) (readRegister_runs _) fun _ => by
    split
    · exact (receiveFrom_runs _).mono (Nat.le_refl _) fun _ _ => trivial
    · exact (Op.Runs.endWith fun _ => by simp).mono (Nat.zero_le _) fun _ h => h)

theorem reportBusError_runs : reportBusError.Runs c 2 (inRun c.schema.addrInt.toNat 4) :=
  .withConfig (.bind (m := 0) (modifyRegister_runs _ _ _) fun _ => .endWith fun _ => by simp)

theorem receiveOp_runs : receiveOp.Runs c 7 anywhere :=
  .withConfig (.bind (m := 6) (readRegister_runs _) fun _ => by
    split
    · exact reportBusError_runs.mono (by decide) fun _ _ => trivial
    · exact scanAndReceive_runs
    · exact (Op.Runs.endWith fun _ => by simp).mono (Nat.zero_le _) fun _ h => h)

theorem configureFifoOp_runs (i : Nat) (spec : FifoSpec) : (configureFifoOp i spec).Runs c 1 (inRun (conOf i).toNat 4) :=
  .orEnd (fun _ => by simp) fun regs hregs => .require (fun _ => by simp) fun _ => .withConfig (.unitValue (by
    rw [(fifoRegs_some hregs).2.2]; exact writeRegister_runs _ _))

theorem configureFilterOp_runs (n : Nat) (f : FilterSpec) (m : MaskSpec) : (configureFilterOp n f m).Runs c 4
    (fun x => ∃ r, filterRegs c.schema n = some r ∧ (inRun r.obj.toNat 4 x ∨ inRun r.mask.toNat 4 x ∨ inRun r.fltcon.toNat 4 x)) := by
  intro s hc hcs hw
  have e : configureFilterOp n f m s = (orEnd (.contractViolation .filterIndex) (filterRegs c.schema n)).bind
      (fun regs => (fifoRegsOp f.fifo.toNat).bind fun _ => withConfig fun cfg =>
        (writeRegister regs.obj (filterObjectWord cfg.schema f)).bind fun _ =>
          (writeRegister regs.mask (filterMaskWord cfg.schema m)).bind fun _ =>
            unitValue (modifyRegister regs.fltcon (slotMask cfg.schema regs.shift) (filterSlot cfg.schema f.fifo <<< regs.shift))) s := by
    subst hc; rfl
  rw [e]
  refine Op.Runs.orEnd (n := 4) (fun _ => by simp) (fun regs hregs => ?_) s hc hcs hw
  refine .orEnd (fun _ => by simp) fun _ _ => .withConfig (.bind (n := 1) (m := 3) ((writeRegister_runs _ _).mono (Nat.le_refl _) ?_) fun _ =>
    .bind (n := 1) (m := 2) ((writeRegister_runs _ _).mono (Nat.le_refl _) ?_) fun _ =>
      .unitValue ((modifyRegister_runs _ _ _).mono (Nat.le_refl _) ?_))
  · exact fun x hx => ⟨regs, hregs, .inl hx⟩
  · exact fun x hx => ⟨regs, hregs, .inr (.inl hx)⟩
  · exact fun x hx => ⟨regs, hregs, .inr (.inr hx)⟩

/-- The bytes an instruction may store to, as far as its operands alone say. -/
def storesIn (c : Config) : Instr → Nat → Prop
  | .wWrite a data => inRun a.toNat data.length
  | .writeReg a _ => inRun a.toNat 4
  | .modifyReg a _ _ => inRun a.toNat 4
  | .writeBytes off data => inRun (windowAddr off.toNat).toNat data.length
  | .transmit _ _ => anywhere
  | .receive => anywhere
  | .receiveWait => anywhere
  | .configureFifo i _ => inRun (conOf i.toNat).toNat 4
  | .configureFilter n _ _ => fun x => ∃ r, filterRegs c.schema n.toNat = some r ∧
      (inRun r.obj.toNat 4 x ∨ inRun r.mask.toNat 4 x ∨ inRun r.fltcon.toNat 4 x)
  | _ => fun _ => False

/-- Every operation: its transactions are counted by `maxTxns`, its stores lie in `storesIn`. -/
theorem bodyOf_runs (i : Instr) : (bodyOf i).Runs c (maxTxns i) (storesIn c i) := by
  cases i with
  | wReset | reset => exact (busReset_runs c _).unitValue
  | wRead a n => exact rawCheck_runs fun h => (busRead_runs c _ h).map _
  | wWrite a data => exact rawCheck_runs fun h => (busWrite_runs c h).unitValue
  | wWriteCrc | wReadCrc | wWriteSafe | dlcToLen | encode | scan => exact .pure _
  | readReg a => exact (readRegister_runs a).map _
  | writeReg a v => exact (writeRegister_runs a v).unitValue
  | modifyReg a mask value => exact (modifyRegister_runs a mask value).unitValue
  | readBytes off n => exact (readRam_runs _ _).map _
  | writeBytes off data => exact (writeRam_runs _ _).unitValue
  | requestToTransmit | readStatus => exact .endWith fun _ => by simp
  | lenToDlc | frameNew | decode | fifoAddr => exact .orEnd (fun _ => by simp) fun a _ => .pure _
  | hdrToBytes h => exact .withConfig (f := fun c => .pure (Value.bytes (headerToBytes c.schema h))) (.pure _)
  | bytesToHdr b => exact .withConfig (f := fun c => .pure (Value.header (bytesToHeader c.schema b))) (.pure _)
  | arbitrate w => exact .withConfig (f := fun c => .pure (Value.arbitration (arbitrate c.schema w))) (.pure _)
  | filterAddr n =>
    intro s hc hcs hw
    have := Op.Runs.orEnd (c := c) (n := 0) (W := storesIn c (.filterAddr n)) (r := .contractViolation .filterIndex) (o := filterRegs c.schema n.toNat)
      (k := fun r => .pure (Value.filterAddrs r.obj r.mask r.fltcon r.shift)) (fun _ => by simp) (fun _ _ => .pure _) s hc hcs hw
    subst hc; exact this
  | transmit i f => exact transmitOp_runs _ _
  | receive | receiveWait => exact receiveOp_runs
  | configureFifo i spec => exact configureFifoOp_runs _ _
  | configureFilter n f m => exact configureFilterOp_runs _ _ _

theorem onVariant_runs {α : Type} {n : Nat} {m : Op α} (h : m.Runs c n W) : (onVariant m).Runs c n W :=
  .withConfig (.require (fun _ => by simp) fun _ => h)

end

/-! ### Instructions -/

/-- How a pass ends: with a result, or, having found nothing, in the wait. -/
theorem concludePass_cases (x : Except Result Value) (u : State) :
    (x ≠ .error .nothingPending ∧ concludePass (x, u) = conclude (x, u)) ∨
      (x = .error .nothingPending ∧ concludePass (x, u) = suspend u) := by
  cases x with
  | ok v => exact .inl ⟨by simp, rfl⟩
  | error r => cases r <;> first | exact .inr ⟨rfl, rfl⟩ | exact .inl ⟨by simp, rfl⟩

theorem conclude_eq (x : Except Result Value) (u : State) :
    ∃ r, conclude (x, u) = finish r u ∧ ((∃ v, x = .ok v ∧ r = .ok v) ∨ x = .error r) := by
  cases x with
  | ok v => exact ⟨_, rfl, .inl ⟨v, rfl, rfl⟩⟩
  | error r => exact ⟨r, rfl, .inr rfl⟩

/-- An instruction on a state that differs in the line or in the record of the link does the same. -/
theorem exec_tweaked (φ : Tweak) (hrun : ∀ r, φ.onRun r = r) (hres : ∀ r, φ.onResult r = r) {i : Instr} {s t : State}
    (h : exec i s = .next t) : exec i (φ.apply s) = .next (φ.apply t) := by
  have hb : onVariant (bodyOf i) (begin i (φ.apply s)) =
      ((onVariant (bodyOf i) (begin i s)).1, φ.apply (onVariant (bodyOf i) (begin i s)).2) := by
    rw [← (Op.Blind.bodyOf i).onVariant φ (begin i s)]
    congr 1
    simp only [begin, Tweak.apply, hrun, hres]
  have hc : ∀ y : Except Result Value × State, conclude (y.1, φ.apply y.2) = φ.apply (conclude y) := by
    rintro ⟨x, u⟩
    cases x <;> simp only [conclude, finish, Tweak.apply, hrun, hres]
  have hs : ∀ u : State, suspend (φ.apply u) = φ.apply (suspend u) := by
    intro u
    unfold suspend
    simp only [Tweak.apply, hrun]
    cases u.run <;> rfl
  obtain ⟨_, c, h'⟩ | ⟨rfl, h'⟩ | ⟨hr, hne, h'⟩ := exec_cases i s
  · rw [h'] at h; cases h
  · have h' : exec .receiveWait s = .next (concludePass (onVariant (bodyOf .receiveWait) (begin .receiveWait s))) := h'
    rw [show exec .receiveWait (φ.apply s) = .next (concludePass (onVariant (bodyOf .receiveWait) (begin .receiveWait (φ.apply s)))) from rfl, hb]
    rw [h'] at h
    rw [← Host.Outcome.next.inj h]
    rcases onVariant (bodyOf .receiveWait) (begin .receiveWait s) with ⟨x, u⟩
    rcases concludePass_cases x u with ⟨hx, e⟩ | ⟨rfl, _⟩
    · rcases concludePass_cases x (φ.apply u) with ⟨_, e'⟩ | ⟨hx', _⟩
      · rw [e, ← hc (x, u)]; exact congrArg _ e'
      · exact absurd hx' hx
    · exact congrArg _ (hs u)
  · rcases exec_cases i (φ.apply s) with ⟨hr', _⟩ | ⟨he, _⟩ | ⟨_, _, h''⟩
    · rw [hr] at hr'; cases hr'
    · exact absurd he hne
    · rw [h'] at h
      rw [h'', perform, hb, hc, ← Host.Outcome.next.inj h]; rfl

/-- Everything `exec` can do when it answers a next state: it ran the instruction's body from the accepted state, and
then ended with a result or, in RECEIVE_WAIT alone, suspended. -/
theorem exec_next {i : Instr} {s t : State} (hi : Steady s) (h : exec i s = .next t) :
    ∃ x u, onVariant (bodyOf i) (begin i s) = (x, u) ∧ Ran (maxTxns i) (storesIn s.cfg i) (begin i s) u (failOf x) ∧
      ((∃ r, t = finish r u ∧ ((∃ v, x = .ok v ∧ r = .ok v) ∨ x = .error r) ∧ (i = .receiveWait → x ≠ .error .nothingPending)) ∨
        (i = .receiveWait ∧ x = .error .nothingPending ∧ t = suspend u)) := by
  have hr := onVariant_runs (bodyOf_runs (c := s.cfg) i) (begin i s) rfl hi.released hi.noOpenTxn
  rcases hx : onVariant (bodyOf i) (begin i s) with ⟨x, u⟩
  rw [hx] at hr
  refine ⟨x, u, rfl, hr, ?_⟩
  obtain ⟨_, c, h'⟩ | ⟨rfl, h'⟩ | ⟨_, hne, h'⟩ := exec_cases i s
  · rw [h'] at h; cases h
  · rw [h'] at h
    have ht : concludePass (x, u) = t := by rw [← hx]; exact Host.Outcome.next.inj h
    rcases concludePass_cases x u with ⟨hx, e⟩ | ⟨hx, e⟩
    · obtain ⟨r, e', hr⟩ := conclude_eq x u
      exact .inl ⟨r, by rw [← ht, e, e'], hr, fun _ => hx⟩
    · exact .inr ⟨rfl, hx, by rw [← ht, e]⟩
  · rw [h'] at h
    have ht : conclude (x, u) = t := by rw [← hx]; exact Host.Outcome.next.inj h
    obtain ⟨r, e', hr⟩ := conclude_eq x u
    exact .inl ⟨r, by rw [← ht, e'], hr, fun h => absurd h hne⟩

end Sys2Proof.Machine
end

