-- ==== Sys2Proof/Tests/Slice0.lean ====
section
/-! SUPPORT. Tests. The expected values of decoding are the spec's encodings (R81 to R86, R100) written out; those of
execution are the vectors of spec/95_test_vectors.md (each test names its vector). The last part shows, for every
statement with hypotheses, a concrete state and operands that meet them. -/

namespace Sys2Proof.Tests

open Sys2Proof Sys2Proof.Machine

/-! ### Helpers -/

/-- The block after reset with a scripted oracle (95_test_vectors.md section 0). -/
def bench (answers : List Byte) : State := { State.reset with answers := answers }

/-- The state after an instruction that answers one. -/
def after (i : Instr) (s : State) : State :=
  match exec i s with
  | .next t => t
  | .fault _ => s
  | .refused _ => s

/-- The result and the transactions of an instruction. -/
def seen (i : Instr) (s : State) : Option Result × List (List Byte × List Byte) :=
  ((after i s).result, (after i s).link.map fun x => (x.mosi, x.miso))

/-- How an instruction left the block: its result, chip-select, what runs, and the bytes sent, whole or not. -/
def ended (t : State) : Option Result × ChipSelect × Run × List (List Byte × Bool) :=
  (t.result, t.cs, t.run, t.link.map fun x => (x.mosi, x.whole))

def decodes (r : Request) (i : Instr) : Bool :=
  match decode r with
  | .ok j => decide (j = i)
  | .error _ => false

/-- The frame of vectors T1 and P1: Ext(0x1ABCDE), 12 bytes, sequence number 0x2A. -/
def frameT1 : Frame where
  id := .ext 0x1ABCDE
  dlc := 9
  data := [0, 1, 2, 3, 4, 5, 6, 7, 8, 9, 10, 11] ++ List.replicate 52 0
  seq := some 0x2A

def emptyFrame : Frame where
  id := .std 0
  dlc := 0
  data := List.replicate 64 0
  seq := none

/-- The header of vector E2. -/
def headerE2 : Header where
  sid := 0x4DE
  eid := 0x357
  dlc := 9
  ide := true
  rtr := false
  brs := true
  fdf := true
  esi := false
  tail := 0x2A

def zeroHeader : Header where
  sid := 0
  eid := 0
  dlc := 0
  ide := false
  rtr := false
  brs := false
  fdf := false
  esi := false
  tail := 0

/-! ### WellFormed refuses -/

theorem test_wellFormed_wRead_empty : (Instr.wRead 0x000 0).wellFormed = false := by decide
theorem test_wellFormed_wRead_length : (Instr.wRead 0x000 6).wellFormed = false := by decide
theorem test_wellFormed_wWrite_length : (Instr.wWrite 0x000 [1, 2, 3, 4, 5]).wellFormed = false := by decide
theorem test_wellFormed_wWrite_empty : (Instr.wWrite 0x000 []).wellFormed = false := by decide
theorem test_wellFormed_writeBytes_length (data : List Byte) (h : data.length = 2 ^ 32) :
    (Instr.writeBytes 0 data).wellFormed = false := by simp [Instr.wellFormed, recordable, h]
theorem test_wellFormed_frameNew_length (data : List Byte) (h : data.length = 2 ^ 32) :
    (Instr.frameNew (.std 0) data none).wellFormed = false := by simp [Instr.wellFormed, recordable, h]
theorem test_wellFormed_decode_length (data : List Byte) (h : data.length = 2 ^ 32) :
    (Instr.decode zeroHeader data).wellFormed = false := by simp [Instr.wellFormed, recordable, h]
theorem test_wellFormed_encode_buffer : (Instr.encode { emptyFrame with data := [] }).wellFormed = false := by decide
theorem test_wellFormed_transmit_buffer : (Instr.transmit 1 { emptyFrame with data := List.replicate 65 0 }).wellFormed = false := by
  decide
theorem test_wellFormed_bytesToHdr_length : (Instr.bytesToHdr [1, 2, 3, 4, 5, 6, 7]).wellFormed = false := by decide

/-! ### Decoding: words written out from the spec's encodings -/

theorem test_decode_wReset : decodes (.wire [0b00000000]) .wReset = true := by decide
theorem test_decode_wRead : decodes (.wire [0b00110100, 0b01111100, 0, 0, 0, 0, 0, 0, 0, 0]) (.wRead 0x47C 8) = true := by decide
theorem test_decode_wWrite : decodes (.wire [0b00100000, 0b01101000, 0x78, 0x56, 0x34, 0x12]) (.wWrite 0x068 [0x78, 0x56, 0x34, 0x12]) = true := by
  decide
theorem test_decode_wWriteCrc : decodes (.wire [0b10101111, 0b00000001, 9]) (.wWriteCrc 0xF01 [9]) = true := by decide
theorem test_decode_wReadCrc : decodes (.wire [0b10110001, 0b00100011]) (.wReadCrc 0x123 []) = true := by decide
theorem test_decode_wWriteSafe : decodes (.wire [0b11000000, 0b11111111]) (.wWriteSafe 0x0FF []) = true := by decide
theorem test_decode_reset : decodes (.host [0b00000000]) .reset = true := by decide
theorem test_decode_readReg : decodes (.host [0b00000001, 0x1C, 0x00]) (.readReg 0x01C) = true := by decide
theorem test_decode_writeReg : decodes (.host [0b00000010, 0xFC, 0x0F, 0x78, 0x56, 0x34, 0x12]) (.writeReg 0xFFC 0x12345678) = true := by
  decide
theorem test_decode_modifyReg :
    decodes (.host [0b00000011, 0x68, 0, 0, 3, 0, 0, 1, 0, 0, 0]) (.modifyReg 0x068 0x300 1) = true := by decide
theorem test_decode_readBytes : decodes (.host [0b00000100, 0x7C, 0, 0, 0, 8, 0, 0, 0]) (.readBytes 0x7C 8) = true := by decide
theorem test_decode_writeBytes : decodes (.host [0b00000101, 4, 0, 0, 0, 2, 0, 0, 0, 0xDE, 0xAD]) (.writeBytes 4 [0xDE, 0xAD]) = true := by
  decide
theorem test_decode_requestToTransmit : decodes (.host [0b00000110, 1]) (.requestToTransmit 1) = true := by decide
theorem test_decode_readStatus : decodes (.host [0b00000111]) .readStatus = true := by decide
theorem test_decode_dlcToLen : decodes (.host [0b00010000, 15]) (.dlcToLen 15) = true := by decide
theorem test_decode_lenToDlc : decodes (.host [0b00010001, 65, 0, 0, 0]) (.lenToDlc 65) = true := by decide
theorem test_decode_frameNew :
    decodes (.host [0b00010010, 0, 0x23, 1, 0, 0, 1, 0, 0, 0, 0x5A, 1, 0x2A, 0, 0]) (.frameNew (.std 0x123) [0x5A] (some 0x2A)) = true := by
  decide
theorem test_decode_encode :
    decodes (.host ([0b00010011, 1, 0xDE, 0xBC, 0x1A, 0, 9] ++ frameT1.data ++ [1, 0x2A, 0, 0])) (.encode frameT1) = true := by
  decide
theorem test_decode_decode :
    decodes (.host [0b00010100, 0xDE, 4, 0x57, 3, 0, 9, 1, 0, 1, 1, 0, 0x2A, 0, 0, 1, 0, 0, 0, 7]) (.decode headerE2 [7]) = true := by
  decide
theorem test_decode_hdrToBytes :
    decodes (.host [0b00010101, 0xDE, 4, 0x57, 3, 0, 9, 1, 0, 1, 1, 0, 0x2A, 0, 0]) (.hdrToBytes headerE2) = true := by decide
theorem test_decode_bytesToHdr : decodes (.host [0b00010110, 1, 2, 3, 4, 5, 6, 7, 8]) (.bytesToHdr [1, 2, 3, 4, 5, 6, 7, 8]) = true := by
  decide
theorem test_decode_fifoAddr : decodes (.host [0b00100000, 31]) (.fifoAddr 31) = true := by decide
theorem test_decode_filterAddr : decodes (.host [0b00100001, 5]) (.filterAddr 5) = true := by decide
theorem test_decode_arbitrate : decodes (.host [0b00100010, 2, 0x20, 0, 0]) (.arbitrate 0x2002) = true := by decide
theorem test_decode_scan : decodes (.host [0b00100011, 0x20, 2, 0, 0]) (.scan 0x220) = true := by decide
theorem test_decode_transmit :
    decodes (.host ([0b00110000, 2, 1, 0xDE, 0xBC, 0x1A, 0, 9] ++ frameT1.data ++ [1, 0x2A, 0, 0])) (.transmit 2 frameT1) = true := by
  decide
theorem test_decode_receive : decodes (.host [0b00110001]) .receive = true := by decide
theorem test_decode_receiveWait : decodes (.host [0b00110010]) .receiveWait = true := by decide
theorem test_decode_configureFifo : decodes (.host [0b01000000, 2, 0, 8, 64, 31, 2]) (.configureFifo 2 (.tx 8 64 31 .unlimited)) = true := by
  decide
theorem test_decode_configureFilter :
    decodes (.host [0b01000001, 5, 1, 0xDE, 0xBC, 0x1A, 0, 3, 0, 0xFF, 7, 0, 0, 1])
      (.configureFilter 5 { id := .ext 0x1ABCDE, fifo := 3 } { bits := .std 0x7FF, matchKind := true }) = true := by decide

/-- R103: a code the table does not list is rejected by name. -/
theorem test_decode_reserved_opc : decode (.host [0b00001000]) = .error (.reservedOpc 0x08) := rfl
/-- R87: so is an unassigned wire nibble, and a reset byte with another low nibble. -/
theorem test_decode_unassigned_nibble : decode (.wire [0b01010000, 0]) = .error (.unassigned 0x50) := rfl
theorem test_decode_reset_low_nibble : decode (.wire [0b00000001]) = .error (.unassigned 0x01) := rfl
theorem test_decode_read_length : decode (.wire [0x30, 0x1C, 0, 0, 0]) = .error .frameLength := rfl
theorem test_decode_read_placeholder : decode (.wire [0x30, 0x1C, 0, 0, 1, 0]) = .error .placeholder := rfl
theorem test_decode_operand_range : decode (.host [0x10, 16]) = .error .operandRange := rfl
theorem test_decode_truncated : decode (.host [0x01, 0x1C]) = .error .truncated := rfl

theorem test_table_wRead : decodeTableWord 16 0x301C = some (.wRead 0x01C 4) := by decide
theorem test_table_fifoAddr : decodeTableWord 8 0x20 = some (.fifoAddr 0) := by decide

/-- A table word placed by `withFetchWord` is what the next step runs. -/
theorem test_withFetchWord :
    (match step (State.reset.withFetchWord 8 0x07) with
      | .next t => t.result
      | .fault _ => none
      | .refused _ => none) = some (.unsupported .readStatus) := by decide

/-! ### Execution: the vectors of 95_test_vectors.md -/

/-- S9. -/
theorem test_wReset : seen .wReset (bench []) = (some (.ok .unit), [([0x00], [])]) := by decide
/-- The frame of Q13. -/
theorem test_wRead : seen (.wRead 0x47C 8) (bench [0x23, 1, 0, 0, 4, 0, 0, 0]) =
    (some (.ok (.bytes [0x23, 1, 0, 0, 4, 0, 0, 0])), [([0x34, 0x7C, 0, 0, 0, 0, 0, 0, 0, 0], [0x23, 1, 0, 0, 4, 0, 0, 0])]) := by
  decide
/-- The frame of Q6. -/
theorem test_wWrite : seen (.wWrite 0x068 [0x78, 0x56, 0x34, 0x12]) (bench []) =
    (some (.ok .unit), [([0x20, 0x68, 0x78, 0x56, 0x34, 0x12], [])]) := by decide
/-- R86. -/
theorem test_wWriteSafe_refused : exec (.wWriteSafe 0x000 []) (bench []) = .refused (.reservedWireCommand 0xC) := rfl

/-- Q1. -/
theorem test_reset : seen .reset (bench []) = (some (.ok .unit), [([0x00], [])]) := by decide
/-- Q2. -/
theorem test_readReg : seen (.readReg 0x01C) (bench [0x02, 0x20, 0, 0]) =
    (some (.ok (.word 0x00002002)), [([0x30, 0x1C, 0, 0, 0, 0], [0x02, 0x20, 0, 0])]) := by decide
/-- Q27. -/
theorem test_readReg_transport_failure :
    ended (after (.readReg 0x01C) { bench [] with transport := [none, none, some { err := 7, sent := 1, landed := 0 }, none] }) =
    (some (.transport 7), ChipSelect.released, Run.idle, [([0x30, 0x1C, 0], false)]) := by decide
/-- Q6. -/
theorem test_writeReg : seen (.writeReg 0x068 0x12345678) (bench []) =
    (some (.ok .unit), [([0x20, 0x68, 0x78, 0x56, 0x34, 0x12], [])]) := by decide
/-- Q7. -/
theorem test_writeReg_misaligned : seen (.writeReg 0x06A 0) (bench []) = (some (.contractViolation .regAddr), []) := by decide
/-- Q8. -/
theorem test_modifyReg : seen (.modifyReg 0x068 0x300 0x300) (bench [0x80, 0x04, 0x5F, 0xE7]) =
    (some (.ok .unit), [([0x30, 0x68, 0, 0, 0, 0], [0x80, 0x04, 0x5F, 0xE7]), ([0x20, 0x68, 0x80, 0x07, 0x5F, 0xE7], [])]) := by
  decide
/-- Q12. -/
theorem test_modifyReg_order : seen (.modifyReg 0x01E 1 1) (bench []) = (some (.contractViolation .regAddr), []) := by decide
/-- Q14. -/
theorem test_readBytes : seen (.readBytes 0x7FC 4) (bench [1, 2, 3, 4]) =
    (some (.ok (.bytes [1, 2, 3, 4])), [([0x3B, 0xFC, 0, 0, 0, 0], [1, 2, 3, 4])]) := by decide
/-- Q20. -/
theorem test_readBytes_no_wrap : seen (.readBytes 0xFFFFFFFC 8) (bench []) = (some (.contractViolation .ramRange), []) := by
  decide
/-- Q22. -/
theorem test_writeBytes : seen (.writeBytes 0x7FC [1, 2, 3, 4]) (bench []) = (some (.ok .unit), [([0x2B, 0xFC, 1, 2, 3, 4], [])]) := by
  decide
/-- Q23. -/
theorem test_writeBytes_length : seen (.writeBytes 0x010 [1, 2, 3, 4, 5]) (bench []) = (some (.contractViolation .ramLength), []) := by
  decide
/-- Q25. -/
theorem test_requestToTransmit : seen (.requestToTransmit 1) (bench []) = (some (.unsupported .requestToTransmit), []) := by
  decide
/-- Q26. -/
theorem test_readStatus : seen .readStatus (bench []) = (some (.unsupported .readStatus), []) := by decide

/-- 95_test_vectors.md section 2.2. -/
theorem test_dlcToLen : seen (.dlcToLen 13) (bench []) = (some (.ok (.count 32)), []) := by decide
theorem test_lenToDlc : seen (.lenToDlc 25) (bench []) = (some (.ok (.dlc 13)), []) := by decide
theorem test_lenToDlc_too_long : seen (.lenToDlc 65) (bench []) = (some (.frameTooLong 65), []) := by decide
theorem test_frameNew : seen (.frameNew (.std 0x123) [1, 2, 3, 4, 5, 6, 7, 8, 9] none) (bench []) =
    (some (.ok (.frame { id := .std 0x123, dlc := 9, data := [1, 2, 3, 4, 5, 6, 7, 8, 9] ++ List.replicate 55 0, seq := none })), []) := by
  decide
theorem test_frameNew_too_long : seen (.frameNew (.ext 0x1ABCDE) (List.replicate 65 0) none) (bench []) =
    (some (.frameTooLong 65), []) := by decide
/-- E2. -/
theorem test_encode : seen (.encode frameT1) (bench []) =
    (some (.ok (.encoded headerE2 [0, 1, 2, 3, 4, 5, 6, 7, 8, 9, 10, 11])), []) := by decide
/-- Section 2.3: `ide` is not looked at. -/
theorem test_decode_kind : seen (.decode { zeroHeader with sid := 0x100, eid := 1, dlc := 2 } [0xAA, 0xBB]) (bench []) =
    (some (.ok (.frame { id := .ext 0x900, dlc := 2, data := [0xAA, 0xBB] ++ List.replicate 62 0, seq := none })), []) := by
  decide
theorem test_decode_short : seen (.decode { zeroHeader with dlc := 4 } [1, 2, 3]) (bench []) =
    (some (.contractViolation .payloadShort), []) := by decide
/-- E2. -/
theorem test_hdrToBytes : seen (.hdrToBytes headerE2) (bench []) =
    (some (.ok (.bytes [0xDE, 0xBC, 0x1A, 0x00, 0xD9, 0x54, 0x00, 0x00])), []) := by decide
/-- E9: a sequence number that reaches into every byte of word 1. -/
theorem test_hdrToBytes_tail : seen (.hdrToBytes { zeroHeader with sid := 0x555, dlc := 13, brs := true, fdf := true, tail := 0x123456 }) (bench []) =
    (some (.ok (.bytes [0x55, 0x05, 0x00, 0x00, 0xCD, 0xAC, 0x68, 0x24])), []) := by decide
/-- Section 2.3: all ones. -/
theorem test_bytesToHdr : seen (.bytesToHdr (List.replicate 8 0xFF)) (bench []) =
    (some (.ok (.header { sid := 0x7FF, eid := 0x3FFFF, dlc := 15, ide := true, rtr := true, brs := true, fdf := true, esi := true,
                          tail := 0x7FFFFF })), []) := by decide
/-- E10. -/
theorem test_bytesToHdr_fields : seen (.bytesToHdr [0x78, 0x56, 0x34, 0x12, 0x13, 0, 0, 0]) (bench []) =
    (some (.ok (.header { zeroHeader with sid := 0x678, eid := 0x2468A, dlc := 3, ide := true })), []) := by decide

/-- Section 2.4. -/
theorem test_fifoAddr : seen (.fifoAddr 31) (bench []) = (some (.ok (.fifoAddrs 0x1C4 0x1C8 0x1CC)), []) := by decide
theorem test_fifoAddr_index : seen (.fifoAddr 32) (bench []) = (some (.contractViolation .fifoIndex), []) := by decide
theorem test_filterAddr : seen (.filterAddr 31) (bench []) = (some (.ok (.filterAddrs 0x2E8 0x2EC 0x1EC 24)), []) := by decide
theorem test_filterAddr_index : seen (.filterAddr 32) (bench []) = (some (.contractViolation .filterIndex), []) := by decide
theorem test_arbitrate : seen (.arbitrate 0x00002002) (bench []) = (some (.ok (.arbitration .busError)), []) := by decide
theorem test_arbitrate_idle : seen (.arbitrate 0xFFFFDFFD) (bench []) = (some (.ok (.arbitration .idle)), []) := by decide
theorem test_scan : seen (.scan 0x00000028) (bench []) = (some (.ok (.scan (some 3))), []) := by decide
theorem test_scan_bit_zero : seen (.scan 0x00000001) (bench []) = (some (.ok (.scan none)), []) := by decide

/-- T1. -/
theorem test_transmit : seen (.transmit 2 frameT1) (bench [1, 0, 0, 0, 0x7C, 0, 0, 0, 0x80, 0x04, 0x5F, 0xE7]) =
    (some (.ok .unit),
      [([0x30, 0x6C, 0, 0, 0, 0], [1, 0, 0, 0]), ([0x30, 0x70, 0, 0, 0, 0], [0x7C, 0, 0, 0]),
       ([0x24, 0x7C, 0xDE, 0xBC, 0x1A, 0, 0xD9, 0x54, 0, 0, 0, 1, 2, 3, 4, 5, 6, 7, 8, 9, 10, 11], []),
       ([0x30, 0x68, 0, 0, 0, 0], [0x80, 0x04, 0x5F, 0xE7]), ([0x20, 0x68, 0x80, 0x07, 0x5F, 0xE7], [])]) := by decide
/-- T3. -/
theorem test_transmit_full : seen (.transmit 2 frameT1) (bench [0xFE, 0xFF, 0xFF, 0xFF]) =
    (some .fifoFull, [([0x30, 0x6C, 0, 0, 0, 0], [0xFE, 0xFF, 0xFF, 0xFF])]) := by decide
/-- V6: a payload of 5 bytes is read as 8 and cut. -/
theorem test_receive : seen .receive (bench [2, 0, 0, 0, 0x20, 2, 0, 0, 0x40, 1, 0, 0, 0x23, 1, 0, 0, 5, 0, 0, 0,
      0x11, 0x22, 0x33, 0x44, 0x55, 0x66, 0x77, 0x88, 1, 4, 0, 0xA7]) =
    (some (.ok (.frame { id := .std 0x123, dlc := 5, data := [0x11, 0x22, 0x33, 0x44, 0x55] ++ List.replicate 59 0, seq := none })),
      [([0x30, 0x1C, 0, 0, 0, 0], [2, 0, 0, 0]), ([0x30, 0x20, 0, 0, 0, 0], [0x20, 2, 0, 0]), ([0x30, 0x94, 0, 0, 0, 0], [0x40, 1, 0, 0]),
       ([0x35, 0x40, 0, 0, 0, 0, 0, 0, 0, 0], [0x23, 1, 0, 0, 5, 0, 0, 0]),
       ([0x35, 0x48, 0, 0, 0, 0, 0, 0, 0, 0], [0x11, 0x22, 0x33, 0x44, 0x55, 0x66, 0x77, 0x88]),
       ([0x30, 0x8C, 0, 0, 0, 0], [1, 4, 0, 0xA7]), ([0x20, 0x8C, 1, 5, 0, 0xA7], [])]) := by decide
/-- V7. -/
theorem test_receive_bus_error : seen .receive (bench [2, 0x20, 0, 0, 2, 0x20, 0, 0]) =
    (some .controllerBusError,
      [([0x30, 0x1C, 0, 0, 0, 0], [2, 0x20, 0, 0]), ([0x30, 0x1C, 0, 0, 0, 0], [2, 0x20, 0, 0]), ([0x20, 0x1C, 2, 0, 0, 0], [])]) := by
  decide
/-- P5 step 1: the first pass finds nothing and the block suspends. -/
theorem test_receiveWait_suspends :
    ended (after .receiveWait (bench [0, 0, 0, 0])) =
    (none, ChipSelect.released, Run.waiting 1 false, [([0x30, 0x1C, 0, 0, 0, 0], true)]) := by decide
/-- P5 step 5. -/
theorem test_receiveWait_cancel :
    (match step { bench [] with run := .waiting 1 false, events := [.cancel] } with
      | .next t => (t.result, t.run, t.link.length)
      | .fault _ => (none, .idle, 0)
      | .refused _ => (none, .idle, 0)) = (some .cancelled, Run.idle, 0) := by decide
/-- K3. -/
theorem test_configureFifo_tx : seen (.configureFifo 2 (.tx 8 64 31 .unlimited)) (bench []) =
    (some (.ok .unit), [([0x20, 0x68, 0x80, 0x04, 0x5F, 0xE7], [])]) := by decide
/-- K5. -/
theorem test_configureFifo_rx : seen (.configureFifo 5 (.rx 16 32 true)) (bench []) =
    (some (.ok .unit), [([0x20, 0x8C, 0x21, 0x04, 0x00, 0xAF], [])]) := by decide
/-- K10. -/
theorem test_configureFilter :
    seen (.configureFilter 5 { id := .ext 0x1ABCDE, fifo := 3 } { bits := .ext 0x1FFFFFFF, matchKind := true }) (bench [0x81, 0, 0, 0]) =
    (some (.ok .unit),
      [([0x22, 0x18, 0xDE, 0xBC, 0x1A, 0x40], []), ([0x22, 0x1C, 0xFF, 0xFF, 0xFF, 0x5F], []),
       ([0x31, 0xD4, 0, 0, 0, 0], [0x81, 0, 0, 0]), ([0x21, 0xD4, 0x81, 0x83, 0, 0], [])]) := by decide
/-- K13. -/
theorem test_configureFilter_fifo :
    seen (.configureFilter 0 { id := .std 0, fifo := 0 } { bits := .std 0, matchKind := false }) (bench []) =
    (some (.contractViolation .fifoIndex), []) := by decide
/-- P3 step 1, on SimChip: the bus-error flag is cleared, the receive flag stays. -/
theorem test_simChip_clears_flag :
    (Memory.readBytes (after .receive { bench [] with chip := .simChip, mem := [(0x01C, 0x02), (0x01D, 0x20)] }).mem 0x01C 4) = [2, 0, 0, 0] := by
  decide

/-! ### Witnesses: states and operands that meet a statement's hypotheses, one theorem per statement -/

/-- `after` is the next state of an instruction that answers one. -/
theorem exec_after {i : Instr} {s : State} (h : reservedWire i = false) : exec i s = .next (after i s) := by
  cases i <;> first | rfl | cases h

def failure : Failure where
  err := 7
  sent := 0
  landed := 0

def asking (rs : List Request) : State := { bench [] with requests := rs }

theorem bench_steady (answers : List Byte) : Steady (bench answers) := ⟨rfl, rfl, rfl, rfl⟩

theorem witness_DecodeEncodeRoundTrip : (Instr.wRead 0xFFF 4).wellFormed = true ∧ (Instr.bytesToHdr (List.replicate 8 0xFF)).wellFormed = true ∧
    (Instr.encode frameT1).wellFormed = true := by decide

theorem witness_WireFramesHaveOneReading : decode (.wire [0x3F, 0xFC, 0, 0, 0, 0]) = .ok (.wRead 0xFFC 4) := rfl

/-- The codes next to the table's groups. -/
theorem witness_ReservedCodeAnswersUnsupported :
    (∀ opc ∈ [0x08, 0x0F, 0x17, 0x24, 0x33, 0x42, 0xFF], opc ∉ [0x00, 0x01, 0x02, 0x03, 0x04, 0x05, 0x06, 0x07, 0x10, 0x11, 0x12, 0x13,
      0x14, 0x15, 0x16, 0x20, 0x21, 0x22, 0x23, 0x30, 0x31, 0x32, 0x40, 0x41]) ∧
    (asking [.host [0x08]]).events = [] ∧ (asking [.host [0x08]]).run = .idle ∧ (asking [.host [0x08]]).supported ∧
    (asking [.host [0x08]]).requests = [.host [0x08]] := by decide

theorem witness_StepRunsTheRequest :
    (asking [.host [0x31]]).run = .idle ∧ (asking [.host [0x31]]).requests = [.host [0x31]] ∧ decode (.host [0x31]) = .ok .receive ∧
    (asking [.host [0x31]]).events = [] ∧ { asking [.host [0x31]] with events := [.turn] }.events = .turn :: [] := ⟨rfl, rfl, rfl, rfl, rfl⟩

theorem step_readReg : step (asking [.host [0x01, 0x1C, 0]]) = .next (after (.readReg 0x01C) (bench [])) := rfl

theorem witness_StepKeepsRest : Steady (asking [.host [0x01, 0x1C, 0]]) ∧
    step (asking [.host [0x01, 0x1C, 0]]) = .next (after (.readReg 0x01C) (bench [])) := ⟨⟨rfl, rfl, rfl, rfl⟩, step_readReg⟩

theorem witness_StepKeepsLinkLegal :
    Steady { asking [.host [0x01, 0x1C, 0]] with link := [resetTxn] } ∧
    (∀ x ∈ { asking [.host [0x01, 0x1C, 0]] with link := [resetTxn] }.link, x.legal) ∧
    step { asking [.host [0x01, 0x1C, 0]] with link := [resetTxn] } =
      .next (after (.readReg 0x01C) { bench [] with link := [resetTxn] }) := by
  refine ⟨⟨rfl, rfl, rfl, rfl⟩, fun x hx => ?_, rfl⟩
  rw [List.mem_singleton.1 hx]
  exact ⟨fun _ => by decide, [0x00], [], by decide, List.prefix_rfl, List.prefix_rfl⟩

theorem witness_ConfigurationNeverChanges : Steady (bench []) ∧ exec .reset (bench []) = .next (after .reset (bench [])) ∧
    Steady (asking [.host [0x01, 0x1C, 0]]) ∧ step (asking [.host [0x01, 0x1C, 0]]) = .next (after (.readReg 0x01C) (bench [])) :=
  ⟨bench_steady [], rfl, ⟨rfl, rfl, rfl, rfl⟩, step_readReg⟩

theorem witness_OperationsLeaveTheirEnvironment : Steady (bench [1, 2]) ∧ exec (.readReg 0x01C) (bench [1, 2]) =
    .next (after (.readReg 0x01C) (bench [1, 2])) := ⟨bench_steady _, rfl⟩

def waitingAt (l : IrqLevel) (fell : Bool) (w : IrqWait) : State :=
  { bench [] with run := .waiting 1 fell, irq := l, cfg := { Config.default with irqWait := w } }

/-- Results delivered by steps: the resumed pass (here a bus error), Cancel and the failing wait. -/
theorem witness_NoStickyErrorState_steps :
    let resumed := { bench [0, 0x20, 0, 0, 0, 0x20, 0, 0] with run := .waiting 1 false, irq := .low }
    let cancelled := { waitingAt .high false .level with events := [.cancel] }
    let broken := { waitingAt .high false .level with events := [.waitFails 9] }
    (Steady resumed ∧ (resumed.result ≠ none → resumed.run = .idle) ∧ ∃ t, step resumed = .next t ∧ t.result = some .controllerBusError) ∧
    (Steady cancelled ∧ (cancelled.result ≠ none → cancelled.run = .idle) ∧ ∃ t, step cancelled = .next t ∧ t.result = some .cancelled) ∧
    (Steady broken ∧ (broken.result ≠ none → broken.run = .idle) ∧ ∃ t, step broken = .next t ∧ t.result = some (.transport 9)) :=
  ⟨⟨⟨rfl, rfl, rfl, rfl⟩, fun h => absurd rfl h, _, rfl, by decide⟩, ⟨⟨rfl, rfl, rfl, rfl⟩, fun h => absurd rfl h, _, rfl, rfl⟩,
    ⟨⟨rfl, rfl, rfl, rfl⟩, fun h => absurd rfl h, _, rfl, rfl⟩⟩

theorem witness_NoStickyErrorState : Steady (bench [0, 0, 0, 0]) ∧ exec .receiveWait (bench [0, 0, 0, 0]) =
    .next (after .receiveWait (bench [0, 0, 0, 0])) ∧ (after .receiveWait (bench [0, 0, 0, 0])).run = .waiting 1 false :=
  ⟨bench_steady _, rfl, by decide⟩

theorem witness_LineReadOnlyByTheWait :
    exec .receive (bench []) = .next (after .receive (bench [])) ∧
    (asking [.host [0x01, 0x1C, 0]]).run = .idle ∧ (asking [.host [0x01, 0x1C, 0]]).events = [] ∧
    step (asking [.host [0x01, 0x1C, 0]]) = .next (after (.readReg 0x01C) (bench [])) ∧
    { bench [] with events := [.irq .low] }.run = .idle ∧ { bench [] with events := [.irq .low] }.events = .irq .low :: [] :=
  ⟨rfl, rfl, rfl, step_readReg, rfl, rfl⟩

theorem witness_ResultsBelongToTheirOperations : Steady (bench []) ∧ (bench []).cfg.wf = true ∧
    exec (.transmit 0 frameT1) (bench []) = .next (after (.transmit 0 frameT1) (bench [])) ∧
    (after (.transmit 0 frameT1) (bench [])).result = some (.contractViolation .fifoIndex) := ⟨bench_steady _, by decide, rfl, by decide⟩

theorem witness_OperandRefusalsSendNothing : Steady (bench []) ∧ (bench []).cfg.wf = true ∧
    exec (.modifyReg 0x000 1 1) (bench []) = .next (after (.modifyReg 0x000 1 1) (bench [])) ∧
    (after (.modifyReg 0x000 1 1) (bench [])).result = some (.contractViolation .notModifiable) ∧
    refusedOnOperands (.contractViolation .notModifiable) = true := ⟨bench_steady _, by decide, rfl, by decide, rfl⟩

/-- The bound is reached: RECEIVE's seven transactions (V4). -/
theorem witness_TransactionsAreBounded :
    Steady (bench [2, 0, 0, 0, 0x20, 2, 0, 0, 0x40, 1, 0, 0, 0x23, 1, 0, 0, 4, 0, 0, 0, 0xDE, 0xAD, 0xBE, 0xEF, 1, 4, 0, 0xA7]) ∧
    (after .receive (bench [2, 0, 0, 0, 0x20, 2, 0, 0, 0x40, 1, 0, 0, 0x23, 1, 0, 0, 4, 0, 0, 0, 0xDE, 0xAD, 0xBE, 0xEF, 1, 4, 0, 0xA7])).link.length
      = 7 := ⟨bench_steady _, by decide⟩

/-- A whole transaction and then one cut short. -/
theorem witness_OnlyTheFailingTransactionIsPartial :
    let s := { bench [] with transport := [none, none, none, none, none, some failure] }
    Steady s ∧ exec (.modifyReg 0x01C 1 0) s = .next (after (.modifyReg 0x01C 1 0) s) ∧
    (after (.modifyReg 0x01C 1 0) s).result = some (.transport 7) ∧
    (after (.modifyReg 0x01C 1 0) s).link.map (·.whole) = [true, false] := ⟨⟨rfl, rfl, rfl, rfl⟩, rfl, by decide, by decide⟩

/-- The first and the last of the four primitives. -/
theorem witness_FirstFailureEndsReadReg :
    Steady (bench []) ∧ (bench []).supported ∧ (0xFFC : Addr).toNat % 4 = 0 ∧
    (∀ j, j < 0 → [some failure][j]?.getD none = none) ∧ [some failure][0]? = some (some failure) ∧
    (∀ j, j < 3 → [none, none, none, some failure][j]?.getD none = none) ∧ [none, none, none, some failure][3]? = some (some failure) := by
  refine ⟨bench_steady _, ?_⟩
  decide

/-- MODIFY_REG uses seven primitives: no failure; CsAssert of its second transaction; the last release. -/
theorem witness_FirstFailureEndsTheOperation :
    let plan := [none, none, none, none, some failure]
    let last := [none, none, none, none, none, none, some failure]
    Steady (bench []) ∧ exec (.modifyReg 0x01C 1 0) (faultFree (bench [])) = .next (after (.modifyReg 0x01C 1 0) (bench [])) ∧
    primitives (after (.modifyReg 0x01C 1 0) (bench [1, 2, 3, 4])).link = 7 ∧
    (∀ j, j < 7 → (bench []).transport[j]?.getD none = none) ∧ (4 < 7 ∧ FirstFailure plan 4 failure) ∧ 6 < 7 ∧ FirstFailure last 6 failure := by
  refine ⟨bench_steady _, rfl, by decide, fun _ _ => rfl, ⟨by decide, rfl, by decide⟩, by decide, rfl, by decide⟩

/-- WRITE_REG whose CsAssert fails, and MODIFY_REG whose second CsAssert does: the token, and nothing more on the record. -/
theorem test_csAssert_failures :
    let first := { bench [] with transport := [some failure] }
    let second := { bench [] with transport := [none, none, none, none, some failure] }
    (after (.writeReg 0x068 5) first).result = some (.transport 7) ∧ (after (.writeReg 0x068 5) first).link = [] ∧
    (after (.modifyReg 0x01C 1 0) second).result = some (.transport 7) ∧ (after (.modifyReg 0x01C 1 0) second).link.length = 1 := by
  decide

theorem witness_OtherVariantsRefuseEverything :
    { bench [] with cfg := { Config.default with cap := { Capability.default with hasRts := true } } }.cfg.cap.supported = false ∧
    { bench [] with cfg := { Config.default with cap := { Capability.default with variant := .legacy } } }.cfg.cap.supported = false ∧
    reservedWire .receive = false := by decide

theorem witness_ResetSendsOneByte : (bench []).supported ∧ (bench []).unfailing ∧ { bench [] with transport := [none, none] }.unfailing := by
  decide

theorem witness_ReadRegResult : (bench []).supported ∧ (0xFFC : Addr).toNat % 4 = 0 ∧ (bench []).unfailing ∧ (0xFFD : Addr).toNat % 4 ≠ 0 := by
  decide

theorem witness_WriteRegResult : (bench []).supported ∧ (0x000 : Addr).toNat % 4 = 0 ∧ (bench []).unfailing ∧ (0xFFF : Addr).toNat % 4 ≠ 0 := by
  decide

theorem witness_ModifyRegResult : (bench []).supported ∧ (bench []).unfailing ∧ (0x1C4 : Addr).toNat % 4 = 0 ∧
    (0x1C4 : Addr) ∈ (bench []).cfg.cap.modifiable ∧ (0x1C5 : Addr).toNat % 4 ≠ 0 ∧ (0x1C8 : Addr).toNat % 4 = 0 ∧
    (0x1C8 : Addr) ∉ (bench []).cfg.cap.modifiable := by decide

/-- The last word of the window; the empty read at its end; one byte too many, one offset too far. -/
theorem witness_ReadBytesResult : (bench []).supported ∧ (bench []).unfailing ∧
    ((4 : Word).toNat % 4 = 0 ∧ (0x7FC : Word).toNat % 4 = 0 ∧ (0x7FC : Word).toNat + (4 : Word).toNat ≤ 2048 ∧ (4 : Word).toNat ≠ 0) ∧
    ((0 : Word).toNat = 0 ∧ (0x800 : Word).toNat % 4 = 0 ∧ (0x800 : Word).toNat ≤ 2048) ∧
    (5 : Word).toNat % 4 ≠ 0 ∧
    ((4 : Word).toNat % 4 = 0 ∧ (0x7FD : Word).toNat % 4 ≠ 0) ∧
    ((4 : Word).toNat % 4 = 0 ∧ (0x800 : Word).toNat % 4 = 0 ∧ (0x800 : Word).toNat + (4 : Word).toNat > 2048) := by decide

theorem witness_WriteBytesResult : (bench []).supported ∧ (bench []).unfailing ∧
    ([1, 2, 3, 4] : List Byte).length % 4 = 0 ∧ (0x7FC : Word).toNat % 4 = 0 ∧ (0x7FC : Word).toNat + ([1, 2, 3, 4] : List Byte).length ≤ 2048 ∧
    ([1, 2, 3, 4] : List Byte) ≠ [] ∧
    (0x800 : Word).toNat % 4 = 0 ∧ (0x800 : Word).toNat ≤ 2048 ∧ ([1] : List Byte).length % 4 ≠ 0 ∧ (0x001 : Word).toNat % 4 ≠ 0 ∧
    (0x800 : Word).toNat + ([1, 2, 3, 4] : List Byte).length > 2048 := by decide

/-- A register outside the window, the last burst of the window, one that leaves it, and an empty one. -/
theorem witness_RawTransactionResult : (bench []).supported ∧ (bench []).unfailing ∧ addressable (0xFFC : Addr).toNat 4 = true ∧
    addressable (0xBF8 : Addr).toNat ([1, 2, 3, 4, 5, 6, 7, 8] : List Byte).length = true ∧ addressable (0xBF8 : Addr).toNat 12 = false ∧
    addressable (0x400 : Addr).toNat ([] : List Byte).length = false := by decide

theorem witness_NoWireFormMeansUnsupported : (bench []).supported := by decide

theorem witness_SimChipReadsWhatWasWritten : Steady { bench [] with chip := .simChip } ∧ { bench [] with chip := .simChip }.supported ∧
    { bench [] with chip := .simChip }.unfailing ∧ { bench [] with chip := .simChip }.chip = .simChip ∧ (0xFFC : Addr).toNat % 4 = 0 :=
  ⟨⟨rfl, rfl, rfl, rfl⟩, by decide, by decide, rfl, by decide⟩

theorem witness_ReadingStoresNothing : Steady { bench [] with mem := [(0x01C, 2)] } ∧ sendsNoWrite (.readReg 0x01C) = true ∧
    exec (.readReg 0x01C) { bench [] with mem := [(0x01C, 2)] } = .next (after (.readReg 0x01C) { bench [] with mem := [(0x01C, 2)] }) :=
  ⟨⟨rfl, rfl, rfl, rfl⟩, rfl, rfl⟩

/-- The bytes just before and just after the run stored to, for each operation. -/
theorem witness_SingleWritesStoreInTheirRun : Steady (bench []) ∧
    (exec (.writeReg 0x068 5) (bench []) = .next (after (.writeReg 0x068 5) (bench [])) ∧ 0x067 < (0x068 : Addr).toNat ∧
      (0x068 : Addr).toNat + 4 ≤ 0x06C) ∧
    (exec (.modifyReg 0x068 5 1) (bench []) = .next (after (.modifyReg 0x068 5 1) (bench []))) ∧
    (exec (.writeBytes 0 [1, 2, 3, 4]) (bench []) = .next (after (.writeBytes 0 [1, 2, 3, 4]) (bench [])) ∧
      0x3FF < (windowAddr (0 : Word).toNat).toNat ∧ (windowAddr (0 : Word).toNat).toNat + ([1, 2, 3, 4] : List Byte).length ≤ 0x404) ∧
    (exec (.wWrite 0x068 [1, 2, 3, 4]) (bench []) = .next (after (.wWrite 0x068 [1, 2, 3, 4]) (bench []))) ∧
    (exec (.configureFifo 31 (.rx 1 8 false)) (bench []) = .next (after (.configureFifo 31 (.rx 1 8 false)) (bench [])) ∧
      0x1C3 < (conOf (31 : Byte).toNat).toNat ∧ (conOf (31 : Byte).toNat).toNat + 4 ≤ 0x1C8) :=
  ⟨bench_steady _, ⟨rfl, by decide, by decide⟩, rfl, ⟨rfl, by decide, by decide⟩, rfl, rfl, by decide, by decide⟩

def readyT1 : State := bench [1, 0, 0, 0, 0x7C, 0, 0, 0, 0x80, 0x04, 0x5F, 0xE7]

/-- V4 with the message at the end of the window: header at 0x7F4, four payload bytes up to 0x800. -/
def pendingV4 : State :=
  bench [2, 0, 0, 0, 0x20, 2, 0, 0, 0xF4, 7, 0, 0, 0x23, 1, 0, 0, 4, 0, 0, 0, 0xDE, 0xAD, 0xBE, 0xEF, 1, 4, 0, 0xA7]

def filterK9 : FilterSpec where
  id := .std 0x123
  fifo := 1

def maskK9 : MaskSpec where
  bits := .std 0x7FF
  matchKind := true

theorem witness_CompositesStoreInTheirRegisters :
    Steady readyT1 ∧ readyT1.cfg.wf = true ∧
    (exec (.transmit 2 frameT1) readyT1 = .next (after (.transmit 2 frameT1) readyT1) ∧
      (registerAnswer (uaOf 2) (readDone (staOf 2) 4 readyT1)).toNat = 0x7C ∧ 0x47B < (windowAddr 0x7C).toNat ∧
      (windowAddr 0x7C).toNat + (messageObject readyT1.cfg.schema frameT1).length ≤ 0x490 ∧ (conOf 2).toNat + 4 ≤ 0x47B) ∧
    Steady pendingV4 ∧ pendingV4.cfg.wf = true ∧
    (exec .receive pendingV4 = .next (after .receive pendingV4) ∧ pendingV4.cfg.schema.addrInt.toNat + 4 ≤ 0x090 ∧
      Machine.scan (polledBitmap pendingV4) = some 5 ∧ (conOf 5).toNat + 4 ≤ 0x090) ∧
    (exec (.configureFilter 0 filterK9 maskK9) (bench []) = .next (after (.configureFilter 0 filterK9 maskK9) (bench [])) ∧
      0x1D4 < 0x1F0 + 8 * (0 : Byte).toNat ∧ (filterRegs (bench []).cfg.schema 0).map (fun r => r.fltcon.toNat + 4) = some 0x1D4) :=
  ⟨⟨rfl, rfl, rfl, rfl⟩, by decide, ⟨rfl, by decide, by decide, by decide, by decide⟩, ⟨rfl, rfl, rfl, rfl⟩, by decide,
    ⟨rfl, by decide, by decide, by decide⟩, rfl, by decide, by decide⟩

theorem witness_DlcToLenTable : (bench []).supported ∧ (8 : BitVec 4).toNat < (9 : BitVec 4).toNat := by decide

/-- Lengths 64 and 65; two lengths of one code. -/
theorem witness_LenToDlcIsLeast : (bench []).supported ∧ (64 : Word).toNat ≤ 64 ∧ (65 : Word).toNat > 64 ∧
    9 ≤ 12 ∧ lenToDlc 9 = some 9 ∧ lenToDlc 12 = some 9 := by decide

theorem witness_FrameNewResult : (bench []).supported ∧ (List.replicate 64 (0 : Byte)).length ≤ 64 ∧ (List.replicate 65 (0 : Byte)).length > 64 := by
  decide

theorem witness_EncodeResult : (bench []).supported := by decide

theorem witness_DecodeResult : (bench []).supported ∧ dlcBytes zeroHeader.dlc ≤ ([] : List Byte).length ∧
    ([1, 2, 3] : List Byte).length < dlcBytes { zeroHeader with dlc := 4 }.dlc := by decide

theorem witness_HdrToBytesPlacesFields : (bench []).supported ∧ (bench []).cfg.wf = true := by decide

/-- Eight bytes with every bit of 31:29 of word 0 set, which no HDR_TO_BYTES makes; the filter-hit field inside `tail`. -/
theorem witness_HeaderBytesRoundTrip : (bench []).supported ∧ (bench []).cfg.wf = true ∧
    ([0, 0, 0, 0xE0, 0, 0, 0, 0] : List Byte).length = 8 ∧
    (bench []).cfg.schema.hdrSeqLsb ≤ (bench []).cfg.schema.hdrFilhitLsb ∧
    (bench []).cfg.schema.hdrFilhitLsb + 5 ≤ (bench []).cfg.schema.hdrSeqLsb + 23 := by decide

/-- R157: bits 31:29 of word 0 are dropped, the filter-hit index is bits 15:11 of word 1. -/
theorem test_bytesToHdr_received :
    bytesToHeader Schema.default [0x23, 0x01, 0, 0xE0, 0x04, 0xA8, 0, 0] = { zeroHeader with sid := 0x123, dlc := 4, tail := 0x54 } ∧
    filterHit Schema.default { zeroHeader with tail := 0x54 } = 0x15 := by decide

/-- A standard frame, and the extended identifiers on either side of 0x800. -/
theorem witness_FrameRoundTrip : Config.default.wf = true ∧ emptyFrame.wf = true ∧ { emptyFrame with id := .ext 0x800 }.wf = true ∧
    0x800 ≤ (0x800 : BitVec 29).toNat ∧ { emptyFrame with id := .ext 0x7FF }.wf = true ∧ (0x7FF : BitVec 29).toNat < 0x800 := by decide

theorem witness_FifoAddrResult : (bench []).supported ∧ 1 ≤ (1 : Byte).toNat ∧ (31 : Byte).toNat ≤ 31 ∧ (0 : Byte).toNat < 1 ∧ 31 < (32 : Byte).toNat := by
  decide

theorem witness_FilterAddrResult : (bench []).supported ∧ (bench []).cfg.wf = true ∧ (31 : Byte).toNat ≤ 31 ∧ 31 < (32 : Byte).toNat := by decide

theorem witness_ArbitrateResult : (bench []).supported ∧ (0x2002 : Word).getLsbD (bench []).cfg.schema.intBusErrBit = true ∧
    (0x0002 : Word).getLsbD (bench []).cfg.schema.intBusErrBit = false ∧ (0x0002 : Word).getLsbD (bench []).cfg.schema.intRxBit = true ∧
    (0xFFFFDFFD : Word).getLsbD (bench []).cfg.schema.intBusErrBit = false ∧
    (0xFFFFDFFD : Word).getLsbD (bench []).cfg.schema.intRxBit = false := by decide

theorem firstSet_31 : FirstSet 0x80000001 31 :=
  ⟨by decide, by decide, by decide, fun j h1 h2 => by interval_cases j <;> decide⟩

theorem witness_ScanResult : (bench []).supported ∧ FirstSet 0x80000001 31 ∧ ∀ i, 1 ≤ i → i ≤ 31 → (0x00000001 : Word).getLsbD i = false :=
  ⟨by decide, firstSet_31, fun i h1 h2 => by interval_cases i <;> decide⟩

/-- T1, with the object ending exactly at the window's end (0x7EC + 20 = 2048). -/
theorem witness_TransmitSendsTheFrame :
    let s := bench [1, 0, 0, 0, 0xEC, 7, 0, 0, 0x80, 0x04, 0x5F, 0xE7]
    let off := (registerAnswer (uaOf 2) (readDone (staOf 2) 4 s)).toNat
    s.supported ∧ s.cfg.wf = true ∧ s.unfailing ∧ frameT1.wf = true ∧ 1 ≤ (2 : Byte).toNat ∧ (2 : Byte).toNat ≤ 31 ∧
    bitSet (registerAnswer (staOf 2) s) s.cfg.schema.staNotFullBit = true ∧ off % 4 = 0 ∧ off + 8 + pad4 (dlcBytes frameT1.dlc) = 2048 := by
  decide

theorem witness_TransmitOnFullFifo :
    let s := bench [0xFE, 0xFF, 0xFF, 0xFF]
    s.supported ∧ s.unfailing ∧ 1 ≤ (31 : Byte).toNat ∧ (31 : Byte).toNat ≤ 31 ∧
    bitSet (registerAnswer (staOf 31) s) s.cfg.schema.staNotFullBit = false := by decide

/-- T6, T8, T7. -/
theorem witness_TransmitViolations :
    let misaligned := bench [1, 0, 0, 0, 0x7E, 0, 0, 0]
    let beyond := bench [1, 0, 0, 0, 0xF0, 7, 0, 0]
    (0 : Byte).toNat < 1 ∧ 31 < (32 : Byte).toNat ∧ frameT1.wf = true ∧
    (misaligned.supported ∧ misaligned.unfailing ∧ bitSet (registerAnswer (staOf 2) misaligned) misaligned.cfg.schema.staNotFullBit = true ∧
      (registerAnswer (uaOf 2) (readDone (staOf 2) 4 misaligned)).toNat % 4 ≠ 0) ∧
    (beyond.supported ∧ beyond.unfailing ∧ bitSet (registerAnswer (staOf 2) beyond) beyond.cfg.schema.staNotFullBit = true ∧
      (registerAnswer (uaOf 2) (readDone (staOf 2) 4 beyond)).toNat % 4 = 0 ∧
      (registerAnswer (uaOf 2) (readDone (staOf 2) 4 beyond)).toNat + 8 + pad4 (dlcBytes frameT1.dlc) > 2048) := by decide

theorem firstSet_5 : FirstSet 0x220 5 :=
  ⟨by decide, by decide, by decide, fun j h1 h2 => by interval_cases j <;> decide⟩

theorem finds_pendingV4 : Finds 5 pendingV4 := by
  refine ⟨by decide, by decide, ?_⟩
  have h : polledBitmap pendingV4 = 0x220 := by decide
  rw [h]; exact firstSet_5

/-- A received frame of DLC 0, its header ending the window; and V4. -/
def pendingEmpty : State := bench [2, 0, 0, 0, 0x20, 2, 0, 0, 0xF8, 7, 0, 0, 0x23, 1, 0, 0, 0, 0, 0, 0, 1, 4, 0, 0xA7]

theorem finds_of {s : State} (h1 : polledStatus s = 2) (h2 : polledBitmap s = 0x220) (h3 : s.cfg.schema.intBusErrBit = 13)
    (h4 : s.cfg.schema.intRxBit = 1) : Finds 5 s :=
  ⟨by rw [h1, h3]; decide, by rw [h1, h4]; decide, by rw [h2]; exact firstSet_5⟩

theorem witness_ReceiveDeliversTheFrame_empty :
    (pendingEmpty.supported ∧ pendingEmpty.cfg.wf = true ∧ pendingEmpty.unfailing ∧
      messageOffset 5 pendingEmpty % 4 = 0 ∧ messageOffset 5 pendingEmpty + 8 = 2048 ∧ payloadOffset 5 pendingEmpty % 4 = 0 ∧
      payloadCount 5 pendingEmpty = 0 ∧ payloadOffset 5 pendingEmpty + pad4 (payloadCount 5 pendingEmpty) = 2048) ∧ Finds 5 pendingEmpty :=
  ⟨by decide, finds_of (by decide) (by decide) rfl rfl⟩

theorem witness_ReceiveDeliversTheFrame :
    (pendingV4.supported ∧ pendingV4.cfg.wf = true ∧ pendingV4.unfailing ∧
      messageOffset 5 pendingV4 % 4 = 0 ∧ messageOffset 5 pendingV4 + 8 ≤ 2048 ∧ payloadOffset 5 pendingV4 % 4 = 0 ∧
      payloadOffset 5 pendingV4 + pad4 (payloadCount 5 pendingV4) = 2048) ∧ Finds 5 pendingV4 := ⟨by decide, finds_pendingV4⟩

/-- V1, V3. -/
theorem witness_ReceiveFindsNothing :
    let idle := bench [0, 0, 0, 0]
    let spurious := bench [2, 0, 0, 0, 1, 0, 0, 0]
    (idle.supported ∧ idle.cfg.wf = true ∧ idle.unfailing ∧ bitSet (polledStatus idle) idle.cfg.schema.intBusErrBit = false ∧
      bitSet (polledStatus idle) idle.cfg.schema.intRxBit = false) ∧
    (spurious.supported ∧ spurious.cfg.wf = true ∧ spurious.unfailing ∧
      bitSet (polledStatus spurious) spurious.cfg.schema.intBusErrBit = false ∧
      bitSet (polledStatus spurious) spurious.cfg.schema.intRxBit = true ∧ polledBitmap spurious = 1) ∧
    ∀ i, 1 ≤ i → i ≤ 31 → bitSet 1 i = false :=
  ⟨by decide, by decide, fun i h1 h2 => by interval_cases i <;> decide⟩

theorem witness_ReceiveReportsBusError :
    let s := bench [2, 0x20, 0, 0, 2, 0x20, 0, 0]
    s.supported ∧ s.cfg.wf = true ∧ s.unfailing ∧ bitSet (polledStatus s) s.cfg.schema.intBusErrBit = true := by decide

/-- A configuration whose payload offset is no multiple of 4. -/
def oddOffset (s : State) : State := { s with cfg := { Config.default with schema := { Schema.default with rxPayloadOffset := 10 } } }

/-- V10, V8 and V9, all on FIFO 5; and a misaligned payload, of four bytes and of none. -/
theorem witness_ReceiveViolations :
    let misaligned := bench [2, 0, 0, 0, 0x20, 2, 0, 0, 0x42, 1, 0, 0]
    let headerBeyond := bench [2, 0, 0, 0, 0x20, 2, 0, 0, 0xFC, 7, 0, 0]
    let payloadBeyond := bench [2, 0, 0, 0, 0x20, 2, 0, 0, 0xF8, 7, 0, 0, 0x23, 1, 0, 0, 4, 0, 0, 0]
    (Finds 5 misaligned ∧ messageOffset 5 misaligned % 4 ≠ 0) ∧
    (Finds 5 headerBeyond ∧ messageOffset 5 headerBeyond % 4 = 0 ∧ messageOffset 5 headerBeyond + 8 > 2048) ∧
    ((oddOffset pendingV4).supported ∧ (oddOffset pendingV4).cfg.wf = true ∧ (oddOffset pendingV4).unfailing ∧ Finds 5 (oddOffset pendingV4) ∧
      messageOffset 5 (oddOffset pendingV4) % 4 = 0 ∧ messageOffset 5 (oddOffset pendingV4) + 8 ≤ 2048 ∧
      payloadOffset 5 (oddOffset pendingV4) % 4 ≠ 0) ∧
    ((oddOffset pendingEmpty).cfg.wf = true ∧ Finds 5 (oddOffset pendingEmpty) ∧ messageOffset 5 (oddOffset pendingEmpty) % 4 = 0 ∧
      messageOffset 5 (oddOffset pendingEmpty) + 8 = 2048 ∧ payloadOffset 5 (oddOffset pendingEmpty) % 4 ≠ 0 ∧
      payloadCount 5 (oddOffset pendingEmpty) = 0) ∧
    (Finds 5 payloadBeyond ∧ messageOffset 5 payloadBeyond % 4 = 0 ∧ messageOffset 5 payloadBeyond + 8 = 2048 ∧
      payloadOffset 5 payloadBeyond % 4 = 0 ∧ payloadOffset 5 payloadBeyond + pad4 (payloadCount 5 payloadBeyond) > 2048) :=
  ⟨⟨finds_of (by decide) (by decide) rfl rfl, by decide⟩, ⟨finds_of (by decide) (by decide) rfl rfl, by decide, by decide⟩,
    ⟨by decide, by decide, by decide, finds_of (by decide) (by decide) rfl rfl, by decide, by decide, by decide⟩,
    ⟨by decide, finds_of (by decide) (by decide) rfl rfl, by decide, by decide, by decide, by decide⟩,
    ⟨finds_of (by decide) (by decide) rfl rfl, by decide, by decide, by decide, by decide⟩⟩

theorem witness_ReceiveWaitRunsAPassFirst :
    (Steady pendingV4 ∧ exec .receive pendingV4 = .next (after .receive pendingV4) ∧
      (after .receive pendingV4).result ≠ some .nothingPending) ∧
    (Steady (bench [0, 0, 0, 0]) ∧ exec .receive (bench [0, 0, 0, 0]) = .next (after .receive (bench [0, 0, 0, 0])) ∧
      (after .receive (bench [0, 0, 0, 0])).result = some .nothingPending) :=
  ⟨⟨⟨rfl, rfl, rfl, rfl⟩, rfl, by decide⟩, bench_steady _, rfl, by decide⟩

/-- Both sampling rules, awake and asleep. -/
theorem witness_WaitEndsWhenTheLineAllows :
    (∀ l fell w, Steady (waitingAt l fell w) ∧ (waitingAt l fell w).supported ∧ (waitingAt l fell w).run = .waiting 1 fell ∧
      (waitingAt l fell w).events = [] ∧ (waitingAt l fell w).result = none) ∧
    wakes .level (waitingAt .low false .level).irq false = true ∧ wakes .level (waitingAt .high true .level).irq true = false ∧
    wakes .edge (waitingAt .low false .edge).irq false = false ∧ wakes .edge (waitingAt .high true .edge).irq true = true :=
  ⟨fun l fell w => ⟨⟨rfl, rfl, rfl, rfl⟩, rfl, rfl, rfl, rfl⟩, by decide, by decide, by decide, by decide⟩

theorem witness_WaitRemembersAFall : { waitingAt .high false .edge with events := [.irq .low] }.run = .waiting 1 false ∧
    { waitingAt .high false .edge with events := [.irq .low] }.events = .irq .low :: [] := ⟨rfl, rfl⟩

theorem witness_CancelActsOnlyOnTheWait :
    ({ waitingAt .high false .level with events := [.cancel] }.events = .cancel :: [] ∧
      { waitingAt .high false .level with events := [.cancel] }.run = .waiting 1 false) ∧
    ({ bench [] with events := [.cancel] }.events = .cancel :: [] ∧ { bench [] with events := [.cancel] }.run = .idle) ∧
    ({ waitingAt .high false .level with events := [.waitFails 9] }.events = .waitFails 9 :: [] ∧
      { waitingAt .high false .level with events := [.waitFails 9] }.run = .waiting 1 false) ∧
    ({ bench [] with events := [.waitFails 9] }.events = .waitFails 9 :: [] ∧ { bench [] with events := [.waitFails 9] }.run = .idle) :=
  ⟨⟨rfl, rfl⟩, ⟨rfl, rfl⟩, ⟨rfl, rfl⟩, rfl, rfl⟩

/-- Both ends of each range: depth 1 and 32, the first and the last size class, priority 31, FIFO 1 and 31. -/
theorem witness_ConfigureFifoWritesControl : (bench []).supported ∧ (bench []).unfailing ∧ 1 ≤ (1 : Byte).toNat ∧ (31 : Byte).toNat ≤ 31 ∧
    (1 ≤ (1 : Byte).toNat ∧ (1 : Byte).toNat ≤ 32 ∧ [8, 12, 16, 20, 24, 32, 48, 64][0]? = some (8 : Byte).toNat ∧ (31 : Byte).toNat ≤ 31) ∧
    (1 ≤ (32 : Byte).toNat ∧ (32 : Byte).toNat ≤ 32 ∧ [8, 12, 16, 20, 24, 32, 48, 64][7]? = some (64 : Byte).toNat) := by decide

/-- K7, K8. -/
theorem witness_ConfigureFifoViolations : (bench []).supported ∧ (0 : Byte).toNat < 1 ∧ 31 < (32 : Byte).toNat ∧ 1 ≤ (1 : Byte).toNat ∧
    (1 : Byte).toNat ≤ 31 ∧ (0 : Byte).toNat < 1 ∧ 32 < (33 : Byte).toNat ∧ (10 : Byte).toNat ∉ [8, 12, 16, 20, 24, 32, 48, 64] ∧
    31 < (32 : Byte).toNat := by decide

theorem witness_ConfigureFilterWritesPatternsThenSlot : (bench []).supported ∧ (bench []).cfg.wf = true ∧ (bench []).unfailing ∧
    (31 : Byte).toNat ≤ 31 ∧ 1 ≤ filterK9.fifo.toNat ∧ filterK9.fifo.toNat ≤ 31 := by decide

/-- K12, K13. -/
theorem witness_ConfigureFilterViolations : (bench []).supported ∧ 31 < (32 : Byte).toNat ∧ (31 : Byte).toNat ≤ 31 ∧
    { filterK9 with fifo := 0 }.fifo.toNat < 1 ∧ 31 < { filterK9 with fifo := 32 }.fifo.toNat := by decide

end Sys2Proof.Tests
end

section
/-! PROOFS. What one step of the block can do, said once: the turn, an event of the environment, the resumed pass of
RECEIVE_WAIT, the answer to a reserved host code. -/

namespace Sys2Proof.Machine

/-- R206: suspending changes the progress record alone. -/
theorem suspend_eq (s : State) : ∃ n, suspend s = { s with run := .waiting n false } := by
  unfold suspend
  cases s.run with
  | idle => exact ⟨0, rfl⟩
  | running op txns scratch => exact ⟨txns, rfl⟩
  | waiting txns fell => exact ⟨txns, rfl⟩

theorem noteFall_same (l : IrqLevel) (r : Run) : noteFall l l r = r := by
  cases r with
  | idle | running => rfl
  | waiting txns fell => cases l <;> simp [noteFall]

/-- An event ends the wait of a suspended block, or it changes the line (and what the wait remembers of it) and chip
memory alone (R206, R207, R241). -/
theorem applyEvent_cases (e : Event) (s : State) :
    (suspended s.run = true ∧ ∃ r, applyEvent e s = finish r s) ∨
      ∃ l m, applyEvent e s = { s with irq := l, run := noteFall s.irq l s.run, mem := m } ∧
        (m = s.mem ∨ ∃ (a : Addr) (b : Byte), m = Memory.write s.mem a.toNat b) := by
  cases e with
  | turn => exact .inr ⟨s.irq, s.mem, by rw [noteFall_same]; rfl, .inl rfl⟩
  | irq l => exact .inr ⟨l, s.mem, rfl, .inl rfl⟩
  | poke a b => exact .inr ⟨s.irq, _, by rw [noteFall_same]; rfl, .inr ⟨a, b, rfl⟩⟩
  | cancel | waitFails err =>
    by_cases h : suspended s.run = true
    · exact .inl ⟨h, _, if_pos h⟩
    · exact .inr ⟨s.irq, s.mem, by rw [noteFall_same]; exact if_neg h, .inl rfl⟩

/-- R103, R251: a reserved host code is answered at once, the variant being checked first. -/
theorem serveReservedOpc_eq (s : State) :
    serveReservedOpc s = finish (.unsupported (if s.cfg.cap.supported then .reservedOpc else .variant)) s := by
  unfold serveReservedOpc onVariant
  rw [withConfig_run]
  cases s.cfg.cap.supported <;> rfl

/-- The state in which a step begins: its event is taken from the list. -/
def eventTaken (s : State) : State := { s with events := s.events.tail }

theorem Steady.eventTaken {s : State} (h : Steady s) : Steady (eventTaken s) :=
  ⟨h.released, h.noOpenTxn, h.atRest, h.memWf⟩

theorem Steady.withRequests {s : State} (h : Steady s) (rest : List Request) : Steady { s with requests := rest } :=
  ⟨h.released, h.noOpenTxn, h.atRest, h.memWf⟩

/-- A step is an event of the environment or the block's turn. -/
theorem step_cases {s t : State} (h : step s = .next t) :
    (∃ e, s.events.head? = some e ∧ e ≠ .turn ∧ t = applyEvent e (eventTaken s)) ∨
      (∀ e, s.events.head? = some e → e = .turn) ∧ turn exec (eventTaken s) = .next t := by
  obtain ⟨cfg, cs, run, wire, irq, requests, events, rest⟩ := s
  cases events with
  | nil => exact .inr ⟨by simp, h⟩
  | cons e es =>
    cases e with
    | turn => exact .inr ⟨by simp, h⟩
    | irq | cancel | waitFails | poke => exact .inl ⟨_, rfl, by simp, (Host.Outcome.next.inj h).symm⟩

/-- What the block's turn can be: nothing to do, an instruction, a reserved host code, or the next pass of the wait. -/
theorem turn_cases {run : Instr → State → Answer} {s t : State} (h : turn run s = .next t) :
    (t = s ∧ (s.run = .idle ∧ s.requests = [] ∨
      ∃ txns fell, s.run = .waiting txns fell ∧ wakes s.cfg.irqWait s.irq fell = false)) ∨
    (∃ r rest i, s.run = .idle ∧ s.requests = r :: rest ∧ decode r = .ok i ∧ run i { s with requests := rest } = .next t) ∨
    (∃ r rest c, s.run = .idle ∧ s.requests = r :: rest ∧ decode r = .error (.reservedOpc c) ∧
      t = serveReservedOpc { s with requests := rest }) ∨
    ∃ txns fell, s.run = .waiting txns fell ∧ wakes s.cfg.irqWait s.irq fell = true ∧ t = resume txns s := by
  unfold turn at h
  split at h
  next hrun =>
    split at h
    next hreq => exact .inl ⟨(Host.Outcome.next.inj h).symm, .inl ⟨hrun, hreq⟩⟩
    next r rest hreq =>
      unfold serve at h
      split at h
      next i hd => exact .inr (.inl ⟨r, rest, i, hrun, hreq, hd, h⟩)
      next c hd => exact .inr (.inr (.inl ⟨r, rest, c, hrun, hreq, hd, (Host.Outcome.next.inj h).symm⟩))
      next => cases h
  next => cases h
  next txns fell hrun =>
    have ht := Host.Outcome.next.inj h
    by_cases hw : wakes s.cfg.irqWait s.irq fell = true
    · rw [if_pos hw] at ht
      exact .inr (.inr (.inr ⟨txns, fell, hrun, hw, ht.symm⟩))
    · rw [if_neg hw] at ht
      exact .inl ⟨ht.symm, .inr ⟨txns, fell, hrun, by simpa using hw⟩⟩

/-- The pass of RECEIVE_WAIT after a wake-up, as `exec_next` says it of the first: it ends with a result or suspends. -/
theorem resume_cases {s : State} (hi : Steady s) (txns : Nat) :
    ∃ x u, receiveOp { s with run := .running .receiveWait txns [] } = (x, u) ∧
      Ran 7 anywhere { s with run := .running .receiveWait txns [] } u (failOf x) ∧
      ((∃ r, resume txns s = finish r u ∧ ((∃ v, x = .ok v ∧ r = .ok v) ∨ x = .error r) ∧ x ≠ .error .nothingPending) ∨
        (x = .error .nothingPending ∧ resume txns s = suspend u)) := by
  have hran := receiveOp_runs (c := s.cfg) { s with run := .running .receiveWait txns [] } rfl hi.released hi.noOpenTxn
  have hres : resume txns s = concludePass (receiveOp { s with run := .running .receiveWait txns [] }) := rfl
  generalize receiveOp { s with run := .running .receiveWait txns [] } = y at hran hres
  obtain ⟨x, u⟩ := y
  refine ⟨x, u, rfl, hran, ?_⟩
  rcases concludePass_cases x u with ⟨hx, e⟩ | ⟨hx, e⟩
  · obtain ⟨r, e', hr⟩ := conclude_eq x u
    exact .inl ⟨r, by rw [hres, e, e'], hr, hx⟩
  · exact .inr ⟨hx, hres.trans e⟩

end Sys2Proof.Machine
end

section
/-! PROOFS. R25: the configuration is fixed at construction. -/

namespace Sys2Proof.Machine

@[simp] theorem suspend_cfg (s : State) : (suspend s).cfg = s.cfg := by
  obtain ⟨n, h⟩ := suspend_eq s
  rw [h]

theorem exec_cfg {i : Instr} {s t : State} (hi : Steady s) (h : exec i s = .next t) : t.cfg = s.cfg := by
  obtain ⟨x, u, -, hran, ⟨r, rfl, -⟩ | ⟨-, -, rfl⟩⟩ := exec_next hi h
  · exact hran.cfg
  · rw [suspend_cfg]; exact hran.cfg

theorem resume_cfg {s : State} (hi : Steady s) (txns : Nat) : (resume txns s).cfg = s.cfg := by
  obtain ⟨x, u, -, hran, ⟨r, e, -⟩ | ⟨-, e⟩⟩ := resume_cases hi txns
  · rw [e]; exact hran.cfg
  · rw [e, suspend_cfg]; exact hran.cfg

@[simp] theorem applyEvent_cfg (e : Event) (s : State) : (applyEvent e s).cfg = s.cfg := by
  obtain ⟨-, r, h⟩ | ⟨l, m, h, -⟩ := applyEvent_cases e s <;> rw [h]
  rfl

theorem step_cfg {s t : State} (hi : Steady s) (h : step s = .next t) : t.cfg = s.cfg := by
  obtain ⟨e, -, -, rfl⟩ | ⟨-, hturn⟩ := step_cases h
  · exact applyEvent_cfg e (eventTaken s)
  · obtain ⟨rfl, -⟩ | ⟨r, rest, i, -, -, -, hexec⟩ | ⟨r, rest, c, -, -, -, rfl⟩ | ⟨txns, fell, -, -, rfl⟩ := turn_cases hturn
    · rfl
    · exact (exec_cfg (hi.eventTaken.withRequests rest) hexec).trans rfl
    · rw [serveReservedOpc_eq]; rfl
    · exact resume_cfg hi.eventTaken txns

/-- Settles O9: what an operation or a pass ran keeps the configuration (`Ran.cfg`), and so do the ways a step ends. -/
theorem configurationNeverChanges : Obligations.ConfigurationNeverChanges :=
  ⟨fun _ _ _ hi h => exec_cfg hi h, fun _ _ hi h => step_cfg hi h⟩

end Sys2Proof.Machine
end

section
/-! PROOFS. R24: no error state outlives its operation. -/

namespace Sys2Proof.Machine

/-! ### The block after a result -/

/-- After an operation the block is released, and idle with a result or, in RECEIVE_WAIT alone, suspended with none. -/
theorem exec_releases {i : Instr} {s t : State} (hi : Steady s) (h : exec i s = .next t) :
    t.cs = .released ∧ t.wire = none ∧
      ((t.run = .idle ∧ t.result ≠ none) ∨ (i = .receiveWait ∧ t.result = none ∧ ∃ n, t.run = .waiting n false)) := by
  obtain ⟨x, u, -, hran, ⟨r, rfl, -⟩ | ⟨hw, -, rfl⟩⟩ := exec_next hi h
  · exact ⟨hran.released, hran.noOpenTxn, .inl ⟨rfl, by simp⟩⟩
  · obtain ⟨n, e⟩ := suspend_eq u
    rw [e]
    exact ⟨hran.released, hran.noOpenTxn, .inr ⟨hw, hran.result, n, rfl⟩⟩

/-- After a resumed pass the block is released, and idle with a result or suspended with what result there was. -/
theorem resume_releases {s : State} (hi : Steady s) (txns : Nat) :
    (resume txns s).cs = .released ∧ (resume txns s).wire = none ∧
      ((resume txns s).run = .idle ∨ (resume txns s).result = s.result) := by
  obtain ⟨x, u, -, hran, ⟨r, e, -⟩ | ⟨-, e⟩⟩ := resume_cases hi txns
  · rw [e]
    exact ⟨hran.released, hran.noOpenTxn, .inl rfl⟩
  · obtain ⟨n, e'⟩ := suspend_eq u
    rw [e, e']
    exact ⟨hran.released, hran.noOpenTxn, .inr hran.result⟩

/-- An event opens no transaction, and it leaves a result only with an idle block. -/
theorem applyEvent_releases {s : State} (hi : Steady s) (hidle : s.result ≠ none → s.run = .idle) (e : Event) :
    (applyEvent e s).cs = .released ∧ (applyEvent e s).wire = none ∧
      ((applyEvent e s).result ≠ none → (applyEvent e s).run = .idle) := by
  obtain ⟨-, r, h⟩ | ⟨l, m, h, -⟩ := applyEvent_cases e s <;> rw [h]
  · exact ⟨hi.released, hi.noOpenTxn, fun _ => rfl⟩
  · exact ⟨hi.released, hi.noOpenTxn, fun hr => by simp only [hidle hr]; rfl⟩

/-- Every step leaves the block released, and a result only with an idle block. -/
theorem step_releases {s t : State} (hi : Steady s) (hidle : s.result ≠ none → s.run = .idle) (h : step s = .next t) :
    t.cs = .released ∧ t.wire = none ∧ (t.result ≠ none → t.run = .idle) := by
  obtain ⟨e, -, -, rfl⟩ | ⟨-, hturn⟩ := step_cases h
  · exact applyEvent_releases hi.eventTaken hidle e
  · obtain ⟨rfl, -⟩ | ⟨r, rest, i, -, -, -, hexec⟩ | ⟨r, rest, c, -, -, -, rfl⟩ | ⟨txns, fell, hrun, -, rfl⟩ := turn_cases hturn
    · exact ⟨hi.released, hi.noOpenTxn, hidle⟩
    · obtain ⟨hcs, hw, ⟨hrun, -⟩ | ⟨-, hnone, -⟩⟩ := exec_releases (hi.eventTaken.withRequests rest) hexec
      · exact ⟨hcs, hw, fun _ => hrun⟩
      · exact ⟨hcs, hw, fun hr => absurd hnone hr⟩
    · rw [serveReservedOpc_eq]
      exact ⟨hi.released, hi.noOpenTxn, fun _ => rfl⟩
    · obtain ⟨hcs, hw, hrun' | hres⟩ := resume_releases hi.eventTaken txns
      · exact ⟨hcs, hw, fun _ => hrun'⟩
      · refine ⟨hcs, hw, fun hr => ?_⟩
        have hbusy : s.run = .idle := hidle (hres ▸ hr)
        exact absurd (hbusy.symm.trans hrun) (by simp)

/-! ### The next operation -/

/-- R23: an instruction looks at the state only as it is once the operation has been accepted. -/
theorem exec_congr_begin {i : Instr} {s s' : State} (h : begin i s = begin i s') : exec i s = exec i s' := by
  cases i with
  | wWriteCrc | wReadCrc | wWriteSafe => rfl
  | receiveWait => exact congrArg (fun u => Host.Outcome.next (concludePass (onVariant receiveOp u))) h
  | _ =>
    change Host.Outcome.next (conclude (onVariant _ (begin _ s))) = .next (conclude (onVariant _ (begin _ s')))
    rw [h]

/-- Whether `exec` answers a next state does not depend on the state. -/
theorem exec_next_everywhere {i : Instr} {s t : State} (h : exec i s = .next t) (s' : State) : ∃ t', exec i s' = .next t' := by
  obtain ⟨hres, -⟩ | ⟨-, h'⟩ | ⟨-, -, h'⟩ := exec_cases i s'
  · obtain ⟨-, c, hc⟩ | ⟨rfl, -⟩ | ⟨hres', -⟩ := exec_cases i s
    · rw [hc] at h; cases h
    · cases hres
    · rw [hres] at hres'; cases hres'
  · exact ⟨_, h'⟩
  · exact ⟨_, h'⟩

/-- The transactions of an operation begun with an empty record are those it adds to any record. -/
theorem exec_from_record {i : Instr} {s t : State} (h : exec i { s with link := [] } = .next t) (record : List Txn) :
    exec i { s with link := record } = .next { t with link := record ++ t.link } := by
  have hs : (recordedAfter record).apply { s with link := [] } = { s with link := record } := by
    simp [Tweak.apply, recordedAfter]
  rw [← hs]
  exact exec_tweaked (recordedAfter record) (fun _ => rfl) (fun _ => rfl) h

theorem exec_adds_to_record {i : Instr} {s t : State} (h : exec i s = .next t) (record : List Txn) :
    ∃ added, t.link = s.link ++ added ∧ exec i { s with link := record } = .next { t with link := record ++ added } := by
  obtain ⟨t₀, h₀⟩ := exec_next_everywhere h { s with link := [] }
  have ht : t = { t₀ with link := s.link ++ t₀.link } := Host.Outcome.next.inj (h.symm.trans (exec_from_record h₀ s.link))
  subst ht
  exact ⟨t₀.link, rfl, exec_from_record h₀ record⟩

/-- Settles O11: each way an operation, a pass or an event can end releases the block; an operation begins by wiping
progress and result, and runs after any record as it runs after the empty one. -/
theorem noStickyErrorState : Obligations.NoStickyErrorState :=
  ⟨fun _ _ _ hi h => exec_releases hi h, fun _ _ hi hidle h => step_releases hi hidle h, fun _ _ _ _ => exec_congr_begin rfl,
    fun _ _ _ record h => exec_adds_to_record h record⟩

end Sys2Proof.Machine
end

section
/-! PROOFS. The DLC table (R151) and the split of an extended identifier (R159). -/

namespace Sys2Proof.Machine

/-! ### DLC_TO_LEN -/

/-- A codec operation with the value `v` returns it and does nothing else. -/
theorem perform_pure (i : Instr) (v : Value) {s : State} (hs : s.supported) : perform i (.pure v) s = finish (.ok v) s := by
  rw [perform_eq (.pure v) i hs, Op.pure_run, conclude, finish_blank]

theorem exec_dlcToLen (c : BitVec 4) {s : State} (hs : s.supported) :
    exec (.dlcToLen c) s = .next (finish (.ok (.count (dlcBytes c))) s) :=
  congrArg Host.Outcome.next (perform_pure (.dlcToLen c) (.count (dlcBytes c)) hs)

/-- The two ranges of R151's definition, codes up to 8 and codes above, written as one table. -/
theorem dlcBytes_eq_table : ∀ c : BitVec 4,
    dlcBytes c = [0, 1, 2, 3, 4, 5, 6, 7, 8, 12, 16, 20, 24, 32, 48, 64][c.toNat]?.getD 0 := by decide

theorem dlcBytes_strictMono : ∀ c d : BitVec 4, c.toNat < d.toNat → dlcBytes c < dlcBytes d := by decide

/-- Settles O32: the operation returns `dlcBytes`, which is the table and strictly increasing over the sixteen codes. -/
theorem dlcToLenTable : Obligations.DlcToLenTable := by
  refine ⟨fun s c hs => ?_, dlcBytes_strictMono, fun c => ⟨bitsBytes 1 c, rfl⟩⟩
  rw [exec_dlcToLen c hs, dlcBytes_eq_table]

/-! ### The split of an extended identifier -/

theorem splitId_ext_sid_toNat (x : BitVec 29) : (splitId (.ext x)).sid.toNat = x.toNat % 2048 := by
  rw [splitId, BitVec.extractLsb'_toNat, Nat.shiftRight_zero]

theorem splitId_ext_eid_toNat (x : BitVec 29) : (splitId (.ext x)).eid.toNat = x.toNat / 2048 := by
  rw [splitId, BitVec.extractLsb'_toNat, Nat.shiftRight_eq_div_pow]
  have hx : x.toNat < 2 ^ 29 := x.isLt
  exact Nat.mod_eq_of_lt (by omega)

/-- R159: putting the high part above the low part gives the identifier back. -/
theorem splitId_ext_join (x : BitVec 29) :
    (splitId (.ext x)).sid.setWidth 29 ||| ((splitId (.ext x)).eid.setWidth 29 <<< 11) = x := by
  rw [joinBits_eq, splitId, splitBits_join]

/-- Settles O40: the parts are remainder and quotient by 2048, and joined they are the identifier; the document's
example is evaluated. -/
theorem identifierSplitRecombines : Obligations.IdentifierSplitRecombines :=
  ⟨fun x => ⟨splitId_ext_sid_toNat x, splitId_ext_eid_toNat x, splitId_ext_join x⟩, by decide⟩

end Sys2Proof.Machine
end

section
/-! PROOFS. The arbiter (R183). -/

namespace Sys2Proof.Machine

/-! ### What the arbiter finds, by the two flags it looks at -/

theorem arbitrate_of_busErr {c : Schema} {w : Word} (hbus : w.getLsbD c.intBusErrBit = true) : arbitrate c w = .busError :=
  if_pos hbus

theorem arbitrate_of_rx {c : Schema} {w : Word} (hbus : w.getLsbD c.intBusErrBit = false) (hrx : w.getLsbD c.intRxBit = true) :
    arbitrate c w = .rxPending :=
  (if_neg (ne_true_of_eq_false hbus)).trans (if_pos hrx)

theorem arbitrate_of_clear {c : Schema} {w : Word} (hbus : w.getLsbD c.intBusErrBit = false)
    (hrx : w.getLsbD c.intRxBit = false) : arbitrate c w = .idle :=
  (if_neg (ne_true_of_eq_false hbus)).trans (if_neg (ne_true_of_eq_false hrx))

/-! ### The operation -/

/-- ARBITRATE returns what the arbiter finds under the configured bit positions, and does nothing else. -/
theorem exec_arbitrate (w : Word) {s : State} (hs : s.supported) :
    exec (.arbitrate w) s = .next (finish (.ok (.arbitration (arbitrate s.cfg.schema w))) s) := by
  have blind : (withConfig fun cfg => .pure (Value.arbitration (arbitrate cfg.schema w))).Blind := .withConfig fun _ => .pure _
  refine congrArg Host.Outcome.next ((perform_eq blind (.arbitrate w) hs).trans ?_)
  rw [withConfig_run, blank_cfg, Op.pure_run, conclude, finish_blank]

/-- Settles O43: the operation returns what the arbiter finds, and the arbiter looks at the bus-error flag first and at
the receive flag only without it. -/
theorem arbitrateResult : Obligations.ArbitrateResult := by
  intro s w hs
  rw [exec_arbitrate w hs]
  refine ⟨fun hbus => ?busError, fun hbus hrx => ?rxPending, fun hbus hrx => ?idle, bitsBytes 4 w, rfl⟩
  case busError => rw [arbitrate_of_busErr hbus]
  case rxPending => rw [arbitrate_of_rx hbus hrx]
  case idle => rw [arbitrate_of_clear hbus hrx]

end Sys2Proof.Machine
end

section
/-! PROOFS. The encoding of instructions (R81 to R88, R100): decoding undoes encoding, and a wire frame has one reading. -/

namespace Sys2Proof

/-! ### Host operations: a code, then the record its reader takes apart (R100) -/

/-- A host request decodes to what the operand reader of its code makes of the record. -/
theorem decode_host_of_reader {opc : Byte} {record : List Byte} {r : Reader Instr} {i : Instr}
    (hopc : operandReader opc = some r) (hr : r (record ++ []) = .ok (i, [])) :
    decode (.host (opc :: record)) = .ok i := by
  rw [List.append_nil] at hr
  simp only [decode, decodeHost, hopc, hr]

/-! ### Wire commands: an instruction nibble, an address, a tail (R84) -/

/-- R84: nibble and address are read from the two bytes that carry them. -/
theorem wireCommand_eq (c : BitVec 4) (a : Addr) :
    ∃ b0 b1, wireCommand c a = [b0, b1] ∧ wireNibble b0 = c ∧ wireAddress b0 b1 = a :=
  ⟨_, _, rfl, Machine.wireNibble_wireCommand c a, Machine.wireAddress_wireCommand c a⟩

/-- R84: the two bytes hold nothing but nibble and address. -/
theorem wireCommand_parts (b0 b1 : Byte) : wireCommand (wireNibble b0) (wireAddress b0 b1) = [b0, b1] := by
  unfold wireCommand wireNibble wireAddress
  congr 1
  · ext i hi
    interval_cases i <;> simp
  · congr 1
    ext i hi
    interval_cases i <;> simp

theorem decode_wRead (a : Addr) {n : Nat} (hn : burstLengthOk n = true) :
    decode (.wire (wireCommand opRead a ++ List.replicate n placeholderByte)) = .ok (.wRead a n) := by
  obtain ⟨b0, b1, hcmd, hnib, rfl⟩ := wireCommand_eq opRead a
  rw [hcmd]
  simp [decode, decodeWire, hnib, hn, opReset, opRead]

theorem decode_wWrite (a : Addr) {data : List Byte} (hn : burstLengthOk data.length = true) :
    decode (.wire (wireCommand opWrite a ++ data)) = .ok (.wWrite a data) := by
  obtain ⟨b0, b1, hcmd, hnib, rfl⟩ := wireCommand_eq opWrite a
  rw [hcmd]
  simp [decode, decodeWire, hnib, hn, opReset, opRead, opWrite]

theorem decode_wWriteCrc (a : Addr) (rest : List Byte) :
    decode (.wire (wireCommand opWriteCrc a ++ rest)) = .ok (.wWriteCrc a rest) := by
  obtain ⟨b0, b1, hcmd, hnib, rfl⟩ := wireCommand_eq opWriteCrc a
  rw [hcmd]
  simp [decode, decodeWire, hnib, opReset, opRead, opWrite, opWriteCrc]

theorem decode_wReadCrc (a : Addr) (rest : List Byte) :
    decode (.wire (wireCommand opReadCrc a ++ rest)) = .ok (.wReadCrc a rest) := by
  obtain ⟨b0, b1, hcmd, hnib, rfl⟩ := wireCommand_eq opReadCrc a
  rw [hcmd]
  simp [decode, decodeWire, hnib, opReset, opRead, opWrite, opWriteCrc, opReadCrc]

theorem decode_wWriteSafe (a : Addr) (rest : List Byte) :
    decode (.wire (wireCommand opWriteSafe a ++ rest)) = .ok (.wWriteSafe a rest) := by
  obtain ⟨b0, b1, hcmd, hnib, rfl⟩ := wireCommand_eq opWriteSafe a
  rw [hcmd]
  simp [decode, decodeWire, hnib, opReset, opRead, opWrite, opWriteCrc, opReadCrc, opWriteSafe]

/-- Settles O1, by cases on the instruction: the reader of each operand gives back what its writer wrote
(Laws/Encoding.lean), whatever record bytes follow. -/
theorem decodeEncodeRoundTrip : Obligations.DecodeEncodeRoundTrip := by
  intro i hwf
  cases i with
  | wReset | reset | readStatus | receive | receiveWait => rfl
  | wRead a n => exact decode_wRead a hwf
  | wWrite a data => exact decode_wWrite a hwf
  | wWriteCrc a rest => exact decode_wWriteCrc a rest
  | wReadCrc a rest => exact decode_wReadCrc a rest
  | wWriteSafe a rest => exact decode_wWriteSafe a rest
  | readReg a =>
    exact decode_host_of_reader rfl (Reader.map_run _ _ _ (readBits_bitsBytes 2 12 a _ (by decide)))
  | writeReg a v =>
    refine decode_host_of_reader rfl ?_
    rw [List.append_assoc, Reader.bind_run (readBits_bitsBytes 2 12 a _ (by decide)),
      Reader.map_run _ _ _ (readBits_bitsBytes 4 32 v _ (by decide))]
  | modifyReg a m v =>
    refine decode_host_of_reader rfl ?_
    rw [List.append_assoc, List.append_assoc, Reader.bind_run (readBits_bitsBytes 2 12 a _ (by decide)),
      Reader.bind_run (readBits_bitsBytes 4 32 m _ (by decide)), Reader.map_run _ _ _ (readBits_bitsBytes 4 32 v _ (by decide))]
  | readBytes off n =>
    refine decode_host_of_reader rfl ?_
    rw [List.append_assoc, Reader.bind_run (readBits_bitsBytes 4 32 off _ (by decide)),
      Reader.map_run _ _ _ (readBits_bitsBytes 4 32 n _ (by decide))]
  | writeBytes off data =>
    refine decode_host_of_reader rfl ?_
    rw [List.append_assoc, Reader.bind_run (readBits_bitsBytes 4 32 off _ (by decide)),
      Reader.map_run _ _ _ (readSeq_seqBytes data _ hwf)]
  | requestToTransmit q | fifoAddr q | filterAddr q =>
    exact decode_host_of_reader rfl (Reader.map_run _ _ _ (readBits_bitsBytes 1 8 q _ (by decide)))
  | dlcToLen c => exact decode_host_of_reader rfl (Reader.map_run _ _ _ (readBits_bitsBytes 1 4 c _ (by decide)))
  | lenToDlc w | arbitrate w | scan w =>
    exact decode_host_of_reader rfl (Reader.map_run _ _ _ (readBits_bitsBytes 4 32 w _ (by decide)))
  | frameNew id data seq =>
    refine decode_host_of_reader rfl ?_
    rw [List.append_assoc, List.append_assoc, Reader.bind_run (readId_idBytes id _),
      Reader.bind_run (readSeq_seqBytes data _ hwf), Reader.map_run _ _ _ (readSeqNo_seqNoBytes seq _)]
  | encode f => exact decode_host_of_reader rfl (Reader.map_run _ _ _ (readFrame_frameBytes f _ hwf))
  | decode h payload =>
    refine decode_host_of_reader rfl ?_
    rw [List.append_assoc, Reader.bind_run (readHeader_headerBytes h _), Reader.map_run _ _ _ (readSeq_seqBytes payload _ hwf)]
  | hdrToBytes h => exact decode_host_of_reader rfl (Reader.map_run _ _ _ (readHeader_headerBytes h _))
  | bytesToHdr b =>
    have hlen : b.length = hdrBytes := by simpa [Instr.wellFormed] using hwf
    exact decode_host_of_reader rfl (Reader.map_run _ _ _ (hlen ▸ readRaw_append b []))
  | transmit i f =>
    refine decode_host_of_reader rfl ?_
    rw [List.append_assoc, Reader.bind_run (readBits_bitsBytes 1 8 i _ (by decide)),
      Reader.map_run _ _ _ (readFrame_frameBytes f _ hwf)]
  | configureFifo i spec =>
    refine decode_host_of_reader rfl ?_
    rw [List.append_assoc, Reader.bind_run (readBits_bitsBytes 1 8 i _ (by decide)),
      Reader.map_run _ _ _ (readFifoSpec_fifoSpecBytes spec _)]
  | configureFilter n f m =>
    refine decode_host_of_reader rfl ?_
    rw [List.append_assoc, List.append_assoc, Reader.bind_run (readBits_bitsBytes 1 8 n _ (by decide)),
      Reader.bind_run (readFilterSpec_filterSpecBytes f _), Reader.map_run _ _ _ (readMaskSpec_maskSpecBytes m _)]

/-! ### One reading of a wire frame -/

/-- What a frame that decodes is made of: the reset byte, or the two bytes of a command and the tail its instruction keeps. -/
theorem decodeWire_cases {frame : List Byte} {i : Instr} (h : decodeWire frame = .ok i) :
    (frame = [resetByte] ∧ i = .wReset) ∨
    ∃ b0 b1 tail, frame = b0 :: b1 :: tail ∧
      ((wireNibble b0 = opRead ∧ i = .wRead (wireAddress b0 b1) tail.length ∧ ∀ b ∈ tail, b = placeholderByte) ∨
        (wireNibble b0 = opWrite ∧ i = .wWrite (wireAddress b0 b1) tail) ∨
        (wireNibble b0 = opWriteCrc ∧ i = .wWriteCrc (wireAddress b0 b1) tail) ∨
        (wireNibble b0 = opReadCrc ∧ i = .wReadCrc (wireAddress b0 b1) tail) ∨
        (wireNibble b0 = opWriteSafe ∧ i = .wWriteSafe (wireAddress b0 b1) tail)) := by
  match frame, h with
  | [b0], h =>
    simp only [decodeWire] at h
    split_ifs at h with hn hb
    cases h
    exact .inl ⟨by rw [hb], rfl⟩
  | b0 :: b1 :: tail, h =>
    refine .inr ⟨b0, b1, tail, rfl, ?_⟩
    simp only [decodeWire, reduceCtorEq, if_false] at h
    split_ifs at h with h0 hb hread hlen hzero hwrite hlen hwc hrc hws <;> cases h
    · exact .inl ⟨hread, rfl, by simpa using hzero⟩
    · exact .inr (.inl ⟨hwrite, rfl⟩)
    · exact .inr (.inr (.inl ⟨hwc, rfl⟩))
    · exact .inr (.inr (.inr (.inl ⟨hrc, rfl⟩)))
    · exact .inr (.inr (.inr (.inr ⟨hws, rfl⟩)))

/-- Settles O2: in each shape a decoded frame can have, nibble, address and tail are all of its bits. -/
theorem wireFramesHaveOneReading : Obligations.WireFramesHaveOneReading := by
  intro frame i h
  obtain ⟨rfl, rfl⟩ | ⟨b0, b1, tail, rfl, hi⟩ := decodeWire_cases h
  · rfl
  · have hcmd := wireCommand_parts b0 b1
    obtain ⟨hn, rfl, hzero⟩ | ⟨hn, rfl⟩ | ⟨hn, rfl⟩ | ⟨hn, rfl⟩ | ⟨hn, rfl⟩ := hi <;> rw [hn] at hcmd
    · rw [encode, hcmd, ← List.eq_replicate_of_mem hzero]; rfl
    all_goals rw [encode, hcmd]; rfl

/-- Settles O3: the words are decoded by evaluation. -/
theorem specWordsDecode : Obligations.SpecWordsDecode := ⟨rfl, rfl, rfl, rfl, rfl, rfl, rfl⟩

end Sys2Proof
end

section
/-! PROOFS. The block at rest (R22, R23) and the record of the link (R88), kept by every step. -/

namespace Sys2Proof.Machine

@[simp] theorem suspend_link (s : State) : (suspend s).link = s.link := by
  obtain ⟨n, h⟩ := suspend_eq s
  rw [h]

@[simp] theorem applyEvent_link (e : Event) (s : State) : (applyEvent e s).link = s.link := by
  obtain ⟨-, r, h⟩ | ⟨l, m, h, -⟩ := applyEvent_cases e s <;> rw [h]
  rfl

@[simp] theorem noteFall_atRest (l l' : IrqLevel) (r : Run) : (noteFall l l' r).atRest = r.atRest := by
  cases r <;> rfl

/-! ### At rest -/

theorem Steady.finish {s : State} (h : Steady s) (r : Result) : Steady (finish r s) :=
  ⟨h.released, h.noOpenTxn, rfl, h.memWf⟩

/-- What a piece ran in leaves a state that is at rest once the operation has ended or suspended. -/
theorem Ran.steady_finish {n : Nat} {W : Nat → Prop} {s u : State} {fail : Option Nat} (h : Ran n W s u fail)
    (hm : Memory.wf s.mem = true) (r : Result) : Steady (finish r u) :=
  ⟨h.released, h.noOpenTxn, rfl, h.memWf hm⟩

theorem Ran.steady_suspend {n : Nat} {W : Nat → Prop} {s u : State} {fail : Option Nat} (h : Ran n W s u fail)
    (hm : Memory.wf s.mem = true) : Steady (suspend u) := by
  obtain ⟨k, e⟩ := suspend_eq u
  rw [e]
  exact ⟨h.released, h.noOpenTxn, rfl, h.memWf hm⟩

theorem exec_steady {i : Instr} {s t : State} (hi : Steady s) (h : exec i s = .next t) : Steady t := by
  obtain ⟨x, u, -, hran, ⟨r, rfl, -⟩ | ⟨-, -, rfl⟩⟩ := exec_next hi h
  · exact hran.steady_finish hi.memWf r
  · exact hran.steady_suspend hi.memWf

theorem resume_steady {s : State} (hi : Steady s) (txns : Nat) : Steady (resume txns s) := by
  obtain ⟨x, u, -, hran, ⟨r, e, -⟩ | ⟨-, e⟩⟩ := resume_cases hi txns <;> rw [e]
  · exact hran.steady_finish hi.memWf r
  · exact hran.steady_suspend hi.memWf

theorem applyEvent_steady {s : State} (hi : Steady s) (e : Event) : Steady (applyEvent e s) := by
  obtain ⟨-, r, h⟩ | ⟨l, m, h, hm⟩ := applyEvent_cases e s <;> rw [h]
  · exact hi.finish r
  · refine ⟨hi.released, hi.noOpenTxn, (noteFall_atRest _ _ _).trans hi.atRest, ?_⟩
    obtain rfl | ⟨a, b, rfl⟩ := hm
    · exact hi.memWf
    · exact Memory.write_wf b a.isLt hi.memWf

/-- Settles O7: an event, an operation, a reserved code and a resumed pass each keep the block at rest. -/
theorem stepKeepsRest : Obligations.StepKeepsRest := by
  intro s t hi h
  obtain ⟨e, -, -, rfl⟩ | ⟨-, hturn⟩ := step_cases h
  · exact applyEvent_steady hi.eventTaken e
  · obtain ⟨rfl, -⟩ | ⟨r, rest, i, -, -, -, hexec⟩ | ⟨r, rest, c, -, -, -, rfl⟩ | ⟨txns, fell, -, -, rfl⟩ := turn_cases hturn
    · exact hi.eventTaken
    · exact exec_steady (hi.eventTaken.withRequests rest) hexec
    · rw [serveReservedOpc_eq]
      exact (hi.eventTaken.withRequests rest).finish _
    · exact resume_steady hi.eventTaken txns

/-! ### The record of the link -/

/-- R88: every transaction on the record is one the block may emit, or a front part of one. -/
def State.linkLegal (s : State) : Prop := ∀ x ∈ s.link, x.legal

theorem Ran.linkLegal {n : Nat} {W : Nat → Prop} {s u : State} {fail : Option Nat} (h : Ran n W s u fail)
    (hs : s.linkLegal) : u.linkLegal := by
  obtain ⟨whole, part, hl, hwhole, hpart, -⟩ := h.link
  intro x hx
  rw [hl, List.mem_append, List.mem_append] at hx
  obtain (hx | hx) | hx := hx
  · exact hs x hx
  · exact (hwhole x hx).2
  · exact (hpart x hx).2

theorem exec_linkLegal {i : Instr} {s t : State} (hi : Steady s) (hs : s.linkLegal) (h : exec i s = .next t) : t.linkLegal := by
  obtain ⟨x, u, -, hran, ⟨r, rfl, -⟩ | ⟨-, -, rfl⟩⟩ := exec_next hi h
  · exact hran.linkLegal hs
  · rw [State.linkLegal, suspend_link]
    exact hran.linkLegal hs

theorem resume_linkLegal {s : State} (hi : Steady s) (hs : s.linkLegal) (txns : Nat) : (resume txns s).linkLegal := by
  obtain ⟨x, u, -, hran, ⟨r, e, -⟩ | ⟨-, e⟩⟩ := resume_cases hi txns <;> rw [e]
  · exact hran.linkLegal hs
  · rw [State.linkLegal, suspend_link]
    exact hran.linkLegal hs

/-- Settles O8: only an operation or a resumed pass adds to the record, and what it adds is legal (`Ran.link`). -/
theorem stepKeepsLinkLegal : Obligations.StepKeepsLinkLegal := by
  intro s t hi hs h
  obtain ⟨e, -, -, rfl⟩ | ⟨-, hturn⟩ := step_cases h
  · rw [applyEvent_link]
    exact hs
  · obtain ⟨rfl, -⟩ | ⟨r, rest, i, -, -, -, hexec⟩ | ⟨r, rest, c, -, -, -, rfl⟩ | ⟨txns, fell, -, -, rfl⟩ := turn_cases hturn
    · exact hs
    · exact exec_linkLegal (hi.eventTaken.withRequests rest) hs hexec
    · rw [serveReservedOpc_eq]
      exact hs
    · exact resume_linkLegal hi.eventTaken hs txns

end Sys2Proof.Machine
end

section
/-! PROOFS. Events and turns one by one: the wait (R206, R207, R241), the idle block's requests (R21, R103), reset. -/

namespace Sys2Proof.Machine

/-! ### An event of the environment -/

theorem step_event {s : State} {e : Event} {es : List Event} (he : s.events = e :: es) (hne : e ≠ .turn) :
    step s = .next (applyEvent e { s with events := es }) := by
  cases e with
  | turn => exact absurd rfl hne
  | irq | cancel | waitFails | poke => simp only [step, advance, he]

/-- Settles O54: the event's step is `applyEvent`, whose `noteFall` is the remembered fall. -/
theorem waitRemembersAFall : Obligations.WaitRemembersAFall := by
  intro s n fell l es hrun hev
  rw [step_event hev (by simp), applyEvent, hrun]
  rfl

/-- An event that ends the wait does so when the block is suspended. -/
theorem finish_of_suspended {s : State} {n : Nat} {fell : Bool} (hrun : s.run = .waiting n fell) (r : Result) :
    (if suspended s.run then finish r s else s) = finish r s := by rw [hrun]; rfl

theorem same_of_idle {s : State} (hrun : s.run = .idle) (r : Result) :
    (if suspended s.run then finish r s else s) = s := by rw [hrun]; rfl

/-- Settles O55: Cancel and the failing wait are events that act when the block is suspended only. -/
theorem cancelActsOnlyOnTheWait : Obligations.CancelActsOnlyOnTheWait := by
  refine fun s es => ⟨fun hev => ?cancel, fun e hev => ?waitFails⟩
  case cancel =>
    rw [step_event hev (by simp)]
    exact ⟨fun n fell hrun => congrArg _ (finish_of_suspended (s := { s with events := es }) hrun .cancelled),
      fun hrun => congrArg _ (same_of_idle (s := { s with events := es }) hrun .cancelled)⟩
  case waitFails =>
    rw [step_event hev (by simp)]
    exact ⟨fun n fell hrun => congrArg _ (finish_of_suspended (s := { s with events := es }) hrun (.transport e)),
      fun hrun => congrArg _ (same_of_idle (s := { s with events := es }) hrun (.transport e))⟩

/-! ### The idle block's turn -/

theorem step_no_request {s : State} (hrun : s.run = .idle) (hev : s.events = []) (hreq : s.requests = []) : step s = .next s := by
  simp only [step, advance, hev, turn, hrun, hreq]

theorem step_request {s : State} {r : Request} {rest : List Request} (hrun : s.run = .idle) (hev : s.events = [])
    (hreq : s.requests = r :: rest) : step s = serve exec r { s with requests := rest } := by
  simp only [step, advance, hev, turn, hrun, hreq]

theorem step_turn_request {s : State} {r : Request} {rest : List Request} {es : List Event} (hrun : s.run = .idle)
    (hev : s.events = .turn :: es) (hreq : s.requests = r :: rest) :
    step s = serve exec r { s with events := es, requests := rest } := by
  simp only [step, advance, hev, turn, hrun, hreq]

theorem serve_ok {r : Request} {i : Instr} (h : decode r = .ok i) (s : State) : serve exec r s = exec i s := by
  simp only [serve, h]

theorem serve_reservedOpc {r : Request} {c : Byte} (h : decode r = .error (.reservedOpc c)) (s : State) :
    serve exec r s = .next (finish (.unsupported (if s.cfg.cap.supported then .reservedOpc else .variant)) s) := by
  simp only [serve, h, serveReservedOpc_eq]

/-- Settles O5: the turn serves the first request, and serving an instruction is its `exec`. -/
theorem stepRunsTheRequest : Obligations.StepRunsTheRequest := fun _ _ _ _ hrun hreq hd =>
  ⟨fun hev => (step_request hrun hev hreq).trans (serve_ok hd _),
    fun _ hev => (step_turn_request hrun hev hreq).trans (serve_ok hd _)⟩

/-- R100, R103: the table of operand readers has no row for a code outside R100's list. -/
theorem operandReader_reserved {opc : Byte}
    (h : opc.toNat ∉ [0x00, 0x01, 0x02, 0x03, 0x04, 0x05, 0x06, 0x07, 0x10, 0x11, 0x12, 0x13, 0x14, 0x15, 0x16, 0x20, 0x21,
      0x22, 0x23, 0x30, 0x31, 0x32, 0x40, 0x41]) : operandReader opc = none := by
  unfold operandReader
  split
  case h_25 => rfl
  all_goals next hopc => rw [hopc] at h; exact absurd (by decide) h

theorem decode_reserved {opc : Byte} (h : operandReader opc = none) (record : List Byte) :
    decode (.host (opc :: record)) = .error (.reservedOpc opc) := by
  simp only [decode, decodeHost, h]

/-- Settles O4: a code with no operand reader decodes to a reserved code, which is answered at once. -/
theorem reservedCodeAnswersUnsupported : Obligations.ReservedCodeAnswersUnsupported := by
  intro s opc record rest hopc hev hrun hs hreq
  rw [step_request hrun hev hreq, serve_reservedOpc (decode_reserved (operandReader_reserved hopc) record), if_pos hs]

/-! ### Reset -/

/-- Settles O6: every clause is a field of `State.reset`, evaluated. -/
theorem resetState : Obligations.ResetState :=
  ⟨rfl, rfl, rfl, rfl, by decide, rfl, rfl, rfl, rfl, rfl⟩

end Sys2Proof.Machine
end

section
/-! PROOFS. What every operation leaves alone, and how much it sends (R25, R63, R65, R122, R260). -/

namespace Sys2Proof.Machine

/-! ### The environment (R63) -/

theorem Ran.link_prefix {n : Nat} {W : Nat → Prop} {s u : State} {fail : Option Nat} (h : Ran n W s u fail) :
    s.link <+: u.link := by
  obtain ⟨whole, part, hl, -⟩ := h.link
  exact ⟨whole ++ part, by rw [hl, List.append_assoc]⟩

/-- Settles O10: what an operation ran keeps its environment (`Ran`), and ending or suspending touches none of it. -/
theorem operationsLeaveTheirEnvironment : Obligations.OperationsLeaveTheirEnvironment := by
  intro i s t hi h
  obtain ⟨x, u, -, hran, ⟨r, rfl, -⟩ | ⟨-, -, rfl⟩⟩ := exec_next hi h
  · exact ⟨hran.link_prefix, hran.irq, hran.requests, hran.events, hran.chip⟩
  · obtain ⟨k, e⟩ := suspend_eq u
    rw [e]
    exact ⟨hran.link_prefix, hran.irq, hran.requests, hran.events, hran.chip⟩

/-! ### The interrupt line (R260) -/

/-- The interrupt line at another level. -/
def lineAt (l : IrqLevel) : Tweak where
  onRun r := r
  onIrq _ := l
  onResult r := r
  onLink t := t
  counts _ := rfl
  keeps _ _ := rfl
  records _ _ := rfl

theorem exec_line {i : Instr} {s t : State} (l : IrqLevel) (h : exec i s = .next t) :
    exec i { s with irq := l } = .next { t with irq := l } :=
  exec_tweaked (lineAt l) (fun _ => rfl) (fun _ => rfl) h

theorem serve_line {r : Request} {s t : State} (l : IrqLevel) (h : serve exec r s = .next t) :
    serve exec r { s with irq := l } = .next { t with irq := l } := by
  unfold serve at h ⊢
  split at h
  next => exact exec_line l h
  next =>
    rw [serveReservedOpc_eq] at h ⊢
    cases h
    rfl
  next => cases h

/-- Settles O12: an operation is blind to the line (`exec_tweaked`), the idle block's turn is an operation or an answer
at once, and the line's own event changes the line. -/
theorem lineReadOnlyByTheWait : Obligations.LineReadOnlyByTheWait := by
  refine ⟨fun i s t l h => exec_line l h, fun s t l hrun hev h => ?turn, fun s l es hrun hev => ?event⟩
  case turn =>
    by_cases hreq : s.requests = []
    · rw [step_no_request hrun hev hreq] at h
      cases h
      exact step_no_request (s := { s with irq := l }) hrun hev hreq
    · obtain ⟨r, rest, hreq⟩ := List.exists_cons_of_ne_nil hreq
      rw [step_request hrun hev hreq] at h
      rw [step_request (s := { s with irq := l }) hrun hev hreq]
      exact serve_line (s := { s with requests := rest }) l h
  case event =>
    rw [step_event hev (by simp), applyEvent, hrun]
    rfl

/-! ### The transactions of one operation (R65, R122) -/

theorem error_of_failOf {α : Type} {x : Except Result α} {e : Nat} (h : failOf x = some e) : x = .error (.transport e) := by
  unfold failOf at h
  split at h
  next => rw [Option.some.inj h]
  next => cases h

/-- The transactions of an operation: whole ones, and at most one more, cut short by the failure the operation reports. -/
theorem exec_transactions {i : Instr} {s t : State} (hi : Steady s) (h : exec i s = .next t) :
    ∃ whole part : List Txn, t.link = s.link ++ whole ++ part ∧ (∀ x ∈ whole, x.whole = true) ∧
      (∀ x ∈ part, x.whole = false) ∧ part.length ≤ 1 ∧ whole.length + part.length ≤ maxTxns i ∧
      (part ≠ [] → ∃ e, t.result = some (.transport e)) ∧
      ∀ e, t.result = some (.transport e) → ∃ f : Failure, some f ∈ s.transport ∧ f.err = e := by
  obtain ⟨x, u, -, hran, hend⟩ := exec_next hi h
  obtain ⟨whole, part, hl, hwhole, hpart, hone, hcount, hnone⟩ := hran.link
  refine ⟨whole, part, ?link, fun y hy => (hwhole y hy).1, fun y hy => (hpart y hy).1, hone, hcount,
    fun hne => ?cut, fun e he => ?token⟩
  case link =>
    obtain ⟨r, rfl, -⟩ | ⟨-, -, rfl⟩ := hend
    · exact hl
    · exact (suspend_link u).trans hl
  case cut =>
    obtain ⟨e, he⟩ := Option.ne_none_iff_exists'.1 fun hx => hne (hnone hx)
    obtain rfl := error_of_failOf he
    obtain ⟨r, rfl, ⟨v, hv, -⟩ | hr, -⟩ | ⟨-, hw, -⟩ := hend
    · cases hv
    · exact ⟨e, congrArg some (Except.error.inj hr).symm⟩
    · cases hw
  case token =>
    obtain ⟨r, rfl, ⟨v, -, rfl⟩ | rfl, -⟩ | ⟨-, -, rfl⟩ := hend
    · cases he
    · cases he
      exact hran.fails e rfl
    · obtain ⟨k, e'⟩ := suspend_eq u
      rw [e'] at he
      exact absurd (hran.result.symm.trans he) (by simp)

/-- Settles O15: whole transactions and the one cut short are together bounded by `maxTxns`. -/
theorem transactionsAreBounded : Obligations.TransactionsAreBounded := by
  intro i s t hi h
  obtain ⟨whole, part, hl, -, -, -, hcount, -⟩ := exec_transactions hi h
  rw [hl, List.append_assoc, List.length_append, List.length_append]
  omega

/-- Settles O16. -/
theorem onlyTheFailingTransactionIsPartial : Obligations.OnlyTheFailingTransactionIsPartial := by
  intro i s t hi h
  obtain ⟨whole, part, hl, hwhole, hpart, hone, -, hcut, htoken⟩ := exec_transactions hi h
  exact ⟨whole, part, hl, hwhole, hpart, hone, hcut, htoken⟩

end Sys2Proof.Machine
end

section
/-! PROOFS. How an operation of the supported block ends, from what its body does (R7, R240, R251). -/

namespace Sys2Proof.Machine

section
variable {i : Instr} {s t : State} {v : Value} {r : Result}

/-- An operation that does not suspend is its body run on the wiped state, and its end. -/
theorem exec_eq (hs : s.supported) (hr : reservedWire i = false) (hw : i ≠ .receiveWait) :
    exec i s = .next (conclude (bodyOf i (blank s))) := by
  obtain ⟨hr', -⟩ | ⟨hw', -⟩ | ⟨-, -, h⟩ := exec_cases i s
  · rw [hr] at hr'; cases hr'
  · exact absurd hw' hw
  · rw [h, perform_eq (.bodyOf i) i hs]

theorem exec_ok (hs : s.supported) (hr : reservedWire i = false) (hw : i ≠ .receiveWait)
    (h : bodyOf i (blank s) = (.ok v, blank t)) : exec i s = .next (finish (.ok v) t) := by
  rw [exec_eq hs hr hw, h]; rfl

theorem exec_error (hs : s.supported) (hr : reservedWire i = false) (hw : i ≠ .receiveWait)
    (h : bodyOf i (blank s) = (.error r, blank t)) : exec i s = .next (finish r t) := by
  rw [exec_eq hs hr hw, h]; rfl

/-- RECEIVE_WAIT's first pass, when it does not suspend. -/
theorem exec_receiveWait {x : Except Result Value} (hs : s.supported) (hx : x ≠ .error .nothingPending)
    (h : receiveOp (blank s) = (x, blank t)) : exec .receiveWait s = .next (conclude (x, t)) := by
  have hvar : onVariant receiveOp (begin .receiveWait s) = receiveOp (begin .receiveWait s) := by
    simp only [onVariant, withConfig_run, begin_cfg, hs, Op.bind_run, require_true]
  rcases hy : receiveOp (begin .receiveWait s) with ⟨x', u⟩
  have hblank := Op.Blind.receiveOp.on_blank hy
  rw [blank_begin, h] at hblank
  obtain ⟨rfl, hu⟩ := Prod.mk.inj hblank
  change Host.Outcome.next (concludePass (onVariant receiveOp (begin .receiveWait s))) = _
  rw [hvar, hy]
  obtain ⟨-, e⟩ | ⟨he, -⟩ := concludePass_cases x u
  · rw [e, ← conclude_blank, ← conclude_blank x t, hu]
  · exact absurd he hx

end

/-- Settles O18: the variant is checked before everything else, in the atomic operations and in RECEIVE_WAIT's pass. -/
theorem otherVariantsRefuseEverything : Obligations.OtherVariantsRefuseEverything := by
  intro i s hs hr
  obtain ⟨hr', -⟩ | ⟨rfl, h⟩ | ⟨-, -, h⟩ := exec_cases i s
  · rw [hr] at hr'; cases hr'
  · rw [h, onVariant, withConfig_run, begin_cfg, hs, Op.bind_error (require_false _ _)]; rfl
  · rw [h, perform_unsupported _ _ hs]

/-- Settles O19: the three arms of `exec` refuse. -/
theorem reservedWireCommandsAreRefused : Obligations.ReservedWireCommandsAreRefused := fun _ _ _ => ⟨rfl, rfl, rfl⟩

/-- Settles O27: the bodies of both operations end at once. -/
theorem noWireFormMeansUnsupported : Obligations.NoWireFormMeansUnsupported := fun _ _ hs =>
  ⟨exec_error hs rfl nofun rfl, exec_error hs rfl nofun rfl⟩

end Sys2Proof.Machine
end

section
/-! PROOFS. The sequencer's operations with no failure ahead, and their refusals (R81 to R83, R88, R124 to R129). -/

namespace Sys2Proof.Machine

theorem regAligned_of_mod {a : Addr} (h : a.toNat % 4 = 0) : regAligned a = true := beq_iff_eq.2 h

theorem not_regAligned_of_mod {a : Addr} (h : a.toNat % 4 ≠ 0) : regAligned a = false := beq_false_of_ne h

/-- Settles O20: both operations have the body `busReset`. -/
theorem resetSendsOneByte : Obligations.ResetSendsOneByte := fun s hs h =>
  have hbody : unitValue busReset (blank s) = (.ok .unit, blank (resetDone s)) := Op.map_ok (busReset_unfailing (blank_unfailing h))
  ⟨exec_ok hs rfl nofun hbody, exec_ok hs rfl nofun hbody⟩

/-- Settles O21. -/
theorem readRegResult : Obligations.ReadRegResult := fun _ _ hs =>
  ⟨fun ha h => exec_ok hs rfl nofun (Op.map_ok (readRegister_ok h (regAligned_of_mod ha))),
    fun ha => exec_error hs rfl nofun (Op.map_error (readRegister_misaligned (not_regAligned_of_mod ha) _))⟩

/-- Settles O22. -/
theorem writeRegResult : Obligations.WriteRegResult := fun _ _ v hs =>
  ⟨fun ha h => exec_ok hs rfl nofun (Op.map_ok (writeRegister_ok h (regAligned_of_mod ha) v)),
    fun ha => exec_error hs rfl nofun (Op.map_error (writeRegister_misaligned (not_regAligned_of_mod ha) v _))⟩

/-- Settles O23: alignment, then membership, then the read and the write back (`modifyDone`). -/
theorem modifyRegResult : Obligations.ModifyRegResult := by
  refine fun s a mask value hs => ⟨fun ha hm h => ?done, fun ha => ?misaligned, fun ha hm => ?foreign⟩
  case done =>
    have hmod : s.cfg.cap.modifiable.contains a = true := List.contains_iff_mem.2 hm
    exact exec_ok hs rfl nofun (Op.map_ok (modifyRegister_ok h (regAligned_of_mod ha) hmod mask value))
  case misaligned =>
    exact exec_error hs rfl nofun (Op.map_error (modifyRegister_misaligned (not_regAligned_of_mod ha) mask value _))
  case foreign =>
    have hmod : s.cfg.cap.modifiable.contains a = false := by simpa using hm
    exact exec_error hs rfl nofun (Op.map_error (modifyRegister_foreign (s := blank s) (regAligned_of_mod ha) hmod mask value))

/-- Settles O24: the three checks in order (`ramCheck`), then one READ, or none for an empty read. -/
theorem readBytesResult : Obligations.ReadBytesResult := by
  refine fun s off n hs => ⟨fun hn ho hr h0 h => ?run, fun hn ho hr => ?empty, fun hn => ?length,
    fun hn ho => ?align, fun hn ho hr => ?range⟩
  case run => exact exec_ok hs rfl nofun (Op.map_ok (readRam_ok h hn ho hr h0))
  case empty =>
    have hbody : readRam off.toNat n.toNat (blank s) = (.ok [], blank s) := hn ▸ readRam_empty ho hr _
    exact exec_ok hs rfl nofun (Op.map_ok hbody)
  case length => exact exec_error hs rfl nofun (Op.map_error (readRam_refused (ramCheck_length hn _)))
  case align => exact exec_error hs rfl nofun (Op.map_error (readRam_refused (ramCheck_align hn ho _)))
  case range => exact exec_error hs rfl nofun (Op.map_error (readRam_refused (ramCheck_range hn ho hr _)))

/-- Settles O25: the checks of READ_BYTES on the data's length, then one WRITE, or none for empty data. -/
theorem writeBytesResult : Obligations.WriteBytesResult := by
  refine fun s off data hs => ⟨fun hn ho hr h0 h => ?run, fun hn ho hr => ?empty, fun hn => ?length,
    fun hn ho => ?align, fun hn ho hr => ?range⟩
  case run => exact exec_ok hs rfl nofun (Op.map_ok (writeRam_ok h hn ho hr h0))
  case empty =>
    subst hn
    exact exec_ok hs rfl nofun (Op.map_ok (writeRam_empty ho hr _))
  case length => exact exec_error hs rfl nofun (Op.map_error (writeRam_refused (ramCheck_length hn _)))
  case align => exact exec_error hs rfl nofun (Op.map_error (writeRam_refused (ramCheck_align hn ho _)))
  case range => exact exec_error hs rfl nofun (Op.map_error (writeRam_refused (ramCheck_range hn ho hr _)))

/-! ### Raw transactions -/

theorem rawCheck_ok {a : Addr} {n : Nat} (h : addressable a.toNat n = true) (s : State) : rawCheck a n s = (.ok (), s) := by
  obtain ⟨-, e⟩ | ⟨h', -⟩ := rawCheck_cases a n s
  · exact e
  · rw [h] at h'; cases h'

theorem rawCheck_refuses {a : Addr} {n : Nat} (h : addressable a.toNat n = false) (s : State) :
    ∃ k, rawCheck a n s = (.error (.contractViolation k), s) := by
  obtain ⟨h', -⟩ | ⟨-, k, e, -⟩ := rawCheck_cases a n s
  · rw [h] at h'; cases h'
  · exact ⟨k, e⟩

theorem busRead_blank {s : State} (h : s.unfailing) (a : Addr) (n : Nat) :
    busRead a n (blank s) = (.ok (captured s a.toNat n), blank (readDone a n s)) := by
  rw [busRead_unfailing a n (blank_unfailing h), readNoted_blank, captured_blank]

theorem busWrite_blank {s : State} (h : s.unfailing) (a : Addr) (data : List Byte) :
    busWrite a data (blank s) = (.ok (), blank (writeDone a data s)) := busWrite_unfailing a data (blank_unfailing h)

/-- Settles O26: the port's check lets through exactly the transactions R88 lists. -/
theorem rawTransactionResult : Obligations.RawTransactionResult := by
  refine fun s a n data hs => ⟨fun ha h => ?read, fun ha h => ?write, fun ha => ?readRefused, fun ha => ?writeRefused⟩
  case read => exact exec_ok hs rfl nofun ((Op.bind_ok (rawCheck_ok ha _)).trans (Op.map_ok (busRead_blank h a n)))
  case write => exact exec_ok hs rfl nofun ((Op.bind_ok (rawCheck_ok ha _)).trans (Op.map_ok (busWrite_blank h a data)))
  case readRefused =>
    obtain ⟨k, e⟩ := rawCheck_refuses ha (blank s)
    exact ⟨k, exec_error hs rfl nofun (Op.bind_error e)⟩
  case writeRefused =>
    obtain ⟨k, e⟩ := rawCheck_refuses ha (blank s)
    exact ⟨k, exec_error hs rfl nofun (Op.bind_error e)⟩

/-! ### SimChip -/

theorem registerAnswer_simChip {s : State} (h : s.chip = .simChip) (a : Addr) :
    registerAnswer a s = le32 (Memory.readBytes s.mem a.toNat 4) := by
  simp only [registerAnswer, captured, h]

/-- Settles O28: what WRITE_REG stored is what the READ of the same four bytes gives, and `le32` undoes `bytes32`. -/
theorem simChipReadsWhatWasWritten : Obligations.SimChipReadsWhatWasWritten := by
  intro s a v hi hs h hchip ha
  have hw := (writeRegResult s a v hs).1 ha h
  have hu : (writeDone a (bytes32 v) s).unfailing := h.writeDone a (bytes32 v)
  have hr := (readRegResult (finish (.ok .unit) (writeDone a (bytes32 v) s)) a hs).1 ha hu
  refine ⟨_, _, hw, hr, ?_⟩
  have hfit : a.toNat + (bytes32 v).length ≤ chipSpace := by
    have ha' := a.isLt
    simp only [bytes32, List.length_cons, List.length_nil, chipSpace]
    omega
  have hread : Memory.readBytes (Memory.writeBytes s.mem a.toNat (bytes32 v)) a.toNat 4 = bytes32 v :=
    Memory.readBytes_writeBytes hfit hi.memWf
  have hval : registerAnswer a (finish (.ok .unit) (writeDone a (bytes32 v) s)) = v := by
    rw [registerAnswer_simChip (s := finish _ (writeDone a _ s)) hchip, finish_mem, writeDone_mem, hread, le32_bytes32]
  exact congrArg (fun w => some (Result.ok (.word w))) hval

end Sys2Proof.Machine
end

section
/-! PROOFS. The codec operations (R152 to R157): each returns what its pure function gives. -/

namespace Sys2Proof.Machine

theorem orEnd_of_some {α : Type} {o : Option α} {a : α} (h : o = some a) (r : Result) (s : State) :
    orEnd r o s = (.ok a, s) := by rw [h, orEnd_some]

theorem orEnd_of_none {α : Type} {o : Option α} (h : o = none) (r : Result) (s : State) :
    (orEnd r o : Op α) s = (.error r, s) := by rw [h, orEnd_none]

/-! ### LEN_TO_DLC and FRAME_NEW -/

theorem lenToDlc_dlcBytes : ∀ c : BitVec 4, lenToDlc (dlcBytes c) = some c := by decide

theorem le_of_lenToDlc {n : Nat} {c : BitVec 4} (h : lenToDlc n = some c) : n ≤ 64 := by
  by_contra hn
  rw [lenToDlc_none (by omega)] at h
  cases h

/-- R152: the code found reaches the length and is the least that does. -/
theorem lenToDlc_least {n : Nat} {c : BitVec 4} (h : lenToDlc n = some c) :
    n ≤ dlcBytes c ∧ ∀ d : BitVec 4, n ≤ dlcBytes d → c.toNat ≤ d.toNat := by
  obtain ⟨c', hc', hle⟩ := lenToDlc_some (le_of_lenToDlc h)
  rw [h] at hc'
  obtain rfl := Option.some.inj hc'
  exact hle

/-- Settles O33: the least code answers, and a longer length asks for no smaller code since its own reaches the shorter. -/
theorem lenToDlcIsLeast : Obligations.LenToDlcIsLeast := by
  refine ⟨fun s len hs hlen => ?found, fun s len hs hlen => ?tooLong, lenToDlc_dlcBytes, fun m n c d hmn hc hd => ?mono,
    fun len => ⟨bitsBytes 4 len, rfl⟩⟩
  case found =>
    obtain ⟨c, hc, hle⟩ := lenToDlc_some hlen
    exact ⟨c, exec_ok hs rfl nofun (Op.map_ok (orEnd_of_some hc _ _)), hle⟩
  case tooLong => exact exec_error hs rfl nofun (Op.map_error (orEnd_of_none (lenToDlc_none hlen) _ _))
  case mono => exact (lenToDlc_least hc).2 d (Nat.le_trans hmn (lenToDlc_least hd).1)

/-- Settles O34: the frame is built on the code LEN_TO_DLC finds, or not at all. -/
theorem frameNewResult : Obligations.FrameNewResult := by
  refine fun s id data seq hs => ⟨fun hlen => ?built, fun hlen => ?tooLong⟩
  case built =>
    obtain ⟨c, hc, hle⟩ := lenToDlc_some hlen
    have hbuilt : buildFrame id data seq = some { id := id, dlc := c, data := data ++ zeros (64 - data.length), seq := seq } := by
      rw [buildFrame, hc]; rfl
    exact ⟨c, exec_ok hs rfl nofun (Op.map_ok (orEnd_of_some hbuilt _ _)), hle⟩
  case tooLong =>
    have hnone : buildFrame id data seq = none := by rw [buildFrame, lenToDlc_none hlen]; rfl
    exact exec_error hs rfl nofun (Op.map_error (orEnd_of_none hnone _ _))

/-! ### ENCODE and DECODE -/

/-- Settles O35: the value is `encodeFrame`, unfolded for either kind of identifier. -/
theorem encodeResult : Obligations.EncodeResult := fun _ _ _ _ hs =>
  ⟨fun _ => exec_ok hs rfl nofun rfl, fun _ => exec_ok hs rfl nofun rfl⟩

theorem joinId_eq (sid : BitVec 11) (eid : BitVec 18) : joinId sid eid = if eid = 0 then .std sid else .ext (eid ++ sid) := by
  rw [joinId, joinBits_eq]

/-- R155: enough payload gives the frame of its first bytes. -/
theorem decodeFrame_some {h : Header} {payload : List Byte} (hlen : dlcBytes h.dlc ≤ payload.length) :
    decodeFrame h payload = some { id := if h.eid = 0 then .std h.sid else .ext (h.eid ++ h.sid), dlc := h.dlc,
                                   data := payload.take (dlcBytes h.dlc) ++ zeros (64 - dlcBytes h.dlc), seq := none } := by
  simp only [decodeFrame, if_neg (Nat.not_lt.2 hlen), joinId_eq]
  rfl

theorem decodeFrame_none {h : Header} {payload : List Byte} (hlen : payload.length < dlcBytes h.dlc) :
    decodeFrame h payload = none := if_pos hlen

/-- Settles O36. -/
theorem decodeResult : Obligations.DecodeResult := fun _ _ _ hs =>
  ⟨fun hlen => exec_ok hs rfl nofun (Op.map_ok (orEnd_of_some (decodeFrame_some hlen) _ _)),
    fun hlen => exec_error hs rfl nofun (Op.map_error (orEnd_of_none (decodeFrame_none hlen) _ _))⟩

/-! ### The message-object header -/

theorem exec_hdrToBytes (h : Header) {s : State} (hs : s.supported) :
    exec (.hdrToBytes h) s = .next (finish (.ok (.bytes (headerToBytes s.cfg.schema h))) s) := exec_ok hs rfl nofun rfl

theorem exec_bytesToHdr (b : List Byte) {s : State} (hs : s.supported) :
    exec (.bytesToHdr b) s = .next (finish (.ok (.header (bytesToHeader s.cfg.schema b))) s) := exec_ok hs rfl nofun rfl

/-- R91: bit by bit, word 0 is the two identifier fields. -/
theorem getLsbD_headerWord0 (c : Schema) (h : Header) {k : Nat} (hk : k < 32) :
    (headerWord0 c h).getLsbD k = ((decide (c.objSidLsb ≤ k) && h.sid.getLsbD (k - c.objSidLsb)) ||
      (decide (c.objEidLsb ≤ k) && h.eid.getLsbD (k - c.objEidLsb))) := by
  simp only [headerWord0, BitVec.getLsbD_or, getLsbD_put _ _ _ hk]

/-- R92: bit by bit, word 1 is the DLC, the five flags and the tail. -/
theorem getLsbD_headerWord1 (c : Schema) (h : Header) {k : Nat} (hk : k < 32) :
    (headerWord1 c h).getLsbD k = ((decide (c.hdrDlcLsb ≤ k) && h.dlc.getLsbD (k - c.hdrDlcLsb)) ||
      (decide (k = c.hdrIdeBit) && h.ide) || (decide (k = c.hdrRtrBit) && h.rtr) || (decide (k = c.hdrBrsBit) && h.brs) ||
      (decide (k = c.hdrFdfBit) && h.fdf) || (decide (k = c.hdrEsiBit) && h.esi) ||
      (decide (c.hdrSeqLsb ≤ k) && h.tail.getLsbD (k - c.hdrSeqLsb))) := by
  simp only [headerWord1, BitVec.getLsbD_or, getLsbD_put _ _ _ hk, getLsbD_putBit _ _ _ hk]

/-- Settles O37: the two words are `headerWord0` and `headerWord1`. -/
theorem hdrToBytesPlacesFields : Obligations.HdrToBytesPlacesFields := fun s h hs _ =>
  ⟨headerWord0 s.cfg.schema h, headerWord1 s.cfg.schema h, exec_hdrToBytes h hs,
    fun _ hk => getLsbD_headerWord0 s.cfg.schema h hk, fun _ hk => getLsbD_headerWord1 s.cfg.schema h hk⟩

end Sys2Proof.Machine
end

section
/-! PROOFS. The header's serialisation read back: fields placed apart in a word are found again (R93, R156 to R158). -/

namespace Sys2Proof.Machine

/-! ### Fields of a word -/

theorem fieldsFit_le {size : Nat} {fs : List (Nat × Nat)} (h : fieldsFit size fs = true) : ∀ f ∈ fs, f.1 + f.2 ≤ size := by
  induction fs with
  | nil => simp
  | cons f fs ih =>
    simp only [fieldsFit, Bool.and_eq_true, decide_eq_true_eq] at h
    exact List.forall_mem_cons.2 ⟨h.1.1, ih h.2⟩

theorem fieldsFit_apart {size : Nat} {fs : List (Nat × Nat)} (h : fieldsFit size fs = true) :
    fs.Pairwise fun f g => fieldsApart f g = true := by
  induction fs with
  | nil => exact .nil
  | cons f fs ih =>
    simp only [fieldsFit, Bool.and_eq_true, List.all_eq_true] at h
    exact .cons h.1.2 (ih h.2)

theorem field_or (x y : Word) (l n : Nat) : field (x ||| y) l n = field x l n ||| field y l n := by
  ext i hi
  simp [field]

theorem field_put_same {w lsb : Nat} (v : BitVec w) (h : lsb + w ≤ 32) : field (put lsb v) lsb w = v := by
  ext i hi
  rw [field, BitVec.getElem_extractLsb', put_same v hi h, BitVec.getLsbD_eq_getElem hi]

theorem field_put_apart {w lsb l n : Nat} (v : BitVec w)
    (h : fieldsApart (l, n) (lsb, w) = true ∨ fieldsApart (lsb, w) (l, n) = true) (hl : l + n ≤ 32) : field (put lsb v) l n = 0 := by
  ext i hi
  rw [field, BitVec.getElem_extractLsb', put_apart v h hi hl, BitVec.ofNat_eq_ofNat, BitVec.getElem_zero]

theorem bitSet_eq_field (x : Word) (i : Nat) : bitSet x i = (field x i 1).getLsbD 0 := by
  simp [bitSet, field]

theorem getLsbD_field (x : Word) (l : Nat) {n k : Nat} (hk : k < n) : (field x l n).getLsbD k = x.getLsbD (l + k) := by
  simp [field, hk]

/-! ### The two words of a header -/

theorem headerToBytes_take (c : Schema) (h : Header) : (headerToBytes c h).take 4 = bytes32 (headerWord0 c h) := rfl

theorem headerToBytes_drop (c : Schema) (h : Header) : ((headerToBytes c h).drop 4).take 4 = bytes32 (headerWord1 c h) := rfl

/-- The identifier fields of word 0 are found again. -/
theorem headerWord0_fields {c : Config} (hc : Admits c) (h : Header) :
    field (headerWord0 c.schema h) c.schema.objSidLsb 11 = h.sid ∧ field (headerWord0 c.schema h) c.schema.objEidLsb 18 = h.eid := by
  have hfit := fieldsFit_le hc.object
  have hapart := fieldsFit_apart hc.object
  simp only [Schema.objectFields, List.forall_mem_cons, List.pairwise_cons] at hfit hapart
  simp [headerWord0, field_or, field_put_same, field_put_apart, hfit, hapart]

/-- The fields of word 1 are found again: each lies apart from the six others. -/
theorem headerWord1_fields {c : Config} (hc : Admits c) (h : Header) :
    field (headerWord1 c.schema h) c.schema.hdrDlcLsb 4 = h.dlc ∧
    bitSet (headerWord1 c.schema h) c.schema.hdrIdeBit = h.ide ∧ bitSet (headerWord1 c.schema h) c.schema.hdrRtrBit = h.rtr ∧
    bitSet (headerWord1 c.schema h) c.schema.hdrBrsBit = h.brs ∧ bitSet (headerWord1 c.schema h) c.schema.hdrFdfBit = h.fdf ∧
    bitSet (headerWord1 c.schema h) c.schema.hdrEsiBit = h.esi ∧ field (headerWord1 c.schema h) c.schema.hdrSeqLsb 23 = h.tail := by
  have hfit := fieldsFit_le hc.header
  have hapart := fieldsFit_apart hc.header
  simp only [Schema.headerFlagFields, List.cons_append, List.nil_append, List.forall_mem_cons, List.pairwise_cons] at hfit hapart
  simp [headerWord1, putBit, bitSet_eq_field, field_or, field_put_same, field_put_apart, hfit, hapart]

/-- R157 undoes R156, for every admissible schema. -/
theorem bytesToHeader_headerToBytes {c : Config} (hc : Admits c) (h : Header) :
    bytesToHeader c.schema (headerToBytes c.schema h) = h := by
  obtain ⟨hsid, heid⟩ := headerWord0_fields hc h
  obtain ⟨hdlc, hide, hrtr, hbrs, hfdf, hesi, htail⟩ := headerWord1_fields hc h
  simp only [bytesToHeader, headerToBytes_take, headerToBytes_drop, le32_bytes32, hsid, heid, hdlc, hide, hrtr, hbrs, hfdf, hesi, htail]

/-! ### BYTES_TO_HDR bit by bit -/

/-- R55, R94: bit `k` of word 0 in the header's bytes. -/
theorem getLsbD_firstWord (b : List Byte) {k : Nat} (hk : k < 32) :
    (le32 (b.take 4)).getLsbD k = (b[k / 8]?.getD 0).getLsbD (k % 8) := by
  rw [getLsbD_le32 _ hk, List.getElem?_take_of_lt (by omega)]

/-- R55, R94: bit `k` of word 1 in the header's bytes. -/
theorem getLsbD_secondWord (b : List Byte) {k : Nat} (hk : k < 32) :
    (le32 ((b.drop 4).take 4)).getLsbD k = (b[(32 + k) / 8]?.getD 0).getLsbD ((32 + k) % 8) := by
  rw [getLsbD_le32 _ hk, List.getElem?_take_of_lt (by omega), List.getElem?_drop, show 4 + k / 8 = (32 + k) / 8 by omega,
    show (32 + k) % 8 = k % 8 by omega]

/-- Settles O38: each field is a field of word 0 or word 1, whose bits are the bytes' (`getLsbD_le32`). -/
theorem headerBytesRoundTrip : Obligations.HeaderBytesRoundTrip := by
  intro s h hs hwf
  have hc := admits_of_wf hwf
  refine ⟨by rw [exec_bytesToHdr _ hs, bytesToHeader_headerToBytes hc], fun b _ => ⟨_, exec_bytesToHdr b hs, ?_⟩⟩
  have hfit0 := fieldsFit_le hc.object
  have hfit1 := fieldsFit_le hc.header
  simp only [Schema.objectFields, Schema.headerFlagFields, List.cons_append, List.nil_append, List.forall_mem_cons] at hfit0 hfit1
  obtain ⟨hsid, heid, -⟩ := hfit0
  obtain ⟨hdlc, hide, hrtr, hbrs, hfdf, hesi, htail, -⟩ := hfit1
  have tailBit : ∀ k, k < 23 → (bytesToHeader s.cfg.schema b).tail.getLsbD k =
      (b[(32 + (s.cfg.schema.hdrSeqLsb + k)) / 8]?.getD 0).getLsbD ((32 + (s.cfg.schema.hdrSeqLsb + k)) % 8) :=
    fun k hk => (getLsbD_field _ _ hk).trans (getLsbD_secondWord b (by omega))
  refine ⟨fun k hk => (getLsbD_field _ _ hk).trans (getLsbD_firstWord b (by omega)),
    fun k hk => (getLsbD_field _ _ hk).trans (getLsbD_firstWord b (by omega)),
    fun k hk => (getLsbD_field _ _ hk).trans (getLsbD_secondWord b (by omega)),
    getLsbD_secondWord b hide, getLsbD_secondWord b hrtr, getLsbD_secondWord b hbrs, getLsbD_secondWord b hfdf,
    getLsbD_secondWord b hesi, tailBit, fun hle hin k hk => ?filterHit⟩
  case filterHit =>
    rw [filterHit, BitVec.getLsbD_extractLsb', decide_eq_true hk, Bool.true_and, tailBit _ (by omega)]
    rw [show s.cfg.schema.hdrSeqLsb + (s.cfg.schema.hdrFilhitLsb - s.cfg.schema.hdrSeqLsb + k) = s.cfg.schema.hdrFilhitLsb + k by omega]

/-! ### A frame through the codec -/

/-- R154: the extended part of an identifier is empty exactly below 0x800. -/
theorem splitId_ext_eid_eq_zero (x : BitVec 29) : (splitId (.ext x)).eid = 0 ↔ x.toNat < 0x800 := by
  rw [← BitVec.toNat_inj, splitId_ext_eid_toNat, BitVec.ofNat_eq_ofNat, BitVec.toNat_ofNat, Nat.zero_mod]
  omega

theorem length_meaningful {f : Frame} (h : f.wf = true) : (meaningful f).length = dlcBytes f.dlc := by
  have hlen : f.data.length = 64 := by simpa [Frame.wf, maxPayload] using h
  have hle := dlcBytes_le f.dlc
  rw [meaningful, List.length_take]
  omega

/-- R158, the codec without the serialisation: DECODE of ENCODE keeps DLC and bytes, and joins the split identifier. -/
theorem decodeFrame_encodeFrame {f : Frame} (h : f.wf = true) :
    decodeFrame (encodeFrame f).1 (encodeFrame f).2 =
      some { id := joinId (splitId f.id).sid (splitId f.id).eid, dlc := f.dlc,
             data := meaningful f ++ zeros (64 - dlcBytes f.dlc), seq := none } := by
  have hlen : dlcBytes (encodeFrame f).1.dlc ≤ (encodeFrame f).2.length := (length_meaningful h).ge
  have htake : (encodeFrame f).2.take (dlcBytes (encodeFrame f).1.dlc) = meaningful f :=
    List.take_of_length_le (length_meaningful h).le
  rw [decodeFrame_some hlen, joinId_eq, htake]
  rfl

/-- Settles O39: the header survives its serialisation, the payload is whole, and an extended part is zero exactly below
0x800, where DECODE takes the identifier for a standard one (C1). -/
theorem frameRoundTrip : Obligations.FrameRoundTrip := by
  intro c f hwf hf
  rw [bytesToHeader_headerToBytes (admits_of_wf hwf), decodeFrame_encodeFrame hf]
  refine ⟨_, rfl, rfl, List.take_left' (length_meaningful hf), ?_⟩
  cases f.id with
  | std v => exact (joinId_eq v 0).trans (if_pos rfl)
  | ext x =>
    refine ⟨fun hx => ?high, fun hx => ?low⟩ <;> rw [joinId_eq]
    case high => rw [if_neg (by rw [splitId_ext_eid_eq_zero]; omega), splitId, splitBits_join]
    case low =>
      rw [if_pos ((splitId_ext_eid_eq_zero x).2 hx)]
      rfl

end Sys2Proof.Machine
end

section
/-! PROOFS. The queue decoder and the scan (R180 to R185), and the configuration operations built on it (R221 to R226). -/

namespace Sys2Proof.Machine

/-! ### FIFO_ADDR, FILTER_ADDR, SCAN -/

theorem fifoRegsOp_ok {i : Nat} (h1 : 1 ≤ i) (h2 : i ≤ 31) (s : State) :
    fifoRegsOp i s = (.ok { con := conOf i, sta := staOf i, ua := uaOf i }, s) := orEnd_of_some (fifoRegs_eq h1 h2) _ s

theorem fifoRegsOp_refused {i : Nat} (h : i < 1 ∨ 31 < i) (s : State) :
    fifoRegsOp i s = (.error (.contractViolation .fifoIndex), s) := orEnd_of_none (fifoRegs_none h) _ s

theorem filterRegsOp_ok {n : Nat} (h : n ≤ 31) (s : State) : filterRegsOp n s =
    (.ok { obj := BitVec.ofNat 12 (0x1F0 + 8 * n), mask := BitVec.ofNat 12 (0x1F4 + 8 * n)
           fltcon := BitVec.ofNat 12 (s.cfg.schema.addrFltconBase.toNat + 4 * (n / s.cfg.schema.fltconSlotsPerReg))
           shift := s.cfg.schema.fltconSlotBits * (n % s.cfg.schema.fltconSlotsPerReg) }, s) :=
  orEnd_of_some (filterRegs_eq h) _ s

theorem filterRegsOp_refused {n : Nat} (h : 31 < n) (s : State) :
    filterRegsOp n s = (.error (.contractViolation .filterIndex), s) := orEnd_of_none (filterRegs_none h) _ s

/-- Settles O41. -/
theorem fifoAddrResult : Obligations.FifoAddrResult := fun _ _ hs =>
  ⟨fun h1 h2 => ⟨_, _, _, exec_ok hs rfl nofun (Op.map_ok (fifoRegsOp_ok h1 h2 _)), toNat_conOf h2, toNat_staOf h2, toNat_uaOf h2⟩,
    fun h => exec_error hs rfl nofun (Op.map_error (fifoRegsOp_refused h _))⟩

theorem toNat_filterObj {n : Nat} (h : n ≤ 31) : (BitVec.ofNat 12 (0x1F0 + 8 * n) : Addr).toNat = 0x1F0 + 8 * n := by
  rw [BitVec.toNat_ofNat]; omega

theorem toNat_filterMask {n : Nat} (h : n ≤ 31) : (BitVec.ofNat 12 (0x1F4 + 8 * n) : Addr).toNat = 0x1F4 + 8 * n := by
  rw [BitVec.toNat_ofNat]; omega

/-- Settles O42: with 32 filters in at most 8 control registers, the control address does not wrap (`Admits.toNat_fltcon`). -/
theorem filterAddrResult : Obligations.FilterAddrResult := fun _ _ hs hwf =>
  ⟨fun h => ⟨_, _, _, _, exec_ok hs rfl nofun (Op.map_ok (filterRegsOp_ok h _)), toNat_filterObj h, toNat_filterMask h,
      (admits_of_wf hwf).toNat_fltcon h, rfl⟩,
    fun h => exec_error hs rfl nofun (Op.map_error (filterRegsOp_refused h _))⟩

theorem exec_scan (w : Word) {s : State} (hs : s.supported) : exec (.scan w) s = .next (finish (.ok (.scan (scan w))) s) :=
  exec_ok hs rfl nofun rfl

/-- Settles O44: the scan finds the first set bit in its order, and the order is 1 to 31. -/
theorem scanResult : Obligations.ScanResult := by
  intro s w hs
  rw [exec_scan w hs]
  exact ⟨fun i h => by rw [scan_first h], fun h => by rw [scan_none h]⟩

/-! ### CONFIGURE_FIFO -/

theorem put_ofNat (lsb : Nat) {w : Nat} (hw : w ≤ 32) (n : Nat) : put lsb (BitVec.ofNat w n) = BitVec.ofNat 32 (n % 2 ^ w) <<< lsb := by
  have hlt : n % 2 ^ w < 2 ^ 32 := (Nat.mod_lt n (Nat.two_pow_pos w)).trans_le (Nat.pow_le_pow_right (by decide) hw)
  rw [put]
  congr 1
  apply BitVec.eq_of_toNat_eq
  rw [BitVec.toNat_setWidth, BitVec.toNat_ofNat, BitVec.toNat_ofNat]

theorem put_ofNat_of_lt (lsb : Nat) {w n : Nat} (hw : w ≤ 32) (hn : n < 2 ^ w) :
    put lsb (BitVec.ofNat w n) = BitVec.ofNat 32 n <<< lsb := by
  rw [put_ofNat lsb hw, Nat.mod_eq_of_lt hn]

theorem put_setWidth_of_lt (lsb : Nat) {w : Nat} (hw : w ≤ 32) (b : Byte) (hb : b.toNat < 2 ^ w) :
    put lsb (b.setWidth w) = BitVec.ofNat 32 b.toNat <<< lsb := by
  rw [← BitVec.ofNat_toNat, put_ofNat_of_lt lsb hw hb]

theorem putBit_eq (lsb : Nat) (b : Bool) : putBit lsb b = (if b then 1#32 else 0#32) <<< lsb := by
  cases b <;> rfl

theorem putBit_true (lsb : Nat) : putBit lsb true = 1#32 <<< lsb := rfl

/-- R222: a size class is its place in the list. -/
theorem plcode_eq {code size : Nat} (h : payloadSizes[code]? = some size) : code < 8 ∧ plcode size = BitVec.ofNat 3 code := by
  obtain ⟨hlt, rfl⟩ := List.getElem?_eq_some_iff.1 h
  exact ⟨hlt, by rw [plcode, List.Nodup.idxOf_getElem (by decide) code hlt]⟩

theorem put_plcode (lsb : Nat) {code size : Nat} (h : payloadSizes[code]? = some size) :
    put lsb (plcode size) = BitVec.ofNat 32 code <<< lsb := by
  obtain ⟨hlt, e⟩ := plcode_eq h
  rw [e, put_ofNat_of_lt lsb (by decide) hlt]

theorem txat_eq (c : Schema) (r : Retransmit) :
    txat c r = BitVec.ofNat 2 (if r = .disabled then c.txatDisabled else if r = .three then c.txatThree else c.txatUnlimited) := by
  cases r <;> rfl

theorem specInRange_tx {depth size priority : Byte} {r : Retransmit} : specInRange (.tx depth size priority r) = true ↔
    1 ≤ depth.toNat ∧ depth.toNat ≤ 32 ∧ size.toNat ∈ payloadSizes ∧ priority.toNat ≤ 31 := by
  simp only [specInRange, Bool.and_eq_true, decide_eq_true_eq, List.contains_iff_mem, and_assoc]
  rfl

theorem specInRange_rx {depth size : Byte} {ts : Bool} : specInRange (.rx depth size ts) = true ↔
    1 ≤ depth.toNat ∧ depth.toNat ≤ 32 ∧ size.toNat ∈ payloadSizes := by
  simp only [specInRange, Bool.and_eq_true, decide_eq_true_eq, List.contains_iff_mem, and_true, and_assoc]
  rfl

theorem exec_configureFifo {s : State} {i : Byte} {spec : FifoSpec} (hs : s.supported) (h : s.unfailing) (h1 : 1 ≤ i.toNat)
    (h2 : i.toNat ≤ 31) (hspec : specInRange spec = true) : exec (.configureFifo i spec) s =
      .next (finish (.ok .unit) (writeDone (conOf i.toNat) (bytes32 (fifoControlWord s.cfg.schema spec)) s)) := by
  refine exec_ok hs rfl nofun ?_
  rw [bodyOf, configureFifoOp, Op.bind_ok (fifoRegsOp_ok h1 h2 _), hspec, Op.bind_ok (require_true _ _), withConfig_run]
  exact Op.map_ok (writeRegister_ok h (aligned_conOf h2) _)

/-- Settles O56: the control word field by field, each value below the width of its field. -/
theorem configureFifoWritesControl : Obligations.ConfigureFifoWritesControl := by
  refine fun s i hs h h1 h2 => ⟨fun depth size priority r code hd1 hd2 hsize hp => ?tx, fun depth size ts code hd1 hd2 hsize => ?rx⟩
  case tx =>
    have hmem : size.toNat ∈ payloadSizes := List.mem_of_getElem? hsize
    have hd : depth.toNat - 1 < 2 ^ 5 := by omega
    have hp' : priority.toNat < 2 ^ 5 := by omega
    rw [exec_configureFifo hs h h1 h2 (specInRange_tx.2 ⟨hd1, hd2, hmem, hp⟩), fifoControlWord]
    simp only [specDepth, specPayloadSize, put_plcode _ hsize, put_ofNat_of_lt _ (show 5 ≤ 32 by decide) hd, putBit_true,
      put_setWidth_of_lt _ (show 5 ≤ 32 by decide) priority hp', txat_eq, put_ofNat _ (show 2 ≤ 32 by decide), Nat.reducePow]
  case rx =>
    have hmem : size.toNat ∈ payloadSizes := List.mem_of_getElem? hsize
    have hd : depth.toNat - 1 < 2 ^ 5 := by omega
    rw [exec_configureFifo hs h h1 h2 (specInRange_rx.2 ⟨hd1, hd2, hmem⟩), fifoControlWord]
    simp only [specDepth, specPayloadSize, put_plcode _ hsize, put_ofNat_of_lt _ (show 5 ≤ 32 by decide) hd, putBit_true,
      putBit_eq _ ts]

/-- Settles O57: the index is checked before the fields. -/
theorem configureFifoViolations : Obligations.ConfigureFifoViolations := by
  refine fun s i spec hs => ⟨fun hi => ?index, fun h1 h2 hbad => ?field⟩
  case index => exact exec_error hs rfl nofun (Op.bind_error (fifoRegsOp_refused hi _))
  case field =>
    have hspec : specInRange spec = false := by
      rw [← Bool.not_eq_true]
      cases spec with
      | tx depth size priority r =>
        rw [specInRange_tx]
        rintro ⟨hd1, hd2, hmem, hp⟩
        obtain hd | hd | hz | hp' := hbad
        · omega
        · omega
        · exact hz hmem
        · omega
      | rx depth size ts =>
        rw [specInRange_rx]
        rintro ⟨hd1, hd2, hmem⟩
        obtain hd | hd | hz := hbad
        · omega
        · omega
        · exact hz hmem
    refine exec_error hs rfl nofun ?_
    rw [bodyOf, configureFifoOp, Op.bind_ok (fifoRegsOp_ok h1 h2 _), hspec, Op.bind_error (require_false _ _)]

/-! ### CONFIGURE_FILTER -/

theorem objectWord_eq (c : Schema) (id : Id) (kind : Bool) : objectWord c id kind =
    ((splitId id).sid.setWidth 32 <<< c.objSidLsb) ||| ((splitId id).eid.setWidth 32 <<< c.objEidLsb)
      ||| ((if kind then 1#32 else 0#32) <<< c.fltExideBit) := by
  rw [objectWord, putBit_eq]
  rfl

theorem filterSlot_eq (c : Schema) {fifo : Byte} (h : fifo.toNat ≤ 31) :
    filterSlot c fifo = (1#32 <<< c.fltconEnBit) ||| (BitVec.ofNat 32 fifo.toNat <<< c.fltconBpLsb) := by
  rw [filterSlot, putBit_true, put_setWidth_of_lt _ (by decide) fifo (Nat.lt_succ_of_le h)]

/-- Settles O58: three accesses in order, to registers an admissible configuration aligns and lets be modified. -/
theorem configureFilterWritesPatternsThenSlot : Obligations.ConfigureFilterWritesPatternsThenSlot := by
  intro s n f m hs hwf h hn h1 h2 sc word s1 s2 shift fltcon slot
  have hc := admits_of_wf hwf
  refine exec_ok hs rfl nofun ?_
  rw [bodyOf, configureFilterOp, Op.bind_ok (filterRegsOp_ok hn _), Op.bind_ok (fifoRegsOp_ok h1 h2 _), withConfig_run,
    Op.bind_ok (writeRegister_ok h (aligned_obj _) _), Op.bind_ok (writeRegister_ok (h.writeDone _ _) (aligned_mask _) _)]
  have hu := (h.writeDone (BitVec.ofNat 12 (0x1F0 + 8 * n.toNat)) (bytes32 (filterObjectWord (blank s).cfg.schema f))).writeDone
    (BitVec.ofNat 12 (0x1F4 + 8 * n.toNat)) (bytes32 (filterMaskWord (blank s).cfg.schema m))
  refine Op.map_ok (a := ()) ((modifyRegister_ok hu (hc.aligned_fltcon hn) (hc.modifiable_fltcon hn) _ _).trans ?_)
  simp only [filterObjectWord, filterMaskWord, objectWord_eq, blank_cfg, filterSlot_eq _ h2]
  rfl

/-- Settles O59: the filter index is checked before the target FIFO. -/
theorem configureFilterViolations : Obligations.ConfigureFilterViolations := by
  refine fun s n f m hs => ⟨fun hn => ?filter, fun hn hf => ?fifo⟩
  case filter => exact exec_error hs rfl nofun (Op.bind_error (filterRegsOp_refused hn _))
  case fifo =>
    refine exec_error hs rfl nofun ?_
    rw [bodyOf, configureFilterOp, Op.bind_ok (filterRegsOp_ok hn _), Op.bind_error (fifoRegsOp_refused hf _)]

end Sys2Proof.Machine
end

section
/-! PROOFS. TRANSMIT with no failure ahead (R200, R201). -/

namespace Sys2Proof.Machine

theorem messageObject_eq (c : Schema) (f : Frame) : messageObject c f =
    headerToBytes c (encodeFrame f).1 ++ meaningful f ++ zeros (pad4 (meaningful f).length - (meaningful f).length) := rfl

/-- R94, R201: the object is the header and the payload rounded up to a multiple of 4. -/
theorem length_messageObject (c : Schema) (f : Frame) : (messageObject c f).length = 8 + pad4 (meaningful f).length := by
  have hpad := le_pad4 (meaningful f).length
  have hhdr : (headerToBytes c (encodeFrame f).1).length = 8 := rfl
  rw [messageObject_eq, List.length_append, List.length_append, hhdr, zeros, List.length_replicate]
  omega

theorem length_messageObject_mod (c : Schema) (f : Frame) : (messageObject c f).length % 4 = 0 := by
  have hpad := pad4_mod (meaningful f).length
  rw [length_messageObject]
  omega

section
variable {s : State} {i : Byte} {f : Frame}

/-- R200: the first READ decides between a full FIFO and one that takes the frame. -/
theorem transmitOp_status (h : s.unfailing) {i : Nat} (h1 : 1 ≤ i) (h2 : i ≤ 31) : transmitOp i f (blank s) =
    (if bitSet (registerAnswer (staOf i) s) s.cfg.schema.staNotFullBit then
      sendFrame { con := conOf i, sta := staOf i, ua := uaOf i } f else endWith .fifoFull) (blank (readDone (staOf i) 4 s)) := by
  rw [transmitOp, Op.bind_ok (fifoRegsOp_ok h1 h2 _), withConfig_run, Op.bind_ok (readRegister_ok h (aligned_staOf h2))]
  rfl

/-- R200: the second READ gives the address of the object. -/
theorem sendFrame_located (h : s.unfailing) {i : Nat} (h2 : i ≤ 31) :
    sendFrame { con := conOf i, sta := staOf i, ua := uaOf i } f (blank s) =
      ((writeRam (registerAnswer (uaOf i) s).toNat (messageObject s.cfg.schema f)).bind fun _ =>
        unitValue (modifyRegister (conOf i) (sendMask s.cfg.schema) (sendMask s.cfg.schema))) (blank (readDone (uaOf i) 4 s)) := by
  rw [sendFrame, withConfig_run, Op.bind_ok (readRegister_ok h (aligned_uaOf h2))]
  rfl

/-- R200 as far as the write of the object: the FIFO is not full. -/
theorem transmitOp_located (h : s.unfailing) {i : Nat} (h1 : 1 ≤ i) (h2 : i ≤ 31)
    (hnotFull : bitSet (registerAnswer (staOf i) s) s.cfg.schema.staNotFullBit = true) : transmitOp i f (blank s) =
      ((writeRam (registerAnswer (uaOf i) (readDone (staOf i) 4 s)).toNat (messageObject s.cfg.schema f)).bind fun _ =>
        unitValue (modifyRegister (conOf i) (sendMask s.cfg.schema) (sendMask s.cfg.schema)))
          (blank (readDone (uaOf i) 4 (readDone (staOf i) 4 s))) := by
  rw [transmitOp_status h h1 h2, if_pos hnotFull, sendFrame_located (h.readDone _ _) h2]
  rfl

end

/-- Settles O45: status, user address, object, then the two bits of a register that may be modified. -/
theorem transmitSendsTheFrame : Obligations.TransmitSendsTheFrame := by
  intro s i f hs hwf h hf h1 h2 sc s1 off s2 n object bits hnotFull hoff hroom
  have hobject : messageObject sc f = object := by rw [messageObject_eq, length_meaningful hf]; rfl
  have hlen : object.length = 8 + pad4 n := by rw [← hobject, length_messageObject, length_meaningful hf]
  refine ⟨hlen, exec_ok hs rfl nofun ?_⟩
  have hu : s2.unfailing := (h.readDone _ _).readDone _ _
  have hmod4 : object.length % 4 = 0 := hobject ▸ length_messageObject_mod sc f
  have hne : object ≠ [] := List.ne_nil_of_length_pos (by omega)
  rw [bodyOf, transmitOp_located h h1 h2 hnotFull, hobject,
    Op.bind_ok (writeRam_ok (s := s2) hu hmod4 hoff (by omega) hne)]
  exact Op.map_ok (modifyRegister_ok (hu.writeDone _ _) (aligned_conOf h2) ((admits_of_wf hwf).modifiable_con h1 h2) _ _)

/-- Settles O46. -/
theorem transmitOnFullFifo : Obligations.TransmitOnFullFifo := by
  intro s i f hs h h1 h2 hfull
  refine exec_error hs rfl nofun ?_
  rw [bodyOf, transmitOp_status h h1 h2, hfull]
  rfl

/-- Settles O47: the index is checked first; the object's length being right, the address alone can be refused. -/
theorem transmitViolations : Obligations.TransmitViolations := by
  refine fun s i f hs => ⟨fun hi => exec_error hs rfl nofun (Op.bind_error (fifoRegsOp_refused hi _)), fun h1 h2 h hf hnotFull => ?_⟩
  intro s1 off
  have hmod4 := length_messageObject_mod s.cfg.schema f
  have hlen : (messageObject s.cfg.schema f).length = 8 + pad4 (dlcBytes f.dlc) := by
    rw [length_messageObject, length_meaningful hf]
  refine ⟨fun hoff => exec_error hs rfl nofun ?align, fun hoff hroom => exec_error hs rfl nofun ?range⟩ <;>
    rw [bodyOf, transmitOp_located h h1 h2 hnotFull]
  case align => exact Op.bind_error (writeRam_refused (ramCheck_align hmod4 hoff _))
  case range => exact Op.bind_error (writeRam_refused (ramCheck_range hmod4 hoff (by rw [hlen]; omega) _))

end Sys2Proof.Machine
end

section
/-! PROOFS. One pass of RECEIVE and RECEIVE_WAIT with no failure ahead, point by point (R202 to R205). -/

namespace Sys2Proof.Machine

section
variable {s : State} {i : Nat}

/-! ### The states a pass goes through -/

theorem polled_unfailing (h : s.unfailing) : (polled s).unfailing := h.readDone _ _

theorem mapped_unfailing (h : s.unfailing) : (mapped s).unfailing := (polled_unfailing h).readDone _ _

theorem located_unfailing (h : s.unfailing) (i : Nat) : (located i s).unfailing := (mapped_unfailing h).readDone _ _

theorem headed_unfailing (h : s.unfailing) (i : Nat) : (headed i s).unfailing := (located_unfailing h i).readDone _ _

theorem emptied_unfailing (h : s.unfailing) (i : Nat) : (emptied i s).unfailing := by
  unfold emptied
  split
  · exact headed_unfailing h i
  · exact (headed_unfailing h i).readDone _ _

theorem emptied_cfg (i : Nat) (s : State) : (emptied i s).cfg = s.cfg := by
  unfold emptied
  split <;> rfl

/-! ### The pass, point by point -/

/-- R202: the interrupt status decides what the pass does. -/
theorem receiveOp_polled (h : s.unfailing) (hc : Admits s.cfg) : receiveOp (blank s) =
    (match arbitrate s.cfg.schema (polledStatus s) with
      | .busError => reportBusError
      | .rxPending => scanAndReceive
      | .idle => endWith .nothingPending) (blank (polled s)) := by
  rw [receiveOp, withConfig_run, blank_cfg, Op.bind_ok (readRegister_ok h (aligned_of_addrFits hc.intAddr))]
  rfl

/-- R202, R203: the bitmap decides which FIFO is served. -/
theorem scanAndReceive_mapped (h : s.unfailing) (hc : Admits s.cfg) : scanAndReceive (blank (polled s)) =
    (match scan (polledBitmap s) with
      | some i => receiveFrom i
      | none => endWith .nothingPending) (blank (mapped s)) := by
  rw [scanAndReceive, withConfig_run]
  exact Op.bind_ok (readRegister_ok (polled_unfailing h) (aligned_of_addrFits hc.rxif))

/-- The pass up to the FIFO it serves. -/
theorem receiveOp_finds (h : s.unfailing) (hc : Admits s.cfg) (hi : Finds i s) :
    receiveOp (blank s) = receiveFrom i (blank (mapped s)) := by
  obtain ⟨hbus, hrx, hfirst⟩ := hi
  rw [receiveOp_polled h hc, arbitrate_of_rx hbus hrx]
  exact (scanAndReceive_mapped h hc).trans (by rw [scan_first hfirst])

/-- R202: the message is located; its header is read next. -/
theorem receiveFrom_located (h : s.unfailing) (h1 : 1 ≤ i) (h2 : i ≤ 31) : receiveFrom i (blank (mapped s)) =
    ((readRam (messageOffset i s) hdrBytes).bind fun hb =>
      (readPayload s.cfg (messageOffset i s) (bytesToHeader s.cfg.schema hb)).bind fun f =>
        (modifyRegister (conOf i) (incrementMask s.cfg.schema) (incrementMask s.cfg.schema)).map fun _ => .frame f)
      (blank (located i s)) := by
  rw [receiveFrom, Op.bind_ok (fifoRegsOp_ok h1 h2 _), withConfig_run,
    Op.bind_ok (readRegister_ok (mapped_unfailing h) (aligned_uaOf h2))]
  rfl

/-- R202: the header is read; the payload is read next. -/
theorem receiveFrom_headed (h : s.unfailing) (h1 : 1 ≤ i) (h2 : i ≤ 31) (halign : messageOffset i s % 4 = 0)
    (hroom : messageOffset i s + 8 ≤ 2048) : receiveFrom i (blank (mapped s)) =
    ((readPayload s.cfg (messageOffset i s) (messageHeader i s)).bind fun f =>
        (modifyRegister (conOf i) (incrementMask s.cfg.schema) (incrementMask s.cfg.schema)).map fun _ => .frame f)
      (blank (headed i s)) := by
  rw [receiveFrom_located h h1 h2, Op.bind_ok (readRam_ok (n := hdrBytes) (located_unfailing h i) rfl halign hroom (by decide))]
  rfl

/-- The payload of a count rounded up to a multiple of 4, an empty one among them (log entry 23). -/
theorem readRam_payload (h : s.unfailing) (halign : payloadOffset i s % 4 = 0)
    (hroom : payloadOffset i s + pad4 (payloadCount i s) ≤ 2048) :
    ∃ bytes, readRam (payloadOffset i s) (pad4 (payloadCount i s)) (blank (headed i s)) = (.ok bytes, blank (emptied i s)) ∧
      bytes.take (payloadCount i s) = messagePayload i s ∧ (messagePayload i s).length = payloadCount i s := by
  unfold messagePayload emptied
  by_cases h0 : payloadCount i s = 0
  · rw [if_pos h0, if_pos h0, h0]
    exact ⟨[], readRam_empty halign (by omega) _, rfl, rfl⟩
  · have hpad := le_pad4 (payloadCount i s)
    rw [if_neg h0, if_neg h0]
    refine ⟨_, readRam_ok (headed_unfailing h i) (pad4_mod _) halign hroom (by omega), rfl, ?_⟩
    rw [List.length_take, length_captured]
    omega

/-- The frame R155 builds of the message in FIFO `i`. -/
def receivedFrame (i : Nat) (s : State) : Frame where
  id := if (messageHeader i s).eid = 0 then .std (messageHeader i s).sid else .ext ((messageHeader i s).eid ++ (messageHeader i s).sid)
  dlc := (messageHeader i s).dlc
  data := messagePayload i s ++ List.replicate (64 - payloadCount i s) 0
  seq := none

theorem readPayload_ok (h : s.unfailing) (halign : payloadOffset i s % 4 = 0)
    (hroom : payloadOffset i s + pad4 (payloadCount i s) ≤ 2048) :
    readPayload s.cfg (messageOffset i s) (messageHeader i s) (blank (headed i s)) = (.ok (receivedFrame i s), blank (emptied i s)) := by
  obtain ⟨bytes, hread, htake, hlen⟩ := readRam_payload h halign hroom
  have hdec : decodeFrame (messageHeader i s) (messagePayload i s) = some (receivedFrame i s) := by
    have htake : (messagePayload i s).take (dlcBytes (messageHeader i s).dlc) = messagePayload i s := List.take_of_length_le hlen.le
    rw [decodeFrame_some hlen.ge, htake]
    rfl
  have hstep := Op.bind_ok (k := fun pb => decodeOp (messageHeader i s) (pb.take (payloadCount i s))) hread
  rw [htake, decodeOp, hdec, orEnd_some] at hstep
  exact hstep

theorem readPayload_refused {k : Contract}
    (h : ∀ u, ramCheck (payloadOffset i s) (pad4 (payloadCount i s)) u = (.error (.contractViolation k), u)) (u : State) :
    readPayload s.cfg (messageOffset i s) (messageHeader i s) u = (.error (.contractViolation k), u) :=
  Op.bind_error (readRam_refused (h u))

end

/-! ### How a pass ends -/

theorem exec_receive {s t : State} {x : Except Result Value} (hs : s.supported) (h : receiveOp (blank s) = (x, blank t)) :
    exec .receive s = .next (conclude (x, t)) := by
  rw [exec_eq (i := .receive) hs rfl nofun]
  exact congrArg Host.Outcome.next ((congrArg conclude h).trans (conclude_blank x t))

/-- RECEIVE, and RECEIVE_WAIT when it finds something, end as the pass does. -/
theorem exec_pass {op : Instr} {s t : State} {x : Except Result Value} (hop : op = .receive ∨ op = .receiveWait) (hs : s.supported)
    (hx : x ≠ .error .nothingPending) (h : receiveOp (blank s) = (x, blank t)) : exec op s = .next (conclude (x, t)) := by
  obtain rfl | rfl := hop
  · exact exec_receive hs h
  · exact exec_receiveWait hs hx h

/-- Settles O48: header and payload are read, then the increment bit of the served FIFO is set. -/
theorem receiveDeliversTheFrame : Obligations.ReceiveDeliversTheFrame := by
  intro s i hs hwf h hi hha hhr hpa hpr hdr n bit frame op hop
  have hc := admits_of_wf hwf
  obtain ⟨h1, h2, -, -⟩ := hi.2.2
  have hmod : (emptied i s).cfg.cap.modifiable.contains (conOf i) = true := by
    rw [emptied_cfg]
    exact hc.modifiable_con h1 h2
  refine exec_pass (x := .ok (.frame frame)) hop hs (by simp) ?_
  rw [receiveOp_finds h hc hi, receiveFrom_headed h h1 h2 hha hhr, Op.bind_ok (readPayload_ok h hpa hpr)]
  exact Op.map_ok (modifyRegister_ok (emptied_unfailing h i) (aligned_conOf h2) hmod _ _)

/-- Settles O49: neither flag, or no FIFO in the bitmap. -/
theorem receiveFindsNothing : Obligations.ReceiveFindsNothing := by
  intro s hs hwf h hbus
  have hc := admits_of_wf hwf
  refine ⟨fun hrx => exec_receive (x := .error .nothingPending) hs ?flags,
    fun hrx hmap => exec_receive (x := .error .nothingPending) hs ?bitmap⟩ <;>
    rw [receiveOp_polled h hc]
  case flags => rw [arbitrate_of_clear hbus hrx]; rfl
  case bitmap =>
    rw [arbitrate_of_rx hbus hrx]
    exact (scanAndReceive_mapped h hc).trans (by rw [scan_none hmap]; rfl)

/-- Settles O50: the bus error is looked at first, cleared by a masked write of 0, and then reported. -/
theorem receiveReportsBusError : Obligations.ReceiveReportsBusError := by
  intro s hs hwf h hbus op hop
  have hc := admits_of_wf hwf
  refine exec_pass (x := .error .controllerBusError) hop hs (by simp) ?_
  rw [receiveOp_polled h hc, arbitrate_of_busErr hbus]
  exact Op.bind_ok (modifyRegister_ok (polled_unfailing h) (aligned_of_addrFits hc.intAddr) hc.modifiable_int _ _)

/-- Settles O51: each read of the message is checked before it is sent, and nothing after it runs. -/
theorem receiveViolations : Obligations.ReceiveViolations := by
  intro s i hs hwf h hi
  have hc := admits_of_wf hwf
  obtain ⟨h1, h2, -, -⟩ := hi.2.2
  refine ⟨fun ha => exec_receive (x := .error _) hs ?headerAlign, fun ha hr => exec_receive (x := .error _) hs ?headerRange,
    fun ha hr hpa => exec_receive (x := .error _) hs ?payloadAlign,
    fun ha hr hpa hpr => exec_receive (x := .error _) hs ?payloadRange⟩ <;>
    rw [receiveOp_finds h hc hi]
  case headerAlign =>
    rw [receiveFrom_located h h1 h2]
    exact Op.bind_error (readRam_refused (ramCheck_align rfl ha _))
  case headerRange =>
    rw [receiveFrom_located h h1 h2]
    exact Op.bind_error (readRam_refused (ramCheck_range rfl ha hr _))
  case payloadAlign =>
    rw [receiveFrom_headed h h1 h2 ha hr]
    exact Op.bind_error (readPayload_refused (fun u => ramCheck_align (pad4_mod _) hpa u) _)
  case payloadRange =>
    rw [receiveFrom_headed h h1 h2 ha hr]
    exact Op.bind_error (readPayload_refused (fun u => ramCheck_range (pad4_mod _) hpa hpr u) _)

end Sys2Proof.Machine
end

section
/-! PROOFS. RECEIVE_WAIT: its first pass is RECEIVE's, and a resumed pass does what a first one does (R205, R206, R208). -/

namespace Sys2Proof.Machine

/-- The result an operation's pieces end with (R240). -/
def resultOf : Except Result Value → Result
  | .ok v => .ok v
  | .error r => r

theorem conclude_eq_finish (x : Except Result Value) (u : State) : conclude (x, u) = finish (resultOf x) u := by
  cases x <;> rfl

theorem resultOf_eq_nothingPending {x : Except Result Value} : resultOf x = .nothingPending ↔ x = .error .nothingPending := by
  cases x <;> simp [resultOf]

/-! ### States that differ in progress and result alone -/

theorem finish_congr {u u' : State} (hu : blank u = blank u') (r : Result) : finish r u = finish r u' := by
  rw [← finish_blank, hu, finish_blank]

theorem withRun_congr {u u' : State} (hu : blank u = blank u') (hres : u.result = u'.result) (w : Run) :
    ({ u with run := w } : State) = { u' with run := w } := by
  have h := congrArg (fun q : State => { q with run := w, result := u.result }) hu
  exact h.trans (by rw [hres]; rfl)

/-- Two runs of a blind piece from states that differ in progress and result alone. -/
theorem Op.Blind.same {α : Type} {m : Op α} (hm : m.Blind) {s s' u u' : State} {x x' : Except Result α}
    (h : m s = (x, u)) (h' : m s' = (x', u')) (hs : blank s = blank s') : x = x' ∧ blank u = blank u' :=
  Prod.mk.inj ((hm.on_blank h).symm.trans ((congrArg m hs).trans (hm.on_blank h')))

/-- The suspended block counts the transactions of the pass that found nothing. -/
theorem Ran.suspend_eq {n k : Nat} {W : Nat → Prop} {s u : State} {op : Instr} {sc : List Byte} (h : Ran n W s u none)
    (hs : s.run = .running op k sc) : suspend u = { u with run := .waiting (k + (u.link.length - s.link.length)) false } := by
  obtain ⟨sc', e⟩ := h.run rfl op k sc hs
  rw [suspend, e]

theorem onVariant_supported {α : Type} (m : Op α) {s : State} (hs : s.supported) : onVariant m s = m s := by
  rw [onVariant, withConfig_run, hs, Op.bind_ok (require_true _ _)]

/-! ### The first pass -/

/-- The first pass of RECEIVE_WAIT, run to its end. -/
theorem firstPass_ran {s u : State} {x : Except Result Value} (hi : Steady s)
    (h : onVariant receiveOp (begin .receiveWait s) = (x, u)) : Ran 7 anywhere (begin .receiveWait s) u (failOf x) := by
  have hran := onVariant_runs (receiveOp_runs (c := s.cfg)) (begin .receiveWait s) rfl hi.released hi.noOpenTxn
  rwa [h] at hran

/-- Settles O52: the two operations run the same blind pass, and differ in how they conclude it. -/
theorem receiveWaitRunsAPassFirst : Obligations.ReceiveWaitRunsAPassFirst := by
  intro s t r hi h hr
  rcases hy : onVariant receiveOp (begin .receive s) with ⟨x, u⟩
  rcases hy' : onVariant receiveOp (begin .receiveWait s) with ⟨x', u'⟩
  obtain ⟨rfl, hu⟩ := Op.Blind.receiveOp.onVariant.same hy hy' rfl
  have hpass : exec .receiveWait s = .next (concludePass (x, u')) := by rw [← hy']; rfl
  obtain rfl : finish (resultOf x) u = t := by
    rw [← conclude_eq_finish, ← hy]
    exact Host.Outcome.next.inj h
  obtain rfl : resultOf x = r := Option.some.inj hr
  rw [hpass]
  refine ⟨fun hne => ?ends, fun hnone => ?suspends⟩
  case ends =>
    obtain ⟨-, e⟩ | ⟨hx, -⟩ := concludePass_cases x u'
    · rw [e, conclude_eq_finish, finish_congr hu]
    · exact absurd (resultOf_eq_nothingPending.2 hx) hne
  case suspends =>
    obtain rfl := resultOf_eq_nothingPending.1 hnone
    have hran := firstPass_ran hi hy'
    have hlink : u'.link = u.link := (congrArg State.link hu).symm
    have hsame := withRun_congr (u := u') (u' := { u with result := none }) hu.symm hran.result
    rw [concludePass, hran.suspend_eq (begin_run _ _), hsame, hlink, Nat.zero_add]
    rfl

/-! ### The next pass -/

theorem step_waiting {s : State} {n : Nat} {fell : Bool} (hrun : s.run = .waiting n fell) (hev : s.events = []) :
    step s = .next (if wakes s.cfg.irqWait s.irq fell then resume n s else s) := by
  simp only [step, advance, hev, turn, hrun]

theorem wakes_eq (w : IrqWait) (irq : IrqLevel) (fell : Bool) :
    wakes w irq fell = match w with | .level => decide (irq = .low) | .edge => fell := by
  cases w <;> rfl

/-- A resumed pass ends like the first one would, its transactions counted on from those of the wait. -/
theorem resume_like_first {s : State} (hi : Steady s) (hs : s.supported) (hres : s.result = none) (n : Nat) :
    ∃ t, exec .receiveWait s = .next t ∧ { resume n s with run := t.run } = t ∧
      (t.run = .idle → (resume n s).run = .idle) ∧ ∀ k b, t.run = .waiting k b → (resume n s).run = .waiting (n + k) b := by
  rcases hy : onVariant receiveOp (begin .receiveWait s) with ⟨x, u⟩
  rcases hy' : onVariant receiveOp { s with run := .running .receiveWait n [] } with ⟨x', u'⟩
  obtain ⟨rfl, hu⟩ := Op.Blind.receiveOp.onVariant.same hy hy' rfl
  have hran := firstPass_ran hi hy
  have hran' : Ran 7 anywhere { s with run := .running .receiveWait n [] } u' (failOf x) := by
    have h := onVariant_runs (receiveOp_runs (c := s.cfg)) { s with run := .running .receiveWait n [] } rfl hi.released hi.noOpenTxn
    rwa [hy'] at h
  have hresume : resume n s = concludePass (x, u') := by
    rw [← hy', onVariant_supported receiveOp (s := { s with run := .running .receiveWait n [] }) hs]
    rfl
  refine ⟨concludePass (x, u), by rw [← hy]; rfl, ?_⟩
  rw [hresume]
  obtain ⟨hx, -⟩ | ⟨rfl, -⟩ := concludePass_cases x u
  · have hend (q : State) : concludePass (x, q) = finish (resultOf x) q := by
      obtain ⟨-, e⟩ | ⟨hx', -⟩ := concludePass_cases x q
      · rw [e, conclude_eq_finish]
      · exact absurd hx' hx
    rw [hend, hend, finish_congr hu]
    exact ⟨rfl, id, nofun⟩
  · rw [concludePass, concludePass, hran.suspend_eq (begin_run _ _), hran'.suspend_eq rfl]
    refine ⟨withRun_congr hu.symm (hran'.result.trans (hres.trans hran.result.symm)) _, nofun, fun k b h => ?_⟩
    have hlink : u.link = u'.link := (congrArg State.link hu :)
    simp only [Run.waiting.injEq, hlink, begin_link, Nat.zero_add] at h ⊢
    exact ⟨by rw [h.1], h.2⟩

/-- Settles O53: the line decides the turn, and a pass does the same whenever it runs (`resume_like_first`). -/
theorem waitEndsWhenTheLineAllows : Obligations.WaitEndsWhenTheLineAllows := by
  intro s n fell hi hs hrun hev allowed
  have hwakes : wakes s.cfg.irqWait s.irq fell = allowed := wakes_eq _ _ _
  rw [step_waiting hrun hev, hwakes]
  refine ⟨fun hno => by rw [hno]; rfl, fun hyes hres => ?_⟩
  rw [hyes]
  obtain ⟨t, ht, hsame, hidle, hwaiting⟩ := resume_like_first hi hs hres n
  exact ⟨t, _, ht, rfl, hsame, hidle, hwaiting⟩

end Sys2Proof.Machine
end

section
/-! PROOFS. What an operation stores in the chip, whatever the transport does (R54, R59, R126 to R129, R200, R202, R225). -/

namespace Sys2Proof.Machine

@[simp] theorem suspend_mem (s : State) : (suspend s).mem = s.mem := by
  obtain ⟨n, h⟩ := suspend_eq s
  rw [h]

/-- The chip memory after an operation is what its body left, or, with another variant, as it was. -/
theorem exec_mem {i : Instr} {s t : State} (hi : Steady s) (h : exec i s = .next t) :
    t.mem = s.mem ∨ t.mem = (bodyOf i (begin i s)).2.mem := by
  obtain ⟨x, u, hbody, -, hend⟩ := exec_next hi h
  have hmem : t.mem = u.mem := by
    obtain ⟨r, rfl, -⟩ | ⟨-, -, rfl⟩ := hend
    · rfl
    · exact suspend_mem u
  rw [hmem]
  cases hs : s.cfg.cap.supported with
  | true =>
    rw [onVariant_supported _ (s := begin i s) hs] at hbody
    exact .inr (by rw [hbody])
  | false =>
    rw [onVariant, withConfig_run, begin_cfg, hs, Op.bind_error (require_false _ _)] at hbody
    cases hbody
    exact .inl rfl

/-! ### The bytes the operands alone confine (`storesIn`) -/

theorem exec_stores {i : Instr} {s t : State} (hi : Steady s) (h : exec i s = .next t) {x : Nat} (hx : ¬ storesIn s.cfg i x) :
    Memory.read t.mem x = Memory.read s.mem x := by
  obtain ⟨y, u, -, hran, ⟨r, rfl, -⟩ | ⟨-, -, rfl⟩⟩ := exec_next hi h
  · exact hran.mem x hx
  · rw [suspend_mem]
    exact hran.mem x hx

theorem not_storesIn {i : Instr} (h : sendsNoWrite i = true) (c : Config) (x : Nat) : ¬ storesIn c i x := by
  cases i with
  | wWrite | writeReg | modifyReg | writeBytes | transmit | receive | receiveWait | configureFifo | configureFilter => cases h
  | _ => exact id

/-- Settles O29: the memory reads alike everywhere, and canonical memories that read alike are equal. -/
theorem readingStoresNothing : Obligations.ReadingStoresNothing := fun _ s _ hi hno h =>
  Memory.eq_of_read (lo := 0) (lo' := 0) (exec_steady hi h).memWf hi.memWf fun x => exec_stores hi h (not_storesIn hno s.cfg x)

/-- Settles O30: each of the five stores in the run `storesIn` names. -/
theorem singleWritesStoreInTheirRun : Obligations.SingleWritesStoreInTheirRun := fun _ _ _ hi =>
  ⟨fun _ _ h hx => exec_stores hi h (not_inRun.2 hx), fun _ _ _ h hx => exec_stores hi h (not_inRun.2 hx),
    fun _ _ h hx => exec_stores hi h (not_inRun.2 hx), fun _ _ h hx => exec_stores hi h (not_inRun.2 hx),
    fun _ _ h hx => exec_stores hi h (not_inRun.2 hx)⟩

/-! ### Stores at addresses read in the same call -/

section
variable {α β : Type} {n m : Nat} {W : Nat → Prop} {s : State}

/-- What a piece ran in from one state. -/
def Op.RanFrom (m : Op α) (n : Nat) (W : Nat → Prop) (s : State) : Prop := Ran n W s (m s).2 (failOf (m s).1)

theorem Op.Runs.ranFrom {m : Op α} (h : m.Runs s.cfg n W) (hcs : s.cs = .released) (hw : s.wire = none) : m.RanFrom n W s :=
  h s rfl hcs hw

/-- As `Op.Runs.bind`, the second piece from the value and the state the first one left. -/
theorem Op.RanFrom.bind {x : Op α} {k : α → Op β} (hx : x.RanFrom n W s) (hk : ∀ a t, x s = (.ok a, t) → (k a).RanFrom m W t) :
    (x.bind k).RanFrom (n + m) W s := by
  unfold Op.RanFrom at hx ⊢
  rcases h : x s with ⟨y, t⟩
  rw [h] at hx
  cases y with
  | ok a =>
    rw [Op.bind_ok h]
    exact hx.trans (hk a t h)
  | error r =>
    rw [Op.bind_error h]
    have hfail : failOf (.error r : Except Result β) = failOf (.error r : Except Result α) := by cases r <;> rfl
    rw [hfail]
    exact hx.mono (Nat.le_add_right n m) fun _ hy => hy

/-- What a READ_REG that ends well gave, and where it left the state. -/
theorem readRegister_value {a : Addr} {v : Word} {t : State} (hcs : s.cs = .released) (hw : s.wire = none)
    (h : readRegister a s = (.ok v, t)) : v = registerAnswer a s ∧ t = readNoted a 4 s := by
  cases ha : regAligned a with
  | false =>
    rw [readRegister_misaligned ha] at h
    cases h
  | true =>
    rw [readRegister, ha, Op.bind_ok (require_true _ _)] at h
    obtain e | ⟨f, u, -, e, -⟩ := busRead_cases a 4 hcs hw
    · rw [Op.map_ok e] at h
      cases h
      exact ⟨rfl, rfl⟩
    · rw [Op.map_error e] at h
      cases h

/-- A piece that goes on from the register value it has just read. -/
theorem readRegister_bind_ranFrom {a : Addr} {k : Word → Op β} (hcs : s.cs = .released) (hw : s.wire = none)
    (hk : (k (registerAnswer a s)).RanFrom m W (readNoted a 4 s)) : ((readRegister a).bind k).RanFrom (1 + m) W s := by
  refine .bind ((readRegister_runs a).ranFrom hcs hw) fun v t h => ?_
  obtain ⟨rfl, rfl⟩ := readRegister_value hcs hw h
  exact hk

end

/-- Accepting an operation changes nothing a READ gives, nor what one after it gives. -/
theorem registerAnswer_readDone_begin (a b : Addr) (n : Nat) (i : Instr) (s : State) :
    registerAnswer a (readDone b n (begin i s)) = registerAnswer a (readDone b n s) := by
  have h : blank (readDone b n (begin i s)) = blank (readDone b n s) := by
    rw [← readNoted_blank, ← readNoted_blank, blank_begin]
  rw [← registerAnswer_blank, h, registerAnswer_blank]

/-- What TRANSMIT may store to: the object's run at the user address read in the call, and the control register. -/
def transmitStores (i : Nat) (f : Frame) (s : State) (x : Nat) : Prop :=
  inRun (windowAddr (registerAnswer (uaOf i) (readDone (staOf i) 4 s)).toNat).toNat (messageObject s.cfg.schema f).length x ∨
    inRun (conOf i).toNat 4 x

theorem transmitOp_ranFrom {s : State} (hcs : s.cs = .released) (hw : s.wire = none) (i : Nat) (f : Frame) :
    (transmitOp i f).RanFrom 5 (transmitStores i f s) s := by
  by_cases hi : i < 1 ∨ 31 < i
  · have h := fifoRegsOp_refused hi s
    rw [Op.RanFrom, transmitOp, Op.bind_error h]
    exact (Ran.refl hcs hw).mono (Nat.zero_le _) fun _ hx => hx
  · have h := fifoRegsOp_ok (i := i) (by omega) (by omega) s
    rw [Op.RanFrom, transmitOp, Op.bind_ok h, withConfig_run]
    refine readRegister_bind_ranFrom (m := 4) hcs hw ?_
    split
    · rw [Op.RanFrom, sendFrame, withConfig_run]
      refine readRegister_bind_ranFrom (m := 3) rfl rfl ?_
      refine Op.Runs.ranFrom (.bind (n := 1) (m := 2)
        ((writeRam_runs _ _).mono (Nat.le_refl _) fun x hx => .inl hx) fun _ => ?_) rfl rfl
      exact ((modifyRegister_runs _ _ _).mono (Nat.le_refl _) fun x hx => .inr hx).unitValue
    · exact (Ran.refl rfl rfl).mono (Nat.zero_le _) fun _ hx => hx

/-- What a pass may store to: the interrupt status, and the control register of the FIFO its scan finds. -/
def receiveStores (s : State) (x : Nat) : Prop :=
  inRun s.cfg.schema.addrInt.toNat 4 x ∨ ∃ i, scan (polledBitmap s) = some i ∧ inRun (conOf i).toNat 4 x

theorem receiveOp_ranFrom {s : State} (hcs : s.cs = .released) (hw : s.wire = none) : receiveOp.RanFrom 7 (receiveStores s) s := by
  rw [Op.RanFrom, receiveOp, withConfig_run]
  refine readRegister_bind_ranFrom (m := 6) hcs hw ?_
  split
  · exact Op.Runs.ranFrom (reportBusError_runs.mono (by decide) fun x hx => .inl hx) rfl rfl
  · rw [Op.RanFrom, scanAndReceive, withConfig_run]
    refine readRegister_bind_ranFrom (m := 5) rfl rfl ?_
    split
    next i hscan => exact Op.Runs.ranFrom ((receiveFrom_runs i).mono (Nat.le_refl _) fun x hx => .inr ⟨i, hscan, hx⟩) rfl rfl
    next => exact (Ran.refl rfl rfl).mono (Nat.zero_le _) fun _ hx => hx
  · exact (Ran.refl rfl rfl).mono (Nat.zero_le _) fun _ hx => hx

/-- An operation whose body, from where it began, stores in `W` only. -/
theorem exec_stores_ranFrom {i : Instr} {s t : State} {n : Nat} {W : Nat → Prop} (hi : Steady s) (h : exec i s = .next t)
    (hran : (bodyOf i).RanFrom n W (begin i s)) {x : Nat} (hx : ¬ W x) : Memory.read t.mem x = Memory.read s.mem x := by
  obtain e | e := exec_mem hi h <;> rw [e]
  exact hran.mem x hx

/-- Settles O31: TRANSMIT and a pass follow the values they read (`transmitStores`, `receiveStores`); the registers of a
filter are its operands' (`storesIn`). -/
theorem compositesStoreInTheirRegisters : Obligations.CompositesStoreInTheirRegisters := by
  refine fun s t x hi hwf => ⟨fun i f h hobj hcon => ?transmit, fun op hop h hint hcon => ?receive,
    fun n f m h hpat hctl => ?filter⟩
  case transmit =>
    refine exec_stores_ranFrom hi h (transmitOp_ranFrom (s := begin (.transmit i f) s) hi.released hi.noOpenTxn i.toNat f) ?_
    rw [transmitStores, registerAnswer_readDone_begin]
    rintro (hx | hx)
    · exact not_inRun.2 hobj hx
    · exact not_inRun.2 hcon hx
  case receive =>
    have hout (op' : Instr) : ¬ receiveStores (begin op' s) x := by
      have hbitmap : polledBitmap (begin op' s) = polledBitmap s := registerAnswer_readDone_begin _ _ 4 op' s
      rw [receiveStores, hbitmap]
      rintro (hx | ⟨i, hscan, hx⟩)
      · exact not_inRun.2 hint hx
      · exact not_inRun.2 (hcon i hscan) hx
    obtain rfl | rfl := hop
    · exact exec_stores_ranFrom hi h (receiveOp_ranFrom hi.released hi.noOpenTxn) (hout _)
    · exact exec_stores_ranFrom hi h (receiveOp_ranFrom hi.released hi.noOpenTxn) (hout _)
  case filter =>
    refine exec_stores hi h ?_
    rintro ⟨r, hr, hx⟩
    have hn : n.toNat ≤ 31 := by
      by_contra hn
      rw [filterRegs_none (by omega)] at hr
      cases hr
    have hobj := toNat_filterObj hn
    have hmask := toNat_filterMask hn
    obtain rfl := Option.some.inj ((filterRegs_eq hn).symm.trans hr)
    obtain hx | hx | hx := hx
    · rw [hobj, inRun] at hx
      omega
    · rw [hmask, inRun] at hx
      omega
    · exact not_inRun.2 (hctl _ hr) hx

end Sys2Proof.Machine
end

section
/-! PROOFS. The first failing primitive ends any operation (R122, R241). -/

namespace Sys2Proof.Machine

/-! ### How an operation ends on what its body did -/

/-- How `exec` answers a next state: it ends, or suspends, on what the instruction's body did. -/
theorem exec_concludes {i : Instr} {s t : State} (h : exec i s = .next t) :
    ∃ fin : Except Result Value × State → State, (fin = conclude ∨ fin = concludePass) ∧
      ∀ s', exec i s' = .next (fin (onVariant (bodyOf i) (begin i s'))) := by
  obtain ⟨-, c, h'⟩ | ⟨rfl, -⟩ | ⟨hr, hw, -⟩ := exec_cases i s
  · rw [h'] at h; cases h
  · exact ⟨concludePass, .inr rfl, fun _ => rfl⟩
  · refine ⟨conclude, .inl rfl, fun s' => ?_⟩
    obtain ⟨hr', -⟩ | ⟨hw', -⟩ | ⟨-, -, h'⟩ := exec_cases i s'
    · rw [hr] at hr'; cases hr'
    · exact absurd hw' hw
    · exact h'

/-- Ending writes result and progress, suspending the progress alone. -/
theorem fin_cases {fin : Except Result Value × State → State} (h : fin = conclude ∨ fin = concludePass)
    (x : Except Result Value) (u : State) :
    fin (x, u) = finish (resultOf x) u ∨ (x = .error .nothingPending ∧ fin (x, u) = suspend u) := by
  obtain rfl | rfl := h
  · exact .inl (conclude_eq_finish x u)
  · obtain ⟨-, e⟩ | ⟨hx, e⟩ := concludePass_cases x u
    · exact .inl (e.trans (conclude_eq_finish x u))
    · exact .inr ⟨hx, e⟩

/-- What ending or suspending makes of a body's result depends on nothing of the transport's plan, and changes no record. -/
theorem fin_withPlan {fin : Except Result Value × State → State} (h : fin = conclude ∨ fin = concludePass)
    (x : Except Result Value) (u : State) (plan : List (Option Failure)) :
    fin (x, { u with transport := plan }) = { fin (x, u) with transport := plan } := by
  have hsuspend : suspend { u with transport := plan } = { suspend u with transport := plan } := by
    unfold suspend
    cases u.run <;> rfl
  have hconclude : conclude (x, { u with transport := plan }) = { conclude (x, u) with transport := plan } := by
    cases x <;> rfl
  obtain rfl | rfl := h
  · exact hconclude
  · obtain ⟨hx, e⟩ | ⟨rfl, -⟩ := concludePass_cases x u
    · obtain ⟨-, e'⟩ | ⟨hx', -⟩ := concludePass_cases x { u with transport := plan }
      · rw [e, e', hconclude]
      · exact absurd hx' hx
    · exact hsuspend

theorem fin_link {fin : Except Result Value × State → State} (h : fin = conclude ∨ fin = concludePass)
    (x : Except Result Value) (u : State) : (fin (x, u)).link = u.link := by
  obtain e | ⟨-, e⟩ := fin_cases h x u <;> rw [e]
  · rfl
  · exact suspend_link u

theorem fin_transport {fin : Except Result Value × State → State} (h : fin = conclude ∨ fin = concludePass) (e : Nat) (u : State) :
    fin (.error (.transport e), u) = finish (.transport e) u := by
  obtain rfl | rfl := h <;> rfl

theorem Steady.faultFree {s : State} (h : Steady s) : Steady (faultFree s) :=
  ⟨h.released, h.noOpenTxn, h.atRest, h.memWf⟩

/-- With no failure planned every transaction is whole. -/
theorem exec_faultFree_whole {i : Instr} {s t : State} (hi : Steady s) (h : exec i (faultFree s) = .next t) {planned : List Txn}
    (hl : t.link = s.link ++ planned) : ∀ x ∈ planned, x.whole = true := by
  obtain ⟨whole, part, hl', hwhole, -, -, -, hcut, htoken⟩ := exec_transactions hi.faultFree h
  have hpart : part = [] := by
    by_contra hne
    obtain ⟨e, he⟩ := hcut hne
    obtain ⟨f, hf, -⟩ := htoken e he
    exact List.not_mem_nil hf
  rw [hpart, List.append_nil, hl] at hl'
  exact List.append_cancel_left hl' ▸ hwhole

/-- Settles O60: every body follows its failure-free run up to the first failure (`Op.Follows`), and a transport error
ends the operation. -/
theorem firstFailureEndsTheOperation : Obligations.FirstFailureEndsTheOperation := by
  intro i s t hi h
  obtain ⟨fin, hfin, hexec⟩ := exec_concludes h
  obtain ⟨x, u, planned, hbody, hlink, -, -, -, hclean, hfails⟩ :=
    onVariant_follows (bodyOf_follows i) (begin i s) hi.released hi.noOpenTxn
  have ht : fin (x, u) = t := by
    rw [← hbody]
    exact Host.Outcome.next.inj ((hexec (faultFree s)).symm.trans h)
  have htlink : t.link = s.link ++ planned := by rw [← ht, fin_link hfin]; exact hlink
  refine ⟨planned, htlink, exec_faultFree_whole hi h htlink, fun hno => ?clean, fun j f hj hf => ?failed⟩
  case clean => rw [hexec s, hclean hno, fin_withPlan hfin, ht]; rfl
  case failed =>
    obtain ⟨u', hbody', hstop⟩ := hfails j f hj hf
    exact ⟨finish (.transport f.err) u', by rw [hexec s, hbody', fin_transport hfin], rfl, rfl, hstop⟩

/-! ### READ_REG -/

/-- R82: a READ of at least one byte uses four primitives. -/
theorem primitives_readTxn (a : Addr) {n : Nat} (hn : n ≠ 0) (s : State) : primitives [readTxn a n s] = 4 := by
  have hmiso : captured s a.toNat n ≠ [] := List.ne_nil_of_length_pos (by rw [length_captured]; omega)
  rw [primitives_cons, Txn.primitives, readTxn, if_neg hmiso, primitives_nil]

/-- Of a single transaction that failed nothing but a part stands on the record. -/
theorem StoppedAt.part_of_single {x : Txn} {j : Nat} {s t : State} (h : StoppedAt [x] j s t) :
    t.cs = .released ∧ ∃ part, t.link = s.link ++ part ∧ ∀ y ∈ part, y.whole = false := by
  obtain ⟨whole, rest, part, next, hplan, hlink, hcs, -, hle, -, hassert, hopen⟩ := h
  obtain ⟨rfl, -⟩ : whole = [] ∧ rest = [] := by
    have hlen := congrArg List.length hplan
    simp only [List.length_append, List.length_cons, List.length_nil] at hlen
    exact ⟨List.length_eq_zero_iff.1 (by omega), List.length_eq_zero_iff.1 (by omega)⟩
  refine ⟨hcs, part, by rw [hlink, List.append_nil], ?_⟩
  obtain hj | hj := Nat.eq_or_lt_of_le hle
  · rw [(hassert hj.symm).1]
    exact fun y hy => absurd hy List.not_mem_nil
  · obtain ⟨-, p, rfl, hp, -⟩ := hopen hj
    exact fun y hy => List.mem_singleton.1 hy ▸ hp

/-- Settles O17: the failure-free READ_REG is one READ of four primitives (O21), of which the first to fail ends the
operation (O60); it stores nothing (O29). -/
theorem firstFailureEndsReadReg : Obligations.FirstFailureEndsReadReg := by
  intro s a f k hi hs ha hk hbefore hat
  have hclean := (readRegResult (faultFree s) a hs).1 ha (fun o ho => absurd ho List.not_mem_nil)
  obtain ⟨planned, hlink, -, -, hfails⟩ := firstFailureEndsTheOperation (.readReg a) s _ hi hclean
  obtain rfl : [readTxn a 4 (faultFree s)] = planned := List.append_cancel_left hlink
  obtain ⟨t, hexec, hres, -, hstop⟩ := hfails k f (by rw [primitives_readTxn a (by decide)]; exact hk) ⟨hat, hbefore⟩
  obtain ⟨hcs, hpart⟩ := hstop.part_of_single
  exact ⟨t, hexec, hres, hcs, readingStoresNothing (.readReg a) s t hi rfl hexec, hpart⟩

end Sys2Proof.Machine
end

section
/-! PROOFS. Which results an operation can end with, and which of them it ends with before any traffic (R123, R240 to
R249, R252). -/

namespace Sys2Proof.Machine

/-! ### How a piece can end -/

/-- `m` runs released and ends so: with a value in `V`, or with a result in `A`, which, if it is a refusal on operands,
left the state as it was. -/
def Op.Ends {α : Type} (c : Config) (V : α → Prop) (A : Result → Prop) (m : Op α) : Prop :=
  ∀ s : State, s.cfg = c → s.cs = .released → s.wire = none →
    (∃ a t, m s = (.ok a, t) ∧ V a ∧ t.cfg = c ∧ t.cs = .released ∧ t.wire = none) ∨
      ∃ r t, m s = (.error r, t) ∧ A r ∧ (refusedOnOperands r = true → t = s)

/-- `m` only checks: it leaves the state as it was, and ends with a value in `V` or with a result in `A`. -/
def Op.Checks {α : Type} (c : Config) (V : α → Prop) (A : Result → Prop) (m : Op α) : Prop :=
  ∀ s : State, s.cfg = c → (∃ a, m s = (.ok a, s) ∧ V a) ∨ ∃ r, m s = (.error r, s) ∧ A r

section
variable {α β : Type} {c : Config} {U : α → Prop} {V : β → Prop} {A B : Result → Prop}

theorem Op.Ends.pure {b : β} (h : V b) : (Op.pure b).Ends c V A := fun s hc hcs hw => .inl ⟨b, s, rfl, h, hc, hcs, hw⟩

theorem Op.Ends.endWith {r : Result} (h : A r) : (Machine.endWith r : Op β).Ends c V A :=
  fun s _ _ _ => .inr ⟨r, s, rfl, h, fun _ => rfl⟩

theorem Op.Ends.withConfig {f : Config → Op β} (h : (f c).Ends c V A) : (Machine.withConfig f).Ends c V A := by
  intro s hc
  rw [withConfig_run, hc]
  exact h s hc

/-- A check, then a piece that may itself still refuse. -/
theorem Op.Ends.check {m : Op α} {k : α → Op β} (hm : m.Checks c U A) (hk : ∀ a, U a → (k a).Ends c V A) :
    (m.bind k).Ends c V A := by
  intro s hc hcs hw
  obtain ⟨a, e, ha⟩ | ⟨r, e, hr⟩ := hm s hc
  · rw [Op.bind_ok e]
    exact hk a ha s hc hcs hw
  · exact .inr ⟨r, s, Op.bind_error e, hr, fun _ => rfl⟩

/-- A piece with traffic, then one that no longer refuses on operands. -/
theorem Op.Ends.andThen {m : Op α} {k : α → Op β} (hm : m.Ends c U A) (hk : ∀ a, U a → (k a).Ends c V B)
    (hB : ∀ r, B r → A r ∧ refusedOnOperands r = false) : (m.bind k).Ends c V A := by
  intro s hc hcs hw
  obtain ⟨a, t, e, ha, hc', hcs', hw'⟩ | ⟨r, t, e, hr⟩ := hm s hc hcs hw
  · rw [Op.bind_ok e]
    obtain hok | ⟨r, u, e', hr, -⟩ := hk a ha t hc' hcs' hw'
    · exact .inl hok
    · obtain ⟨hA, hlate⟩ := hB r hr
      exact .inr ⟨r, u, e', hA, fun h => absurd (hlate.symm.trans h) (by decide)⟩
  · exact .inr ⟨r, t, Op.bind_error e, hr⟩

theorem Op.Ends.map {m : Op α} {f : α → β} (hm : m.Ends c U A) (hf : ∀ a, U a → V (f a)) : (m.map f).Ends c V A :=
  .andThen (B := fun _ => False) hm (fun a ha => .pure (hf a ha)) fun _ h => h.elim

theorem Op.Ends.mono {V' : β → Prop} {m : Op β} (hm : m.Ends c V' B) (hV : ∀ b, V' b → V b) (hB : ∀ r, B r → A r) :
    m.Ends c V A := by
  intro s hc hcs hw
  obtain ⟨b, t, e, hb, hrest⟩ | ⟨r, t, e, hr, hst⟩ := hm s hc hcs hw
  · exact .inl ⟨b, t, e, hV b hb, hrest⟩
  · exact .inr ⟨r, t, e, hB r hr, hst⟩

theorem Op.Checks.require {b : Bool} {r : Result} (h : b = false → A r) : (Machine.require b r).Checks c (fun _ => b = true) A := by
  intro s _
  cases b with
  | true => exact .inl ⟨(), rfl, rfl⟩
  | false => exact .inr ⟨r, rfl, h rfl⟩

theorem Op.Checks.orEnd {r : Result} {o : Option α} (h : o = none → A r) : (Machine.orEnd r o).Checks c (o = some ·) A := by
  intro s _
  cases o with
  | some a => exact .inl ⟨a, rfl, rfl⟩
  | none => exact .inr ⟨r, rfl, h rfl⟩

/-! ### Accesses -/

section
variable (ht : ∀ e, A (.transport e))
include ht

theorem busReset_ends : busReset.Ends c (fun _ => True) A := by
  intro s hc hcs hw
  obtain e | ⟨f, t, -, e, -⟩ := busReset_cases hcs hw
  · exact .inl ⟨(), _, e, trivial, hc, rfl, rfl⟩
  · exact .inr ⟨_, t, e, ht _, nofun⟩

theorem busRead_ends (a : Addr) (n : Nat) : (busRead a n).Ends c (fun bytes => bytes.length = n) A := by
  intro s hc hcs hw
  obtain e | ⟨f, t, -, e, -⟩ := busRead_cases a n hcs hw
  · exact .inl ⟨_, _, e, length_captured _ _ _, hc, rfl, rfl⟩
  · exact .inr ⟨_, t, e, ht _, nofun⟩

theorem busWrite_ends (a : Addr) (data : List Byte) : (busWrite a data).Ends c (fun _ => True) A := by
  intro s hc hcs hw
  obtain e | ⟨f, t, -, e, -⟩ := busWrite_cases a data hcs hw
  · exact .inl ⟨(), _, e, trivial, hc, rfl, rfl⟩
  · exact .inr ⟨_, t, e, ht _, nofun⟩

theorem readRegister_ends {a : Addr} (ha : regAligned a = false → A (.contractViolation .regAddr)) :
    (readRegister a).Ends c (fun _ => True) A :=
  .check (.require ha) fun _ _ => .map (busRead_ends ht a 4) fun _ _ => trivial

theorem writeRegister_ends {a : Addr} (ha : regAligned a = false → A (.contractViolation .regAddr)) (v : Word) :
    (writeRegister a v).Ends c (fun _ => True) A :=
  .check (.require ha) fun _ _ => busWrite_ends ht a _

theorem modifyRegister_ends {a : Addr} (ha : regAligned a = false → A (.contractViolation .regAddr))
    (hm : c.cap.modifiable.contains a = false → A (.contractViolation .notModifiable)) (mask value : Word) :
    (modifyRegister a mask value).Ends c (fun _ => True) A := by
  refine .check (.require ha) fun _ hal => .withConfig (.check (.require hm) fun _ _ => ?_)
  have haligned : regAligned a = false → False := fun h => Bool.noConfusion (hal.symm.trans h)
  refine .andThen (B := fun r => ∃ e, r = .transport e) (readRegister_ends ht fun h => (haligned h).elim)
    (fun _ _ => writeRegister_ends (fun e => ⟨e, rfl⟩) (fun h => (haligned h).elim) _) ?_
  rintro _ ⟨e, rfl⟩
  exact ⟨ht e, rfl⟩

end

theorem ramCheck_checks {off n : Nat} (hl : n % 4 ≠ 0 → A (.contractViolation .ramLength))
    (hal : A (.contractViolation .ramAlign)) (hr : A (.contractViolation .ramRange)) :
    (ramCheck off n).Checks c (fun _ => True) A := by
  intro s _
  obtain ⟨-, -, -, e⟩ | ⟨k, e, ⟨hn, rfl⟩ | ⟨-, rfl | rfl⟩⟩ := ramCheck_cases off n s
  · exact .inl ⟨(), e, trivial⟩
  · exact .inr ⟨_, e, hl hn⟩
  · exact .inr ⟨_, e, hal⟩
  · exact .inr ⟨_, e, hr⟩

theorem readRam_ends (ht : ∀ e, A (.transport e)) {off n : Nat} (hl : n % 4 ≠ 0 → A (.contractViolation .ramLength))
    (hal : A (.contractViolation .ramAlign)) (hr : A (.contractViolation .ramRange)) :
    (readRam off n).Ends c (fun bytes => bytes.length = n) A :=
  .check (ramCheck_checks hl hal hr) fun _ _ => by
    split
    next h0 => exact .pure h0.symm
    next => exact busRead_ends ht _ _

theorem writeRam_ends (ht : ∀ e, A (.transport e)) {off : Nat} {data : List Byte}
    (hl : data.length % 4 ≠ 0 → A (.contractViolation .ramLength)) (hal : A (.contractViolation .ramAlign))
    (hr : A (.contractViolation .ramRange)) : (writeRam off data).Ends c (fun _ => True) A :=
  .check (ramCheck_checks hl hal hr) fun _ _ => by
    split
    next => exact .pure trivial
    next => exact busWrite_ends ht _ _

theorem rawCheck_checks {a : Addr} {n : Nat} (h : ∀ k, k = .regAddr ∨ k = .ramLength ∨ k = .ramAlign ∨ k = .ramRange →
    A (.contractViolation k)) : (rawCheck a n).Checks c (fun _ => True) A := by
  intro s _
  obtain ⟨-, e⟩ | ⟨-, k, e, hk⟩ := rawCheck_cases a n s
  · exact .inl ⟨(), e, trivial⟩
  · exact .inr ⟨_, e, h k hk⟩

theorem filterRegsOp_checks {n : Nat} (h : A (.contractViolation .filterIndex)) :
    (filterRegsOp n).Checks c (filterRegs c.schema n = some ·) A := by
  rintro s rfl
  exact Op.Checks.orEnd (fun _ => h) s rfl

theorem fifoRegsOp_checks {i : Nat} (h : A (.contractViolation .fifoIndex)) : (fifoRegsOp i).Checks c (fifoRegs i = some ·) A :=
  .orEnd fun _ => h

end

/-! ### Composite operations of an admissible configuration -/

/-- The results of `i` once traffic has begun. -/
def lateResult (i : Instr) (r : Result) : Prop := mayEndWith i r = true ∧ refusedOnOperands r = false

theorem lateResult_transport {i : Instr} (h : sendsTransactions i = true) (e : Nat) : lateResult i (.transport e) := ⟨h, rfl⟩

theorem lateResult_late {i : Instr} (r : Result) (h : lateResult i r) : lateResult i r ∧ refusedOnOperands r = false := ⟨h, h.2⟩

section
variable {c : Config} {V : Value → Prop}

/-- A check that holds never refuses. -/
theorem elim_of_holds {b : Bool} (h : b = true) {P : Prop} (h' : b = false) : P := absurd (h.symm.trans h') (by decide)

/-- The control register of a FIFO is aligned and modifiable: only the transport can fail its update. -/
theorem modifyControl_ends {A : Result → Prop} (hc : Admits c) (ht : ∀ e, A (.transport e)) {i : Nat} (h1 : 1 ≤ i) (h2 : i ≤ 31)
    (mask value : Word) : (modifyRegister (conOf i) mask value).Ends c (fun _ => True) A :=
  modifyRegister_ends ht (elim_of_holds (aligned_conOf h2)) (elim_of_holds (hc.modifiable_con h1 h2)) mask value

theorem transmitOp_ends (hc : Admits c) (i : Byte) (f : Frame) :
    (transmitOp i.toNat f).Ends c (fun _ => True) (mayEndWith (.transmit i f) · = true) := by
  have ht := lateResult_transport (i := .transmit i f) rfl
  refine .check (fifoRegsOp_checks rfl) fun regs hregs => ?_
  obtain ⟨h1, h2, rfl⟩ := fifoRegs_some hregs
  refine .mono (B := lateResult (.transmit i f)) ?_ (fun _ h => h) fun r h => h.1
  refine .withConfig (.andThen (readRegister_ends ht (elim_of_holds (aligned_staOf h2))) (fun status _ => ?_) lateResult_late)
  split
  · refine .withConfig (.andThen (readRegister_ends ht (elim_of_holds (aligned_uaOf h2))) (fun a _ => ?_) lateResult_late)
    refine .andThen (writeRam_ends ht (fun h => absurd (length_messageObject_mod _ f) h) ⟨rfl, rfl⟩ ⟨rfl, rfl⟩)
      (fun _ _ => ?_) lateResult_late
    exact .map (modifyControl_ends hc ht h1 h2 _ _) fun _ _ => trivial
  · exact .endWith ⟨rfl, rfl⟩

theorem readPayload_ends {A : Result → Prop} (ht : ∀ e, A (.transport e)) (hal : A (.contractViolation .ramAlign))
    (hr : A (.contractViolation .ramRange)) (cfg : Config) (a : Nat) (h : Header) :
    (readPayload cfg a h).Ends c (fun _ => True) A := by
  refine .andThen (B := fun _ => False) (readRam_ends ht (fun hn => absurd (pad4_mod _) hn) hal hr) (fun bytes hlen => ?_)
    fun _ h => h.elim
  have hpad := le_pad4 (dlcBytes h.dlc)
  have htake : dlcBytes h.dlc ≤ (bytes.take (dlcBytes h.dlc)).length := by
    rw [List.length_take]
    omega
  rw [decodeOp, decodeFrame_some htake]
  exact .pure trivial

theorem receiveFrom_ends (hc : Admits c) {i : Nat} (h1 : 1 ≤ i) (h2 : i ≤ 31) :
    (receiveFrom i).Ends c (fun _ => True) (lateResult .receive) := by
  have ht := lateResult_transport (i := .receive) rfl
  refine .check (U := (fifoRegs i = some ·)) (.orEnd fun h => ?_) fun regs hregs => ?_
  · rw [fifoRegs_eq h1 h2] at h
    cases h
  obtain ⟨-, -, rfl⟩ := fifoRegs_some hregs
  refine .withConfig (.andThen (readRegister_ends ht (elim_of_holds (aligned_uaOf h2))) (fun a _ => ?_) lateResult_late)
  refine .andThen (readRam_ends ht (fun h => absurd rfl h) ⟨rfl, rfl⟩ ⟨rfl, rfl⟩) (fun hb _ => ?_) lateResult_late
  refine .andThen (readPayload_ends ht ⟨rfl, rfl⟩ ⟨rfl, rfl⟩ _ _ _) (fun f _ => ?_) lateResult_late
  exact .map (modifyControl_ends hc ht h1 h2 _ _) fun _ _ => trivial

theorem receiveOp_ends (hc : Admits c) : receiveOp.Ends c (fun _ => True) (lateResult .receive) := by
  have ht := lateResult_transport (i := .receive) rfl
  have hint := aligned_of_addrFits hc.intAddr
  refine .withConfig (.andThen (readRegister_ends ht (elim_of_holds hint)) (fun status _ => ?_) lateResult_late)
  split
  · refine .withConfig (.andThen (modifyRegister_ends ht (elim_of_holds hint) (elim_of_holds hc.modifiable_int) _ _)
      (fun _ _ => ?_) lateResult_late)
    exact .endWith ⟨rfl, rfl⟩
  · refine .withConfig (.andThen (readRegister_ends ht (elim_of_holds (aligned_of_addrFits hc.rxif)))
      (fun bitmap _ => ?_) lateResult_late)
    split
    next i hscan =>
      obtain ⟨h1, h2, -⟩ := scan_some hscan
      exact receiveFrom_ends hc h1 h2
    next => exact .endWith ⟨rfl, rfl⟩
  · exact .endWith ⟨rfl, rfl⟩

theorem configureFifoOp_ends (i : Byte) (spec : FifoSpec) :
    (configureFifoOp i.toNat spec).Ends c (fun _ => True) (mayEndWith (.configureFifo i spec) · = true) := by
  refine .check (fifoRegsOp_checks rfl) fun regs hregs => ?_
  obtain ⟨h1, h2, rfl⟩ := fifoRegs_some hregs
  refine .check (.require fun _ => rfl) fun _ _ => .withConfig ?_
  exact .map (writeRegister_ends (fun _ => rfl) (elim_of_holds (aligned_conOf h2)) _) fun _ _ => trivial

theorem configureFilterOp_ends (hc : Admits c) (n : Byte) (f : FilterSpec) (m : MaskSpec) :
    (configureFilterOp n.toNat f m).Ends c (fun _ => True) (mayEndWith (.configureFilter n f m) · = true) := by
  have ht := lateResult_transport (i := .configureFilter n f m) rfl
  refine .check (filterRegsOp_checks rfl) fun regs hregs => .check (fifoRegsOp_checks rfl) fun _ _ => ?_
  have hn : n.toNat ≤ 31 := by
    by_contra hn
    rw [filterRegs_none (by omega)] at hregs
    cases hregs
  obtain rfl := Option.some.inj ((filterRegs_eq hn).symm.trans hregs)
  refine .mono (B := lateResult (.configureFilter n f m)) ?_ (fun _ h => h) fun r h => h.1
  refine .withConfig (.andThen (writeRegister_ends ht (elim_of_holds (aligned_obj _)) _) (fun _ _ => ?_) lateResult_late)
  refine .andThen (writeRegister_ends ht (elim_of_holds (aligned_mask _)) _) (fun _ _ => ?_) lateResult_late
  exact .map (modifyRegister_ends ht (elim_of_holds (hc.aligned_fltcon hn)) (elim_of_holds (hc.modifiable_fltcon hn)) _ _)
    fun _ _ => trivial

end

/-! ### Every operation -/

/-- The results a body can end with: its operation's, and in the pass of RECEIVE_WAIT the one that suspends it. -/
def bodyMayEndWith (i : Instr) (r : Result) : Prop := mayEndWith i r = true ∨ (i = .receiveWait ∧ r = .nothingPending)

/-- RECEIVE_WAIT's pass ends as RECEIVE's does, but for finding nothing. -/
theorem lateResult_receiveWait {r : Result} (h : lateResult .receive r) : bodyMayEndWith .receiveWait r := by
  obtain ⟨hmay, -⟩ := h
  cases r with
  | nothingPending => exact .inr ⟨rfl, rfl⟩
  | ok | controllerBusError | transport => exact .inl rfl
  | contractViolation k =>
    cases k with
    | ramAlign | ramRange => exact .inl rfl
    | _ => cases hmay
  | unsupported w => 
    cases w with
    | variant => exact .inl rfl
    | _ => cases hmay
  | _ => cases hmay

theorem bodyOf_ends {c : Config} (hc : Admits c) (i : Instr) :
    (bodyOf i).Ends c (fun v => mayEndWith i (.ok v) = true) (bodyMayEndWith i) := by
  cases i with
  | wReset | reset => exact .map (busReset_ends fun _ => .inl rfl) fun _ _ => rfl
  | wRead a n =>
    refine .check (rawCheck_checks ?_) fun _ _ => .map (busRead_ends (fun _ => .inl rfl) a n) fun _ _ => rfl
    rintro k (rfl | rfl | rfl | rfl) <;> exact .inl rfl
  | wWrite a data =>
    refine .check (rawCheck_checks ?_) fun _ _ => .map (busWrite_ends (fun _ => .inl rfl) a data) fun _ _ => rfl
    rintro k (rfl | rfl | rfl | rfl) <;> exact .inl rfl
  | wWriteCrc | wReadCrc | wWriteSafe | dlcToLen | encode | scan => exact .pure rfl
  | readReg a => exact .map (readRegister_ends (fun _ => .inl rfl) fun _ => .inl rfl) fun _ _ => rfl
  | writeReg a v => exact .map (writeRegister_ends (fun _ => .inl rfl) (fun _ => .inl rfl) v) fun _ _ => rfl
  | modifyReg a mask value =>
    exact .map (modifyRegister_ends (fun _ => .inl rfl) (fun _ => .inl rfl) (fun _ => .inl rfl) mask value) fun _ _ => rfl
  | readBytes off n => exact .map (readRam_ends (fun _ => .inl rfl) (fun _ => .inl rfl) (.inl rfl) (.inl rfl)) fun _ _ => rfl
  | writeBytes off data => exact .map (writeRam_ends (fun _ => .inl rfl) (fun _ => .inl rfl) (.inl rfl) (.inl rfl)) fun _ _ => rfl
  | requestToTransmit | readStatus => exact .endWith (.inl rfl)
  | lenToDlc | frameNew | decode | fifoAddr => exact .check (.orEnd fun _ => .inl rfl) fun _ _ => .pure rfl
  | hdrToBytes h => exact .withConfig (f := fun c => .pure (Value.bytes (headerToBytes c.schema h))) (.pure rfl)
  | bytesToHdr b => exact .withConfig (f := fun c => .pure (Value.header (bytesToHeader c.schema b))) (.pure rfl)
  | arbitrate w => exact .withConfig (f := fun c => .pure (Value.arbitration (arbitrate c.schema w))) (.pure rfl)
  | filterAddr n => exact .check (filterRegsOp_checks (.inl rfl)) fun _ _ => .pure rfl
  | transmit i f => exact .mono (transmitOp_ends hc i f) (fun _ _ => rfl) fun _ => .inl
  | receive => exact .mono (receiveOp_ends hc) (fun _ _ => rfl) fun _ h => .inl h.1
  | receiveWait => exact .mono (receiveOp_ends hc) (fun _ _ => rfl) fun _ h => lateResult_receiveWait h
  | configureFifo i spec => exact .mono (configureFifoOp_ends i spec) (fun _ _ => rfl) fun _ => .inl
  | configureFilter n f m => exact .mono (configureFilterOp_ends hc n f m) (fun _ _ => rfl) fun _ => .inl

theorem onVariant_ends {c : Config} {V : Value → Prop} {A : Result → Prop} {m : Op Value} (hm : m.Ends c V A)
    (h : A (.unsupported .variant)) : (onVariant m).Ends c V A :=
  .withConfig (.check (.require fun _ => h) fun _ _ => hm)

/-- The result of an operation belongs to it, and a refusal on operands is all the operation did. -/
theorem exec_result {i : Instr} {s t : State} {r : Result} (hi : Steady s) (hwf : s.cfg.wf = true) (h : exec i s = .next t)
    (hr : t.result = some r) : mayEndWith i r = true ∧ (refusedOnOperands r = true → t = finish r s) := by
  obtain ⟨x, u, hbody, hran, hend⟩ := exec_next hi h
  obtain ⟨r', rfl, hx, hpass⟩ | ⟨-, -, rfl⟩ := hend
  · obtain rfl : r' = r := Option.some.inj hr
    have hends := onVariant_ends (bodyOf_ends (admits_of_wf hwf) i) (.inl rfl) (begin i s) rfl hi.released hi.noOpenTxn
    rw [hbody] at hends
    obtain ⟨v, u', e, hv, -⟩ | ⟨r, u', e, hA, hrefused⟩ := hends <;> cases e
    · obtain ⟨v', hv', rfl⟩ | hx := hx
      · cases hv'
        exact ⟨hv, nofun⟩
      · cases hx
    · obtain ⟨v', hv', -⟩ | hx := hx
      · cases hv'
      · cases hx
        obtain hA | ⟨hw, rfl⟩ := hA
        · exact ⟨hA, fun h => by rw [hrefused h]; rfl⟩
        · exact absurd rfl (hpass hw)
  · obtain ⟨k, e⟩ := suspend_eq u
    rw [e] at hr
    exact absurd (hran.result.symm.trans hr) (by simp)

/-- Settles O13. -/
theorem resultsBelongToTheirOperations : Obligations.ResultsBelongToTheirOperations := fun _ _ _ _ hi hwf h hr =>
  (exec_result hi hwf h hr).1

/-- Settles O14: a body refuses on operands in its checks, which leave the state as it was (`Op.Checks`). -/
theorem operandRefusalsSendNothing : Obligations.OperandRefusalsSendNothing := fun _ _ _ _ hi hwf h hr hrefused =>
  (exec_result hi hwf h hr).2 hrefused

end Sys2Proof.Machine
end
